-- ==== Sys2Proof/Word.lean ====
section
/-! DEFINITION. The word types of the 2d_convolution_engine: bytes of memory, 64-bit descriptor words,
32-bit registers, and the bit patterns of binary64 values (00_scope.md R14, R17, R21). -/

namespace Sys2Proof

/-- One byte of memory (20_memory.md R100). -/
abbrev Byte := BitVec 8

/-- One 64-bit word of a descriptor (30_encoding.md R150), or an address the engine holds (00_scope.md R14). -/
abbrev Word := BitVec 64

/-- One 32-bit register of the register window (10_state.md R52). -/
abbrev Reg := BitVec 32

/-- The bit pattern of an IEEE 754 binary64 value (00_scope.md R21). -/
abbrev F64 := BitVec 64

end Sys2Proof
end

