-- ==== Sys2Proof/Syntax.lean ====
section
/-! DEFINITION. The commands of the 2d_convolution_engine, one constructor of `Instr` per row of
spec/opcode_table.json, with the operands of 30_encoding.md R170. -/

namespace Sys2Proof

/-- A grid operand, format G of 30_encoding.md R153. The numbers are those the fields hold; `WellFormed`
says which of them a descriptor can hold. The element size is the operand's, not the grid's (20_memory.md R109). -/
structure Grid where
  /-- byte address of element (0, 0) -/
  base : Nat
  /-- height in rows -/
  h : Nat
  /-- width in columns -/
  w : Nat
  /-- bytes from the start of one row to the start of the next -/
  stride : Nat
  deriving DecidableEq, Repr

/-- The boundary policies of CONV, flag BND of 30_encoding.md R152. -/
inductive Boundary where
  | zero
  | edgeReplicate
  deriving DecidableEq, Repr

/-- The parameters of CANNY: the defaults of 48_canny.md R395 when DEF = 1 (the words w6 to w9 are then
ignored), else the words SIZE, SIGMA, HIGH and LOW. -/
inductive CannyParams where
  | defaults
  | given (size : Int) (sigma high low : F64)
  deriving DecidableEq, Repr

/-- The commands, in opcode order (30_encoding.md R160). -/
inductive Instr where
  /-- END, opcode 0x00 (40_control.md R204). -/
  | endList
  /-- CONV, opcode 0x01; `corr` is the flag CORR (41_convolution.md R230). -/
  | conv (bnd : Boundary) (corr : Bool) (img ker out : Grid)
  /-- GAUSS, opcode 0x02 (42_gaussian.md R260). -/
  | gauss (out : Grid) (size : Int) (sigma : F64)
  /-- GRAD, opcode 0x03 (43_gradient.md R280). -/
  | grad (img mag dir : Grid)
  /-- NMS, opcode 0x04 (44_nms.md R300). -/
  | nms (mag dir out : Grid)
  /-- DTHR, opcode 0x05 (45_threshold.md R320). -/
  | dthr (img strong weak : Grid) (high low : F64)
  /-- LINK, opcode 0x06; `full` is the flag TRANS (46_link.md R340). -/
  | link (full : Bool) (strong weak out : Grid)
  /-- HOUGH, opcode 0x07; `trunc` is the flag TRUNC (47_hough.md R360). -/
  | hough (trunc : Bool) (edges acc rhos thetas : Grid)
  /-- CANNY, opcode 0x08; `full` is the flag TRANS, `scratch` the word SCRATCH (48_canny.md R390). -/
  | canny (full : Bool) (img out : Grid) (scratch : Nat) (params : CannyParams)
  deriving DecidableEq, Repr

end Sys2Proof
end

