-- ==== Sys2Proof/WellFormed.lean ====
section
/-! DEFINITION. Which commands a descriptor can hold: every field within the width its format gives it
(30_encoding.md R153, R154). The checks a command makes on its operands when it runs are in
Machine/Validate.lean, not here. -/

namespace Sys2Proof

/-- The fields of a grid fit format G (30_encoding.md R153): BASE 64 bits, H and W 16 bits, STRIDE 32 bits. -/
def Grid.wellFormed (g : Grid) : Bool :=
  decide (g.base < 2 ^ 64) && decide (g.h < 2 ^ 16) && decide (g.w < 2 ^ 16) && decide (g.stride < 2 ^ 32)

/-- An I64 scalar is a two's-complement 64-bit number (30_encoding.md R154). -/
def fitsI64 (n : Int) : Bool := decide (-(2 ^ 63) ≤ n) && decide (n < 2 ^ 63)

/-- The scalars of CANNY fit their words (30_encoding.md R154). -/
def CannyParams.wellFormed : CannyParams → Bool
  | .defaults => true
  | .given size _ _ _ => fitsI64 size

/-- Every field of the command fits its place in the descriptor (30_encoding.md R153, R154, R170). -/
def Instr.wellFormed : Instr → Bool
  | .endList => true
  | .conv _ _ img ker out => img.wellFormed && ker.wellFormed && out.wellFormed
  | .gauss out size _ => out.wellFormed && fitsI64 size
  | .grad img mag dir => img.wellFormed && mag.wellFormed && dir.wellFormed
  | .nms mag dir out => mag.wellFormed && dir.wellFormed && out.wellFormed
  | .dthr img strong weak _ _ => img.wellFormed && strong.wellFormed && weak.wellFormed
  | .link _ strong weak out => strong.wellFormed && weak.wellFormed && out.wellFormed
  | .hough _ edges acc rhos thetas =>
    edges.wellFormed && acc.wellFormed && rhos.wellFormed && thetas.wellFormed
  | .canny _ img out scratch params =>
    img.wellFormed && out.wellFormed && decide (scratch < 2 ^ 64) && params.wellFormed

end Sys2Proof
end

