-- ==== Sys2Proof/Decode.lean ====
section
/-! DEFINITION. Decoding a descriptor into a command and encoding a command as a descriptor
(30_encoding.md R150 to R177). A descriptor is a list of sixteen words; a word the list does not have reads
as 0, so decoding is total. -/

namespace Sys2Proof

/-! ## Fields -/

/-- Word k of a descriptor. -/
def wordAt (ws : List Word) (k : Nat) : Word := ws.getD k 0

/-- OPCODE, bits 7:0 of the command word (30_encoding.md R151). -/
def opcodeOf (w0 : Word) : BitVec 8 := w0.extractLsb' 0 8

/-- FLAGS, bits 15:8 of the command word (30_encoding.md R151). -/
def flagsOf (w0 : Word) : BitVec 8 := w0.extractLsb' 8 8

/-- RSVD, bits 63:16 of the command word (30_encoding.md R151). -/
def rsvdOf (w0 : Word) : BitVec 48 := w0.extractLsb' 16 48

/-- FMASK(op), the flag bits an opcode defines (30_encoding.md R152). -/
def fmask (op : BitVec 8) : BitVec 8 :=
  if op = 0x01 then 0x03
  else if op = 0x06 then 0x01
  else if op = 0x07 then 0x01
  else if op = 0x08 then 0x03
  else 0x00

/-- The grid operand whose first word is word k (30_encoding.md R153). -/
def gridAt (ws : List Word) (k : Nat) : Grid where
  base := (wordAt ws k).toNat
  h := ((wordAt ws (k + 1)).extractLsb' 0 16).toNat
  w := ((wordAt ws (k + 1)).extractLsb' 16 16).toNat
  stride := ((wordAt ws (k + 1)).extractLsb' 32 32).toNat

/-- The I64 scalar in word k, two's complement (30_encoding.md R154). -/
def i64At (ws : List Word) (k : Nat) : Int := (wordAt ws k).toInt

/-! ## Decoding -/

/-- Why a command word selects no command (30_encoding.md R175). -/
inductive Reject where
  /-- OPCODE is 0x09 to 0xFF: E_OPCODE -/
  | opcode
  /-- a RSVD bit, or a FLAGS bit outside FMASK, is set: E_RESERVED -/
  | reserved
  deriving DecidableEq, Repr

/-- The command of a descriptor whose command word passed step A, by its opcode (30_encoding.md R160, R170). -/
def decodeBody (ws : List Word) : Except Reject Instr :=
  match (opcodeOf (wordAt ws 0)).toNat with
  | 0 => .ok .endList
  | 1 => .ok (.conv (if (flagsOf (wordAt ws 0)).getLsbD 0 then .edgeReplicate else .zero)
      ((flagsOf (wordAt ws 0)).getLsbD 1) (gridAt ws 1) (gridAt ws 3) (gridAt ws 5))
  | 2 => .ok (.gauss (gridAt ws 1) (i64At ws 3) (wordAt ws 4))
  | 3 => .ok (.grad (gridAt ws 1) (gridAt ws 3) (gridAt ws 5))
  | 4 => .ok (.nms (gridAt ws 1) (gridAt ws 3) (gridAt ws 5))
  | 5 => .ok (.dthr (gridAt ws 1) (gridAt ws 3) (gridAt ws 5) (wordAt ws 7) (wordAt ws 8))
  | 6 => .ok (.link ((flagsOf (wordAt ws 0)).getLsbD 0) (gridAt ws 1) (gridAt ws 3) (gridAt ws 5))
  | 7 => .ok (.hough ((flagsOf (wordAt ws 0)).getLsbD 0) (gridAt ws 1) (gridAt ws 3) (gridAt ws 5) (gridAt ws 7))
  | 8 => .ok (.canny ((flagsOf (wordAt ws 0)).getLsbD 0) (gridAt ws 1) (gridAt ws 3) (wordAt ws 5).toNat
      (if (flagsOf (wordAt ws 0)).getLsbD 1 then .defaults
       else .given (i64At ws 6) (wordAt ws 7) (wordAt ws 8) (wordAt ws 9)))
  | _ => .error .opcode

/-- Decoding, step A of validation (40_control.md R211): an undefined opcode before a reserved bit. -/
def decode (ws : List Word) : Except Reject Instr :=
  if 0x09 ≤ (opcodeOf (wordAt ws 0)).toNat then .error .opcode
  else if rsvdOf (wordAt ws 0) ≠ 0 ∨ flagsOf (wordAt ws 0) &&& ~~~ fmask (opcodeOf (wordAt ws 0)) ≠ 0 then
    .error .reserved
  else decodeBody ws

/-! ## Bytes and words (20_memory.md R104) -/

/-- The low `n` bytes of a number, least significant first. -/
def bytesOf : Nat → Nat → List Byte
  | 0, _ => []
  | n + 1, v => BitVec.ofNat 8 v :: bytesOf n (v / 256)

/-- The number whose bytes, least significant first, are listed. -/
def ofBytes : List Byte → Nat
  | [] => 0
  | b :: bs => b.toNat + 256 * ofBytes bs

/-- The first `n` little-endian 64-bit words of a list of bytes; bytes it does not have read as 0. -/
def wordsOf : Nat → List Byte → List Word
  | 0, _ => []
  | n + 1, bs => BitVec.ofNat 64 (ofBytes (bs.take 8)) :: wordsOf n (bs.drop 8)

/-- Decoding the 128 bytes of a descriptor. -/
def decodeBytes (bs : List Byte) : Except Reject Instr := decode (wordsOf 16 bs)

/-- The 128 bytes of the descriptor whose low `nbits` bits are those of `w` and whose other bits are 0, in
memory order: bit 0 is the least significant bit of the first word. -/
def tableBytes (nbits w : Nat) : List Byte := bytesOf 128 (w % 2 ^ nbits)

/-- The command the decoder reads from the descriptor `tableBytes nbits w`. -/
def decodeTableWord (nbits w : Nat) : Option Instr := (decodeBytes (tableBytes nbits w)).toOption

/-! ## Encoding -/

/-- The command word (30_encoding.md R151): OPCODE, with flag bits 8 and 9. -/
def commandWord (op : Nat) (flag8 flag9 : Bool) : Word :=
  BitVec.ofNat 64 (op + (if flag8 then 0x100 else 0) + (if flag9 then 0x200 else 0))

/-- The two words of a grid operand (30_encoding.md R153). -/
def gridWords (g : Grid) : List Word :=
  [BitVec.ofNat 64 g.base, BitVec.ofNat 64 (g.h + g.w * 2 ^ 16 + g.stride * 2 ^ 32)]

/-- The words w6 to w9 of CANNY; software writes ignored words as 0 (30_encoding.md R155). -/
def CannyParams.words : CannyParams → List Word
  | .defaults => [0, 0, 0, 0]
  | .given size sigma high low => [BitVec.ofInt 64 size, sigma, high, low]

/-- The flag DEF of CANNY. -/
def CannyParams.isDefault : CannyParams → Bool
  | .defaults => true
  | .given .. => false

/-- The operand words of a command, from w1 on (30_encoding.md R170). -/
def operandWords : Instr → List Word
  | .endList => []
  | .conv _ _ img ker out => gridWords img ++ gridWords ker ++ gridWords out
  | .gauss out size sigma => gridWords out ++ [BitVec.ofInt 64 size, sigma]
  | .grad img mag dir => gridWords img ++ gridWords mag ++ gridWords dir
  | .nms mag dir out => gridWords mag ++ gridWords dir ++ gridWords out
  | .dthr img strong weak high low => gridWords img ++ gridWords strong ++ gridWords weak ++ [high, low]
  | .link _ strong weak out => gridWords strong ++ gridWords weak ++ gridWords out
  | .hough _ edges acc rhos thetas =>
    gridWords edges ++ gridWords acc ++ gridWords rhos ++ gridWords thetas
  | .canny _ img out scratch params =>
    gridWords img ++ gridWords out ++ [BitVec.ofNat 64 scratch] ++ params.words

/-- The command word of a command (30_encoding.md R152, R160). -/
def firstWord : Instr → Word
  | .endList => commandWord 0 false false
  | .conv bnd corr _ _ _ => commandWord 1 (decide (bnd = .edgeReplicate)) corr
  | .gauss .. => commandWord 2 false false
  | .grad .. => commandWord 3 false false
  | .nms .. => commandWord 4 false false
  | .dthr .. => commandWord 5 false false
  | .link full .. => commandWord 6 full false
  | .hough trunc .. => commandWord 7 trunc false
  | .canny full _ _ _ params => commandWord 8 full params.isDefault

/-- The sixteen words of a command, the words its operand table does not list written as 0
(30_encoding.md R150, R155). -/
def encode (i : Instr) : List Word :=
  firstWord i :: (operandWords i ++ List.replicate (15 - (operandWords i).length) 0)

/-- The 128 bytes of a list of words, in memory order (20_memory.md R104). -/
def bytesOfWords : List Word → List Byte
  | [] => []
  | w :: ws => bytesOf 8 w.toNat ++ bytesOfWords ws

end Sys2Proof
end

