-- ==== Sys2Proof/Machine/Float.lean ====
section
/-! DEFINITION. The numeric primitives of 00_scope.md R21 to R28: IEEE 754 binary64 arithmetic with
roundTiesToEven, ordered comparisons, conversions and the named constants, on bit patterns.

A finite value is an integer multiple of 2^-1074, the smallest positive binary64 value. `fixed v` is that
integer, so every sum, product, quotient and root is computed exactly on integers and rounded once. -/

namespace Sys2Proof.Machine

/-! ## Fields and classes -/

/-- The sign bit. -/
def fsign (v : F64) : Bool := v.getLsbD 63

/-- The bits 62:0, which order the values of one sign by magnitude. -/
def fmag (v : F64) : Nat := v.toNat % 2 ^ 63

/-- The magnitude bits of an infinity. -/
def infMag : Nat := 0x7FF0000000000000

/-- `isNaN` of 00_scope.md R24. -/
def isNaN (v : F64) : Bool := decide (infMag < fmag v)

/-- An infinity of either sign. -/
def isInf (v : F64) : Bool := decide (fmag v = infMag)

/-- `isFinite` of 00_scope.md R24. -/
def isFinite (v : F64) : Bool := decide (fmag v < infMag)

/-- A zero of either sign. -/
def isZero (v : F64) : Bool := decide (fmag v = 0)

/-- The magnitude of a finite value in units of 2^-1074 (00_scope.md R21, with subnormals, R22). -/
def fixedMag (v : F64) : Nat :=
  if fmag v / 2 ^ 52 = 0 then fmag v % 2 ^ 52
  else (fmag v % 2 ^ 52 + 2 ^ 52) * 2 ^ (fmag v / 2 ^ 52 - 1)

/-- A finite value in units of 2^-1074. -/
def fixed (v : F64) : Int := if fsign v then -(fixedMag v : Int) else fixedMag v

/-- The unit: one is 2^1074 times the smallest positive value. -/
def fixedOne : Nat := 2 ^ 1074

/-! ## Constants (00_scope.md R25) -/

def posZero : F64 := 0x0000000000000000
def negZero : F64 := 0x8000000000000000
def posInf : F64 := 0x7FF0000000000000
def negInf : F64 := 0xFFF0000000000000
def fOne : F64 := 0x3FF0000000000000
def fTwo : F64 := 0x4000000000000000
def f180 : F64 := 0x4066800000000000
/-- PI64, π rounded to binary64. -/
def pi64 : F64 := 0x400921FB54442D18
/-- -PI64. -/
def negPi64 : F64 := 0xC00921FB54442D18
/-- PI64 / 2 rounded (00_scope.md R31). -/
def halfPi64 : F64 := 0x3FF921FB54442D18
def twoPi : F64 := 0x401921FB54442D18
def r2d : F64 := 0x404CA5DC1A63C1F8
def d2r : F64 := 0x3F91DF46A2529D39
def fHalf : F64 := 0x3FE0000000000000
def fNegHalf : F64 := 0xBFE0000000000000
def c22_5 : F64 := 0x4036800000000000
def c45 : F64 := 0x4046800000000000
def c360 : F64 := 0x4076800000000000
/-- CANON_NAN, the NaN the block writes (00_scope.md R27). -/
def canonNaN : F64 := 0x7FF8000000000000

/-! ## Rounding (00_scope.md R22) -/

/-- The quotient `n / d` rounded to the nearest integer, ties to the even one. -/
def divEven (n d : Nat) : Nat :=
  if d < 2 * (n % d) ∨ (2 * (n % d) = d ∧ n / d % 2 = 1) then n / d + 1 else n / d

/-- The magnitude bits of `n / d` units of 2^-1074, rounded once with roundTiesToEven: 53 significant bits
where the quotient has them, fewer below 2^-1022, and an infinity at overflow. A carry out of the 53 bits
runs into the exponent field, as the encoding has it. -/
def roundMag (n d : Nat) : Nat :=
  min (((n / d).log2 + 1 - 53) * 2 ^ 52 + divEven n (d * 2 ^ ((n / d).log2 + 1 - 53))) infMag

/-- A sign and magnitude bits as one bit pattern. -/
def packF (s : Bool) (mag : Nat) : F64 := BitVec.ofNat 64 ((if s then 2 ^ 63 else 0) + mag)

/-- The binary64 value nearest to plus or minus `n / d` units of 2^-1074. -/
def roundRat (s : Bool) (n d : Nat) : F64 := packF s (roundMag n d)

/-- One step of the binary digit search of `isqrt`: `r` is the root's high bits, `b` bits are left. -/
def isqrtBits : Nat → Nat → Nat → Nat
  | 0, _, r => r
  | b + 1, n, r => isqrtBits b n (if (r + 2 ^ b) * (r + 2 ^ b) ≤ n then r + 2 ^ b else r)

/-- The integer square root, the greatest r with r² ≤ n. -/
def isqrt (n : Nat) : Nat := isqrtBits (n.log2 / 2 + 1) n 0

/-! ## Arithmetic (00_scope.md R22, R26)

A NaN result is CANON_NAN: no command can observe another payload (00_scope.md R27). -/

/-- The value with the other sign. -/
def fneg (v : F64) : F64 := v ^^^ negZero

/-- `fadd` of 00_scope.md R22; an exact zero sum is -0 only when both addends are -0 (R26). -/
def fadd (a b : F64) : F64 :=
  if isNaN a || isNaN b then canonNaN
  else if isInf a then (if isInf b && fsign a != fsign b then canonNaN else a)
  else if isInf b then b
  else if fixed a + fixed b = 0 then (if fsign a && fsign b then negZero else posZero)
  else roundRat (decide (fixed a + fixed b < 0)) (fixed a + fixed b).natAbs 1

/-- `fsub` of 00_scope.md R22. -/
def fsub (a b : F64) : F64 := fadd a (fneg b)

/-- `fmul` of 00_scope.md R22. -/
def fmul (a b : F64) : F64 :=
  if isNaN a || isNaN b then canonNaN
  else if isInf a || isInf b then
    (if isZero a || isZero b then canonNaN else packF (fsign a != fsign b) infMag)
  else roundRat (fsign a != fsign b) (fixedMag a * fixedMag b) fixedOne

/-- `fdiv` of 00_scope.md R22: a nonzero finite value over zero is an infinity, 0/0 and inf/inf are NaN. -/
def fdiv (a b : F64) : F64 :=
  if isNaN a || isNaN b then canonNaN
  else if isInf a then (if isInf b then canonNaN else packF (fsign a != fsign b) infMag)
  else if isInf b then packF (fsign a != fsign b) 0
  else if isZero b then (if isZero a then canonNaN else packF (fsign a != fsign b) infMag)
  else roundRat (fsign a != fsign b) (fixedMag a * fixedOne) (fixedMag b)

/-- `fsqrt` of 00_scope.md R22. The root of `m` units is √(m·2^1074) units, far more than 54 bits long, so
its integer part and one sticky bit round as the root itself does. -/
def fsqrt (a : F64) : F64 :=
  if isNaN a then canonNaN
  else if isZero a then a
  else if fsign a then canonNaN
  else if isInf a then a
  else
    let n := fixedMag a * fixedOne
    let r := isqrt n
    roundRat false (2 * r + (if r * r = n then 0 else 1)) 2

/-- A written arithmetic result (00_scope.md R27): a NaN becomes CANON_NAN. -/
def canonical (v : F64) : F64 := if isNaN v then canonNaN else v

/-! ## Comparisons (00_scope.md R23) -/

/-- The order of the non-NaN values as integers; +0 and -0 are one value. -/
def orderKey (v : F64) : Int := if fsign v then -(fmag v : Int) else fmag v

/-- `fge`: a ≥ b, false when either is a NaN. -/
def fge (a b : F64) : Bool := !isNaN a && !isNaN b && decide (orderKey b ≤ orderKey a)

/-- `fgt`: a > b, false when either is a NaN. -/
def fgt (a b : F64) : Bool := !isNaN a && !isNaN b && decide (orderKey b < orderKey a)

/-- `flt`: a < b, false when either is a NaN. -/
def flt (a b : F64) : Bool := fgt b a

/-! ## Conversions (00_scope.md R24) -/

/-- `f64`: the binary64 value of an integer; f64(0) is +0. -/
def f64 (n : Int) : F64 := roundRat (decide (n < 0)) (n.natAbs * fixedOne) 1

/-- `floorInt`: the greatest integer not above a finite value. -/
def floorInt (v : F64) : Int := fixed v / (fixedOne : Int)

/-- `truncInt`: a finite value rounded toward zero. -/
def truncInt (v : F64) : Int :=
  if fsign v then -((fixedMag v / fixedOne : Nat) : Int) else (fixedMag v / fixedOne : Nat)

/-- `roundEven`: the integer nearest a finite value, ties to the even one. -/
def roundEven (v : F64) : Int :=
  if fsign v then -(divEven (fixedMag v) fixedOne : Int) else divEven (fixedMag v) fixedOne

end Sys2Proof.Machine
end

