-- ==== Sys2Proof/Machine/TrigTable.lean ====
section
/-! DEFINITION. The reference table of cosines and sines of 47_hough.md R363. It is one admissible value
of the OPEN parameter HOUGH_TRIG (00_scope.md R32), kept for evaluating HOUGH; no meaning rests on it. -/

namespace Sys2Proof.Machine

/-- Rows t = 0 to 9 of the table, each (c_t, s_t). -/
def referenceTrigRows0 : List (F64 × F64) := [
  (0x3C91A62633145C07, 0xBFF0000000000000),
  (0x3F91DF0B2B89DD37, 0xBFEFFEC097F5AF8A),
  (0x3FA1DE58C9F7DC37, 0xBFEFFB0278BF0567),
  (0x3FAACBC748EFC921, 0xBFEFF4C5ED12E61D),
  (0x3FB1DB8F6D6A5123, 0xBFEFEC0B7170FFF6),
  (0x3FB64FD6B8C28100, 0xBFEFE0D3B41815A2),
  (0x3FBAC2609B3C576B, 0xBFEFD31F94F867C6),
  (0x3FBF32D44C4F62D4, 0xBFEFC2F025A23E8B),
  (0x3FC1D06C968D9E1A, 0xBFEFB046A930947A),
  (0x3FC4060B67A85377, 0xBFEF9B24942FE45C)]

/-- Rows t = 10 to 19 of the table, each (c_t, s_t). -/
def referenceTrigRows1 : List (F64 × F64) := [
  (0x3FC63A1A7E0B738C, 0xBFEF838B8C811C17),
  (0x3FC86C6DDD766253, 0xBFEF697D6938B6C2),
  (0x3FCA9CD9AC4258FA, 0xBFEF4CFC327A007F),
  (0x3FCCCB3236CDC672, 0xBFEF2E0A214E870F),
  (0x3FCEF74BF2E4B91B, 0xBFEF0CA99F79BA25),
  (0x3FD0907DC1930690, 0xBFEEE8DD4748BF15),
  (0x3FD1A40ADD328E29, 0xBFEEC2A7E35E7B80),
  (0x3FD2B637CF83D5C8, 0xBFEE9A0C6E7BDB1F),
  (0x3FD3C6EF372FE950, 0xBFEE6F0E134454FF),
  (0x3FD4D61BD000CDDD, 0xBFEE41B02BFEB4CA)]

/-- Rows t = 20 to 29 of the table, each (c_t, s_t). -/
def referenceTrigRows2 : List (F64 × F64) := [
  (0x3FD5E3A8748A0BF7, 0xBFEE11F642522D1B),
  (0x3FD6EF801FCED33E, 0xBFEDDFE40EFFB805),
  (0x3FD7F98DEEE59680, 0xBFEDAB7D7997CB58),
  (0x3FD901BD2298FFAA, 0xBFED74C6982C666F),
  (0x3FDA07F921061AD1, 0xBFED3BC3AEFF7F95),
  (0x3FDB0C2D77379853, 0xBFED0079302DD767),
  (0x3FDC0E45DABE05C9, 0xBFECC2EBBB5638CA),
  (0x3FDD0E2E2B44DE01, 0xBFEC83201D3D2C6C),
  (0x3FDE0BD27424507A, 0xBFEC411B4F6D2707),
  (0x3FDF071EEDEFA0EE, 0xBFEBFCE277D339C6)]

/-- Rows t = 30 to 39 of the table, each (c_t, s_t). -/
def referenceTrigRows3 : List (F64 × F64) := [
  (0x3FE0000000000001, 0xBFEBB67AE8584CAA),
  (0x3FE07B3120FDDF13, 0xBFEB6DEA1E76EADE),
  (0x3FE0F5193EACDD2A, 0xBFEB2335C2CDA945),
  (0x3FE16DAED770771D, 0xBFEAD663A8AE2FDC),
  (0x3FE1E4E88411FD12, 0xBFEA8779CDA8EEA5),
  (0x3FE25ABCF87C4979, 0xBFEA367E59158747),
  (0x3FE2CF2304755A5E, 0xBFE9E3779B97F4A8),
  (0x3FE342119455BEB7, 0xBFE98E6C0EA27A14),
  (0x3FE3B37FB1BDC939, 0xBFE9376253F463D2),
  (0x3FE4236484487ABE, 0xBFE8DE613515A328)]

/-- Rows t = 40 to 49 of the table, each (c_t, s_t). -/
def referenceTrigRows4 : List (F64 × F64) := [
  (0x3FE491B7523C161D, 0xBFE8836FA2CF5039),
  (0x3FE4FE6F81384FD4, 0xBFE82694B4A11C37),
  (0x3FE5698496E20BD8, 0xBFE7C7D7A833BEC2),
  (0x3FE5D2EE398C9C2B, 0xBFE7673FE0C86982),
  (0x3FE63AA430E07310, 0xBFE704D4E6A54D38),
  (0x3FE6A09E667F3BCD, 0xBFE6A09E667F3BCC),
  (0x3FE704D4E6A54D39, 0xBFE63AA430E07310),
  (0x3FE7673FE0C86982, 0xBFE5D2EE398C9C2B),
  (0x3FE7C7D7A833BEC2, 0xBFE5698496E20BD8),
  (0x3FE82694B4A11C37, 0xBFE4FE6F81384FD4)]

/-- Rows t = 50 to 59 of the table, each (c_t, s_t). -/
def referenceTrigRows5 : List (F64 × F64) := [
  (0x3FE8836FA2CF5039, 0xBFE491B7523C161C),
  (0x3FE8DE613515A328, 0xBFE4236484487ABD),
  (0x3FE9376253F463D1, 0xBFE3B37FB1BDC939),
  (0x3FE98E6C0EA27A14, 0xBFE342119455BEB6),
  (0x3FE9E3779B97F4A8, 0xBFE2CF2304755A5E),
  (0x3FEA367E59158747, 0xBFE25ABCF87C4978),
  (0x3FEA8779CDA8EEA4, 0xBFE1E4E88411FD13),
  (0x3FEAD663A8AE2FDC, 0xBFE16DAED770771D),
  (0x3FEB2335C2CDA945, 0xBFE0F5193EACDD2A),
  (0x3FEB6DEA1E76EADE, 0xBFE07B3120FDDF13)]

/-- Rows t = 60 to 69 of the table, each (c_t, s_t). -/
def referenceTrigRows6 : List (F64 × F64) := [
  (0x3FEBB67AE8584CAB, 0xBFDFFFFFFFFFFFFF),
  (0x3FEBFCE277D339C6, 0xBFDF071EEDEFA0ED),
  (0x3FEC411B4F6D2708, 0xBFDE0BD274245079),
  (0x3FEC83201D3D2C6D, 0xBFDD0E2E2B44DE00),
  (0x3FECC2EBBB5638CA, 0xBFDC0E45DABE05C8),
  (0x3FED0079302DD767, 0xBFDB0C2D77379853),
  (0x3FED3BC3AEFF7F95, 0xBFDA07F921061AD1),
  (0x3FED74C6982C666F, 0xBFD901BD2298FFAB),
  (0x3FEDAB7D7997CB58, 0xBFD7F98DEEE59681),
  (0x3FEDDFE40EFFB805, 0xBFD6EF801FCED33C)]

/-- Rows t = 70 to 79 of the table, each (c_t, s_t). -/
def referenceTrigRows7 : List (F64 × F64) := [
  (0x3FEE11F642522D1C, 0xBFD5E3A8748A0BF5),
  (0x3FEE41B02BFEB4CB, 0xBFD4D61BD000CDDC),
  (0x3FEE6F0E134454FF, 0xBFD3C6EF372FE94F),
  (0x3FEE9A0C6E7BDB1F, 0xBFD2B637CF83D5C8),
  (0x3FEEC2A7E35E7B80, 0xBFD1A40ADD328E29),
  (0x3FEEE8DD4748BF15, 0xBFD0907DC1930690),
  (0x3FEF0CA99F79BA25, 0xBFCEF74BF2E4B91D),
  (0x3FEF2E0A214E870F, 0xBFCCCB3236CDC675),
  (0x3FEF4CFC327A0080, 0xBFCA9CD9AC4258F6),
  (0x3FEF697D6938B6C2, 0xBFC86C6DDD76624F)]

/-- Rows t = 80 to 89 of the table, each (c_t, s_t). -/
def referenceTrigRows8 : List (F64 × F64) := [
  (0x3FEF838B8C811C17, 0xBFC63A1A7E0B7389),
  (0x3FEF9B24942FE45C, 0xBFC4060B67A85375),
  (0x3FEFB046A930947A, 0xBFC1D06C968D9E19),
  (0x3FEFC2F025A23E8B, 0xBFBF32D44C4F62D3),
  (0x3FEFD31F94F867C6, 0xBFBAC2609B3C576C),
  (0x3FEFE0D3B41815A2, 0xBFB64FD6B8C28102),
  (0x3FEFEC0B7170FFF6, 0xBFB1DB8F6D6A5128),
  (0x3FEFF4C5ED12E61D, 0xBFAACBC748EFC90E),
  (0x3FEFFB0278BF0567, 0xBFA1DE58C9F7DC27),
  (0x3FEFFEC097F5AF8A, 0xBF91DF0B2B89DD1E)]

/-- Rows t = 90 to 99 of the table, each (c_t, s_t). -/
def referenceTrigRows9 : List (F64 × F64) := [
  (0x3FF0000000000000, 0x0000000000000000),
  (0x3FEFFEC097F5AF8A, 0x3F91DF0B2B89DD1E),
  (0x3FEFFB0278BF0567, 0x3FA1DE58C9F7DC27),
  (0x3FEFF4C5ED12E61D, 0x3FAACBC748EFC90E),
  (0x3FEFEC0B7170FFF6, 0x3FB1DB8F6D6A5128),
  (0x3FEFE0D3B41815A2, 0x3FB64FD6B8C28102),
  (0x3FEFD31F94F867C6, 0x3FBAC2609B3C576C),
  (0x3FEFC2F025A23E8B, 0x3FBF32D44C4F62D3),
  (0x3FEFB046A930947A, 0x3FC1D06C968D9E19),
  (0x3FEF9B24942FE45C, 0x3FC4060B67A85375)]

/-- Rows t = 100 to 109 of the table, each (c_t, s_t). -/
def referenceTrigRows10 : List (F64 × F64) := [
  (0x3FEF838B8C811C17, 0x3FC63A1A7E0B7389),
  (0x3FEF697D6938B6C2, 0x3FC86C6DDD76624F),
  (0x3FEF4CFC327A0080, 0x3FCA9CD9AC4258F6),
  (0x3FEF2E0A214E870F, 0x3FCCCB3236CDC675),
  (0x3FEF0CA99F79BA25, 0x3FCEF74BF2E4B91D),
  (0x3FEEE8DD4748BF15, 0x3FD0907DC1930690),
  (0x3FEEC2A7E35E7B80, 0x3FD1A40ADD328E29),
  (0x3FEE9A0C6E7BDB1F, 0x3FD2B637CF83D5C8),
  (0x3FEE6F0E134454FF, 0x3FD3C6EF372FE94F),
  (0x3FEE41B02BFEB4CB, 0x3FD4D61BD000CDDC)]

/-- Rows t = 110 to 119 of the table, each (c_t, s_t). -/
def referenceTrigRows11 : List (F64 × F64) := [
  (0x3FEE11F642522D1C, 0x3FD5E3A8748A0BF5),
  (0x3FEDDFE40EFFB805, 0x3FD6EF801FCED33C),
  (0x3FEDAB7D7997CB58, 0x3FD7F98DEEE59681),
  (0x3FED74C6982C666F, 0x3FD901BD2298FFAB),
  (0x3FED3BC3AEFF7F95, 0x3FDA07F921061AD1),
  (0x3FED0079302DD767, 0x3FDB0C2D77379853),
  (0x3FECC2EBBB5638CA, 0x3FDC0E45DABE05C8),
  (0x3FEC83201D3D2C6D, 0x3FDD0E2E2B44DE00),
  (0x3FEC411B4F6D2708, 0x3FDE0BD274245079),
  (0x3FEBFCE277D339C6, 0x3FDF071EEDEFA0ED)]

/-- Rows t = 120 to 129 of the table, each (c_t, s_t). -/
def referenceTrigRows12 : List (F64 × F64) := [
  (0x3FEBB67AE8584CAB, 0x3FDFFFFFFFFFFFFF),
  (0x3FEB6DEA1E76EADE, 0x3FE07B3120FDDF13),
  (0x3FEB2335C2CDA945, 0x3FE0F5193EACDD2A),
  (0x3FEAD663A8AE2FDC, 0x3FE16DAED770771D),
  (0x3FEA8779CDA8EEA4, 0x3FE1E4E88411FD13),
  (0x3FEA367E59158747, 0x3FE25ABCF87C4978),
  (0x3FE9E3779B97F4A8, 0x3FE2CF2304755A5E),
  (0x3FE98E6C0EA27A14, 0x3FE342119455BEB6),
  (0x3FE9376253F463D1, 0x3FE3B37FB1BDC939),
  (0x3FE8DE613515A328, 0x3FE4236484487ABD)]

/-- Rows t = 130 to 139 of the table, each (c_t, s_t). -/
def referenceTrigRows13 : List (F64 × F64) := [
  (0x3FE8836FA2CF5039, 0x3FE491B7523C161C),
  (0x3FE82694B4A11C37, 0x3FE4FE6F81384FD4),
  (0x3FE7C7D7A833BEC2, 0x3FE5698496E20BD8),
  (0x3FE7673FE0C86982, 0x3FE5D2EE398C9C2B),
  (0x3FE704D4E6A54D39, 0x3FE63AA430E07310),
  (0x3FE6A09E667F3BCD, 0x3FE6A09E667F3BCC),
  (0x3FE63AA430E07310, 0x3FE704D4E6A54D38),
  (0x3FE5D2EE398C9C2B, 0x3FE7673FE0C86982),
  (0x3FE5698496E20BD8, 0x3FE7C7D7A833BEC2),
  (0x3FE4FE6F81384FD4, 0x3FE82694B4A11C37)]

/-- Rows t = 140 to 149 of the table, each (c_t, s_t). -/
def referenceTrigRows14 : List (F64 × F64) := [
  (0x3FE491B7523C161D, 0x3FE8836FA2CF5039),
  (0x3FE4236484487ABE, 0x3FE8DE613515A328),
  (0x3FE3B37FB1BDC939, 0x3FE9376253F463D2),
  (0x3FE342119455BEB7, 0x3FE98E6C0EA27A14),
  (0x3FE2CF2304755A5E, 0x3FE9E3779B97F4A8),
  (0x3FE25ABCF87C4979, 0x3FEA367E59158747),
  (0x3FE1E4E88411FD12, 0x3FEA8779CDA8EEA5),
  (0x3FE16DAED770771D, 0x3FEAD663A8AE2FDC),
  (0x3FE0F5193EACDD2A, 0x3FEB2335C2CDA945),
  (0x3FE07B3120FDDF13, 0x3FEB6DEA1E76EADE)]

/-- Rows t = 150 to 159 of the table, each (c_t, s_t). -/
def referenceTrigRows15 : List (F64 × F64) := [
  (0x3FE0000000000001, 0x3FEBB67AE8584CAA),
  (0x3FDF071EEDEFA0EE, 0x3FEBFCE277D339C6),
  (0x3FDE0BD27424507A, 0x3FEC411B4F6D2707),
  (0x3FDD0E2E2B44DE01, 0x3FEC83201D3D2C6C),
  (0x3FDC0E45DABE05C9, 0x3FECC2EBBB5638CA),
  (0x3FDB0C2D77379853, 0x3FED0079302DD767),
  (0x3FDA07F921061AD1, 0x3FED3BC3AEFF7F95),
  (0x3FD901BD2298FFAA, 0x3FED74C6982C666F),
  (0x3FD7F98DEEE59680, 0x3FEDAB7D7997CB58),
  (0x3FD6EF801FCED33E, 0x3FEDDFE40EFFB805)]

/-- Rows t = 160 to 169 of the table, each (c_t, s_t). -/
def referenceTrigRows16 : List (F64 × F64) := [
  (0x3FD5E3A8748A0BF7, 0x3FEE11F642522D1B),
  (0x3FD4D61BD000CDDD, 0x3FEE41B02BFEB4CA),
  (0x3FD3C6EF372FE950, 0x3FEE6F0E134454FF),
  (0x3FD2B637CF83D5C8, 0x3FEE9A0C6E7BDB1F),
  (0x3FD1A40ADD328E29, 0x3FEEC2A7E35E7B80),
  (0x3FD0907DC1930690, 0x3FEEE8DD4748BF15),
  (0x3FCEF74BF2E4B91B, 0x3FEF0CA99F79BA25),
  (0x3FCCCB3236CDC672, 0x3FEF2E0A214E870F),
  (0x3FCA9CD9AC4258FA, 0x3FEF4CFC327A007F),
  (0x3FC86C6DDD766253, 0x3FEF697D6938B6C2)]

/-- Rows t = 170 to 179 of the table, each (c_t, s_t). -/
def referenceTrigRows17 : List (F64 × F64) := [
  (0x3FC63A1A7E0B738C, 0x3FEF838B8C811C17),
  (0x3FC4060B67A85377, 0x3FEF9B24942FE45C),
  (0x3FC1D06C968D9E1A, 0x3FEFB046A930947A),
  (0x3FBF32D44C4F62D4, 0x3FEFC2F025A23E8B),
  (0x3FBAC2609B3C576B, 0x3FEFD31F94F867C6),
  (0x3FB64FD6B8C28100, 0x3FEFE0D3B41815A2),
  (0x3FB1DB8F6D6A5123, 0x3FEFEC0B7170FFF6),
  (0x3FAACBC748EFC921, 0x3FEFF4C5ED12E61D),
  (0x3FA1DE58C9F7DC37, 0x3FEFFB0278BF0567),
  (0x3F91DF0B2B89DD37, 0x3FEFFEC097F5AF8A)]

/-- The whole reference table of 47_hough.md R363, in order of t. -/
def referenceTrig : List (F64 × F64) :=
  referenceTrigRows0 ++ referenceTrigRows1 ++ referenceTrigRows2 ++ referenceTrigRows3 ++ referenceTrigRows4 ++ referenceTrigRows5 ++
  referenceTrigRows6 ++ referenceTrigRows7 ++ referenceTrigRows8 ++ referenceTrigRows9 ++ referenceTrigRows10 ++ referenceTrigRows11 ++
  referenceTrigRows12 ++ referenceTrigRows13 ++ referenceTrigRows14 ++ referenceTrigRows15 ++ referenceTrigRows16 ++ referenceTrigRows17

end Sys2Proof.Machine
end

