-- ==== Sys2Proof/Config.lean ====
section
/-! DEFINITION. What an implementation fixes and the spec leaves OPEN (00_scope.md section 5), and the free
bytes of the model. Each is an uninterpreted constant: nothing is known of it but the properties the spec
requires, which its type carries. The value given to a structure's field below only shows that the
requirements can be met. -/

namespace Sys2Proof

open Sys2Proof.Machine

/-! ## EXP (00_scope.md R30) -/

/-- The properties 00_scope.md R30 requires of EXP. -/
structure ExpAdmissible (f : F64 → F64) : Prop where
  atPosZero : f posZero = fOne
  atNegZero : f negZero = fOne
  atNegInf : f negInf = posZero
  atPosInf : f posInf = posInf
  nan : ∀ v, isNaN v = true → isNaN (f v) = true
  nonneg : ∀ v, isNaN v = false → fge (f v) posZero = true
  mono : ∀ u v, fge v u = true → fge (f v) (f u) = true

/-- An admissible EXP, to show that there is one: 0 below zero, 1 at zero, infinite above. -/
def stepExp (v : F64) : F64 :=
  if isNaN v then canonNaN else if isZero v then fOne else if fsign v then posZero else posInf

/-! ## ATAN2 (00_scope.md R31) -/

/-- The properties 00_scope.md R31 requires of ATAN2, written ATAN2(y, x). -/
structure Atan2Admissible (f : F64 → F64 → F64) : Prop where
  range : ∀ y x, isNaN y = false → isNaN x = false → fge (f y x) negPi64 = true ∧ fge pi64 (f y x) = true
  posPos : f posZero posZero = posZero
  negPos : f negZero posZero = negZero
  posNeg : f posZero negZero = pi64
  negNeg : f negZero negZero = negPi64
  posRight : ∀ x, fgt x posZero = true → f posZero x = posZero
  negRight : ∀ x, fgt x posZero = true → f negZero x = negZero
  upPos : ∀ y, fgt y posZero = true → f y posZero = halfPi64
  upNeg : ∀ y, fgt y posZero = true → f y negZero = halfPi64
  nanLeft : ∀ y x, isNaN y = true → isNaN (f y x) = true
  nanRight : ∀ y x, isNaN x = true → isNaN (f y x) = true

/-- An admissible ATAN2, to show that there is one: a multiple of π/2 with the sign of y. -/
def stepAtan2 (y x : F64) : F64 :=
  if isNaN y || isNaN x then canonNaN
  else if isZero y then (if fsign x then (if fsign y then negPi64 else pi64) else y)
  else if fsign y then negPi64 else halfPi64

/-! ## HOUGH_TRIG (00_scope.md R32) -/

/-- One pair (c, s) of HOUGH_TRIG: |c| ≤ 1, |s| ≤ 1 and c² + s² ≤ 1 + 2^-40, exactly. -/
def trigPairOk (p : F64 × F64) : Bool :=
  isFinite p.1 && isFinite p.2 && decide (fixedMag p.1 ≤ fixedOne) && decide (fixedMag p.2 ≤ fixedOne) &&
    decide ((fixedMag p.1 ^ 2 + fixedMag p.2 ^ 2) * 2 ^ 40 ≤ fixedOne ^ 2 * (2 ^ 40 + 1))

/-- The properties 00_scope.md R32 requires of HOUGH_TRIG: 180 pairs, (1, +0) at t = 90. -/
def trigAdmissible (t : List (F64 × F64)) : Bool :=
  decide (t.length = 180) && decide (t[90]? = some (fOne, posZero)) && t.all trigPairOk

/-! ## The requirements can be met -/

theorem isNaN_canonNaN : isNaN canonNaN = true := by decide +kernel

theorem isNaN_posZero : isNaN posZero = false := by decide +kernel

theorem isNaN_negZero : isNaN negZero = false := by decide +kernel

theorem stepExp_admissible : ExpAdmissible stepExp where
  atPosZero := by decide +kernel
  atNegZero := by decide +kernel
  atNegInf := by decide +kernel
  atPosInf := by decide +kernel
  nan v h := by simp [stepExp, h, isNaN_canonNaN]
  nonneg v h := by
    simp only [stepExp, h]
    split_ifs <;> first | contradiction | decide +kernel
  mono u v h := by
    simp only [fge, Bool.and_eq_true, Bool.not_eq_true', decide_eq_true_eq] at h
    obtain ⟨⟨hv, hu⟩, hk⟩ := h
    simp only [stepExp, hv, hu]
    split_ifs <;> first
      | contradiction
      | decide +kernel
      | (exfalso; simp_all [isZero, orderKey]; done)
      | (exfalso; simp_all [isZero, orderKey]; omega)

/-- A value above +0 has the sign bit clear and is no zero. -/
theorem positive_of_fgt_posZero {v : F64} (h : fgt v posZero = true) :
    isNaN v = false ∧ isZero v = false ∧ fsign v = false := by
  simp only [fgt, Bool.and_eq_true, Bool.not_eq_true', decide_eq_true_eq] at h
  obtain ⟨⟨hv, -⟩, hk⟩ := h
  have h0 : orderKey posZero = 0 := by decide +kernel
  rw [h0] at hk
  refine ⟨hv, ?_, ?_⟩
  · cases hz : isZero v
    · rfl
    · simp [isZero] at hz; simp [orderKey, hz] at hk
  · cases hs : fsign v
    · rfl
    · simp [orderKey, hs] at hk; omega

theorem stepAtan2_admissible : Atan2Admissible stepAtan2 where
  range y x hy hx := by
    simp only [stepAtan2, hy, hx]
    split_ifs with h1 h2 h3 h4 h5 <;> first
      | contradiction
      | decide +kernel
      | skip
    have hm : fmag y = 0 := by simpa [isZero] using h2
    have : orderKey y = 0 := by simp [orderKey, hm]
    constructor <;> simp only [fge, hy, this] <;> decide +kernel
  posPos := by decide +kernel
  negPos := by decide +kernel
  posNeg := by decide +kernel
  negNeg := by decide +kernel
  posRight x h := by
    obtain ⟨hx, -, hs⟩ := positive_of_fgt_posZero h
    simp only [stepAtan2, hx, hs]
    decide +kernel
  negRight x h := by
    obtain ⟨hx, -, hs⟩ := positive_of_fgt_posZero h
    simp only [stepAtan2, hx, hs]
    decide +kernel
  upPos y h := by
    obtain ⟨hx, hz, hs⟩ := positive_of_fgt_posZero h
    simp [stepAtan2, hx, hz, hs, isNaN_posZero]
  upNeg y h := by
    obtain ⟨hx, hz, hs⟩ := positive_of_fgt_posZero h
    simp [stepAtan2, hx, hz, hs, isNaN_negZero]
  nanLeft y x h := by simp [stepAtan2, h, isNaN_canonNaN]
  nanRight y x h := by simp [stepAtan2, h, isNaN_canonNaN]

theorem referenceTrig_admissible : trigAdmissible referenceTrig = true := by decide +kernel

/-! ## The uninterpreted constants -/

/-- A function that may stand for EXP. -/
structure ExpFunction where
  fn : { f : F64 → F64 // ExpAdmissible f } := ⟨stepExp, stepExp_admissible⟩
  deriving Inhabited

/-- A function that may stand for ATAN2. -/
structure Atan2Function where
  fn : { f : F64 → F64 → F64 // Atan2Admissible f } := ⟨stepAtan2, stepAtan2_admissible⟩
  deriving Inhabited

/-- A table that may stand for HOUGH_TRIG. -/
structure TrigTable where
  rows : { t : List (F64 × F64) // trigAdmissible t = true } := ⟨referenceTrig, referenceTrig_admissible⟩
  deriving Inhabited

/-- How many bytes MEM_SIZE has beyond its lower bound of 128 (00_scope.md R12). -/
structure MemoryBeyond where
  bytes : { n : Nat // n + 128 ≤ 2 ^ 63 } := ⟨0, by decide⟩
  deriving Inhabited

/-- The block's EXP (00_scope.md R30): OPEN. -/
opaque Config.expFunction : ExpFunction

/-- The block's ATAN2 (00_scope.md R31): OPEN. -/
opaque Config.atan2Function : Atan2Function

/-- The block's HOUGH_TRIG (00_scope.md R32): OPEN. -/
opaque Config.trigTable : TrigTable

/-- MEM_SIZE less 128 (00_scope.md R12): OPEN. -/
opaque Config.memoryBeyond : MemoryBeyond

/-- MMIO_BASE divided by 0x100 (00_scope.md R13): OPEN. -/
opaque Config.mmioPage : Nat

/-- The free bytes, which nothing constrains: the n-th one a run draws (20_memory.md R122, 70_reset_and_hazards.md R602). -/
opaque Config.freeByte : Nat → Byte

/-- EXP (00_scope.md R30). -/
def Config.exp (v : F64) : F64 := Config.expFunction.fn.1 v

/-- ATAN2(y, x) (00_scope.md R31). -/
def Config.atan2 (y x : F64) : F64 := Config.atan2Function.fn.1 y x

/-- HOUGH_TRIG (00_scope.md R32). -/
def Config.houghTrig : List (F64 × F64) := Config.trigTable.rows.1

/-- MEM_SIZE (00_scope.md R12). -/
def Config.memSize : Nat := Config.memoryBeyond.bytes.1 + 128

/-- MMIO_BASE (00_scope.md R13). -/
def Config.mmioBase : Nat := Config.mmioPage * 0x100

/-- The block's EXP has the properties of 00_scope.md R30. -/
theorem Config.exp_admissible : ExpAdmissible Config.exp := Config.expFunction.fn.2

/-- The block's ATAN2 has the properties of 00_scope.md R31. -/
theorem Config.atan2_admissible : Atan2Admissible Config.atan2 := Config.atan2Function.fn.2

/-- The block's HOUGH_TRIG has the properties of 00_scope.md R32. -/
theorem Config.houghTrig_admissible : trigAdmissible Config.houghTrig = true := Config.trigTable.rows.2

/-- MEM_SIZE lies between 128 and 2^63 (00_scope.md R12). -/
theorem Config.memSize_bounds : 128 ≤ Config.memSize ∧ Config.memSize ≤ 2 ^ 63 :=
  ⟨Nat.le_add_left _ _, Config.memoryBeyond.bytes.2⟩

end Sys2Proof
end

