-- ==== Sys2Proof/Machine/State.lean ====
section
/-! DEFINITION. The state of the machine, as plain data: the registers of 10_state.md R50 to R71, the shared
memory (20_memory.md R100), the wired parameters of the block, and the model's own record of what the HOST
and the platform do next. -/

namespace Sys2Proof.Machine

/-- The shared memory (20_memory.md R100): the listed bytes, addresses strictly rising, none equal to what an
unlisted address reads as. Laws/Memory.lean proves that every operation keeps this form. -/
abbrev Memory := List Host.Cell

/-- The OPEN parameters of the block that are plain data (00_scope.md section 5). They are wired: no agent
writes them. They stand in the state so that a run can be evaluated for any legal value of them; every
statement about all states is a statement about all their values. Log 1. -/
structure Straps where
  /-- MEM_SIZE (00_scope.md R12) -/
  memSize : Nat
  /-- MMIO_BASE (00_scope.md R13) -/
  mmioBase : Nat
  /-- HOUGH_TRIG, the pairs (c_t, s_t) in order of t (00_scope.md R32) -/
  trig : List (F64 × F64)
  deriving DecidableEq, Repr

/-- One move of an agent (00_scope.md R10, 70_reset_and_hazards.md R621). -/
inductive Move where
  /-- the ENGINE takes its turn: one command step while BUSY = 1, nothing while BUSY = 0 -/
  | engine
  /-- a HOST read of `width` bytes at the host address `addr`, meant for the register window -/
  | regRead (addr width : Nat)
  /-- a HOST write of `width` bytes at the host address `addr`, meant for the register window -/
  | regWrite (addr width : Nat) (data : Reg)
  /-- a HOST read of the byte of memory at engine address `addr` -/
  | memRead (addr : Nat)
  /-- a HOST write of the byte of memory at engine address `addr` -/
  | memWrite (addr : Nat) (value : Byte)
  /-- the platform's reset input (70_reset_and_hazards.md R600) -/
  | reset
  deriving DecidableEq, Repr

/-- The state of the machine. -/
structure State where
  /-- STATUS.BUSY, the run state RUN (10_state.md R55, R56) -/
  busy : Bool
  /-- STATUS.DONE (10_state.md R55) -/
  done : Bool
  /-- STATUS.ERR (10_state.md R55) -/
  err : Bool
  /-- IER.DONE_IE (10_state.md R57) -/
  doneIE : Bool
  /-- IER.ERR_IE (10_state.md R57) -/
  errIE : Bool
  /-- ERR_CODE.CODE (10_state.md R59) -/
  errCode : BitVec 8
  /-- ERR_ADDR (10_state.md R62) -/
  errAddr : Word
  /-- ERR_INFO.WORD (10_state.md R62) -/
  errInfo : BitVec 4
  /-- CMD_PTR (10_state.md R61) -/
  cmdPtr : Word
  /-- CMD_COUNT (10_state.md R64) -/
  cmdCount : Reg
  /-- the memory shared with the HOST (20_memory.md R100) -/
  mem : Memory
  /-- the wired parameters (log 1) -/
  straps : Straps
  /-- the commands of the running list completed since START, oldest first: the model's own record, which
  the rules on HOST accesses to a running list need (20_memory.md R121, R122; log 9) -/
  ran : List Instr
  /-- the moves still to come, oldest first: the model's own (70_reset_and_hazards.md R621; log 4) -/
  moves : List Move
  /-- the bytes the last HOST read returned, lowest address first: the model's own (log 12) -/
  reply : List Byte
  /-- how many free bytes have been drawn: the model's own (log 6) -/
  draws : Nat
  deriving DecidableEq, Repr

/-- Why the machine stops with a fault. -/
inductive Fault where
  /-- A HOST memory move names an address at or above MEM_SIZE, which the memory does not have
  (20_memory.md R100). Raised by the moves memRead and memWrite only, never by a command. SAFE: the platform
  may have something there, and the model says nothing about it. -/
  | hostAddressOutsideMemory (addr : Nat)
  deriving DecidableEq, Repr

/-- Why the machine refuses a step. -/
inductive Refusal where
  /-- An instruction without a meaning. Raised by no arm of `exec`: every instruction has its meaning.
  SAFE. -/
  | notModelled (mnemonic : String)
  /-- A HOST memory write, while BUSY = 1, to a byte that the running list reads or writes or fetches: a move
  the model does not offer (20_memory.md R121, 70_reset_and_hazards.md R612(a), U14 of
  93_implementation_defined.md). Raised by the move memWrite only. UNSAFE: what a HOST that breaks its duty
  does to a running list is not in the model. -/
  | hostDutyBroken (addr : Nat)
  deriving DecidableEq, Repr

/-- The machine right after reset (10_state.md R71, 70_reset_and_hazards.md R600), at power-up. The straps
are the uninterpreted constants of Config (log 1), the memory's contents are the model's choice (log 3), and
the model's own fields are empty (logs 4, 6, 9, 12). -/
def State.reset : State where
  busy := false
  done := false
  err := false
  doneIE := false
  errIE := false
  errCode := 0x00
  errAddr := 0
  errInfo := 0
  cmdPtr := 0
  cmdCount := 0
  mem := []
  straps := { memSize := Config.memSize, mmioBase := Config.mmioBase, trig := Config.houghTrig }
  ran := []
  moves := []
  reply := []
  draws := 0

end Sys2Proof.Machine
end

