-- ==== Sys2Proof/Machine/Ops.lean ====
section
/-! DEFINITION. The shared operations: reading and writing memory (20_memory.md R100 to R104), the error
entry (60_exceptions.md R510) with START, the return from it (10_state.md R60, 60_exceptions.md R515), the
completion of a command (40_control.md R203), the end of a list (40_control.md R204) and drawing free bytes. -/

namespace Sys2Proof.Machine

/-! ## Memory -/

/-- What an address reads as that the memory does not list: the power-up contents (log 3). -/
def unlisted : Byte := 0x00

/-- The canonical form of the memory: addresses strictly rising, no entry equal to what an unlisted address
reads as. -/
abbrev Memory.wf (m : Memory) : Prop :=
  m.Pairwise (fun c d => c.1 < d.1) ∧ ∀ c ∈ m, c.2 ≠ unlisted

/-- The byte at an address (20_memory.md R103). -/
def Memory.read : Memory → Nat → Byte
  | [], _ => unlisted
  | c :: m, a => if c.1 = a then c.2 else Memory.read m a

/-- The memory with one byte written (20_memory.md R103), in canonical form. -/
def Memory.write : Memory → Nat → Byte → Memory
  | [], a, v => if v = unlisted then [] else [(a, v)]
  | c :: m, a, v =>
    if a < c.1 then (if v = unlisted then c :: m else (a, v) :: c :: m)
    else if a = c.1 then (if v = unlisted then m else (a, v) :: m)
    else c :: Memory.write m a v

/-- `MemRead(a, n)` of 20_memory.md R104: n bytes assembled little-endian. -/
def Memory.readLE (m : Memory) : Nat → Nat → Nat
  | _, 0 => 0
  | a, n + 1 => (m.read a).toNat + 256 * m.readLE (a + 1) n

/-- The bytes that `MemWrite(a, n, v)` of 20_memory.md R104 stores, with their addresses. -/
def cellsLE : Nat → Nat → Nat → List Host.Cell
  | _, 0, _ => []
  | a, n + 1, v => (a, BitVec.ofNat 8 v) :: cellsLE (a + 1) n (v / 256)

/-- The memory with every listed byte written. A command writes no address twice, so the order is not
observable (20_memory.md R119); were an address listed twice, its first entry would be the one read. Log 15. -/
def Memory.writeCells (m : Memory) (cells : List Host.Cell) : Memory :=
  cells.foldr (fun c m' => m'.write c.1 c.2) m

/-! ## Error entry, completion, START, END -/

/-- The error codes of 60_exceptions.md R500. -/
inductive ErrorCode where
  | opcode
  | reserved
  | invalidKernel
  | invalidParameter
  | shapeMismatch
  | layout
  | range
  | overlap
  deriving DecidableEq, Repr

/-- The number ERR_CODE.CODE holds for an error (60_exceptions.md R500). -/
def ErrorCode.number : ErrorCode → BitVec 8
  | .opcode => 0x01
  | .reserved => 0x02
  | .invalidKernel => 0x03
  | .invalidParameter => 0x04
  | .shapeMismatch => 0x05
  | .layout => 0x06
  | .range => 0x07
  | .overlap => 0x08

/-- `E(info, addr)`: an error with the word index and the address it records (60_exceptions.md R510, R511). -/
structure BlockError where
  code : ErrorCode
  info : Nat
  addr : Nat
  deriving DecidableEq, Repr

/-- ERROR ENTRY (60_exceptions.md R510): the report registers are written, ERR is set, the list ends.
CMD_PTR keeps the failing descriptor's address; CMD_COUNT and memory are unchanged. -/
def State.raise (s : State) (e : BlockError) : State :=
  { s with
    errCode := e.code.number
    errInfo := BitVec.ofNat 4 e.info
    errAddr := BitVec.ofNat 64 e.addr
    err := true
    busy := false
    ran := [] }

/-- START (10_state.md R60), which is also the only return from an error (60_exceptions.md R515): the flags,
the report registers and CMD_COUNT are cleared and the list at CMD_PTR runs; CMD_PTR and IER are unchanged. -/
def State.start (s : State) : State :=
  { s with
    done := false
    err := false
    errCode := 0x00
    errAddr := 0
    errInfo := 0
    cmdCount := 0
    busy := true
    ran := [] }

/-- `end_list()` of 40_control.md R204: BUSY falls, DONE is set; CMD_PTR and CMD_COUNT are unchanged. -/
def State.finish (s : State) : State :=
  { s with busy := false, done := true, ran := [] }

/-- The completion of a command other than END (40_control.md R203): its outputs are written, CMD_PTR moves
to the next slot, CMD_COUNT counts it, BUSY stays. -/
def State.complete (s : State) (i : Instr) (m : Memory) : State :=
  { s with
    mem := m
    cmdPtr := s.cmdPtr + 128
    cmdCount := s.cmdCount + 1
    ran := s.ran ++ [i] }

/-- The registers at their reset values (10_state.md R71, 70_reset_and_hazards.md R600); memory, the straps,
the moves still to come and the count of free bytes are not registers of the block. -/
def State.resetRegisters (s : State) : State :=
  { s with
    busy := false
    done := false
    err := false
    doneIE := false
    errIE := false
    errCode := 0x00
    errAddr := 0
    errInfo := 0
    cmdPtr := 0
    cmdCount := 0
    ran := []
    reply := [] }

/-- The machine at power-up with whatever the memory holds then: the registers at their reset values, the
contents `m` the platform's (70_reset_and_hazards.md R601, U6). `State.reset` is the case of an unlisted memory
(log 3). -/
def State.powerUp (m : Memory) : State := { State.reset with mem := m }

/-! ## Free bytes -/

/-- The listed addresses, each with a free byte: the n-th is the free byte number `d + n` (log 6). -/
def freeCells : Nat → List Nat → List Host.Cell
  | _, [] => []
  | d, a :: as => (a, Config.freeByte d) :: freeCells (d + 1) as

end Sys2Proof.Machine
end

