-- ==== Sys2Proof/Machine/Operands.lean ====
section
/-! DEFINITION. Operands: the elements of a grid and their addresses (00_scope.md R18, R20, 20_memory.md
R104 to R109), the operand table of 30_encoding.md R170, the scratch grids of CANNY (48_canny.md R392), the
spans of 20_memory.md R114 and the bytes a command writes (R115). -/

namespace Sys2Proof.Machine

/-! ## Elements -/

/-- The indices (y, x) of an h by w grid, row by row. -/
def pixels (h w : Nat) : List (Nat × Nat) :=
  (List.range h).flatMap fun y => (List.range w).map fun x => (y, x)

/-- The byte address of element (y, x) (00_scope.md R18); `es` is the element size of the operand's type. -/
def elemAddr (g : Grid) (es y x : Nat) : Nat := g.base + y * g.stride + x * es

/-- `rdF` of 00_scope.md R20: an F64 element (20_memory.md R106). -/
def rdF (m : Memory) (g : Grid) (y x : Nat) : F64 := BitVec.ofNat 64 (m.readLE (elemAddr g 8 y x) 8)

/-- `rdM` of 00_scope.md R20: a MASK8 element, true when nonzero (20_memory.md R107). -/
def rdM (m : Memory) (g : Grid) (y x : Nat) : Bool := decide (m.read (elemAddr g 1 y x) ≠ 0)

/-- A U32 element (20_memory.md R108). -/
def rdU32 (m : Memory) (g : Grid) (y x : Nat) : Nat := m.readLE (elemAddr g 4 y x) 4

/-- The bytes that writing `f y x` to every element (y, x) of a grid stores. -/
def gridCells (g : Grid) (es : Nat) (f : Nat → Nat → Nat) : List Host.Cell :=
  (pixels g.h g.w).flatMap fun p => cellsLE (elemAddr g es p.1 p.2) es (f p.1 p.2)

/-- `wrF` and `wrFbits` of 00_scope.md R20 over a whole grid; the value is written as it is. -/
def cellsF (g : Grid) (f : Nat → Nat → F64) : List Host.Cell := gridCells g 8 fun y x => (f y x).toNat

/-- `wrM` of 00_scope.md R20 over a whole grid: 0x01 for true, 0x00 for false. -/
def cellsM (g : Grid) (f : Nat → Nat → Bool) : List Host.Cell := gridCells g 1 fun y x => (f y x).toNat

/-- `wrU32` of 00_scope.md R20 over a whole grid. -/
def cellsU32 (g : Grid) (f : Nat → Nat → Nat) : List Host.Cell := gridCells g 4 f

/-! ## Parameters of CANNY (48_canny.md R390, R395) -/

/-- 1.4, the default SIGMA. -/
def defaultSigma : F64 := 0x3FF6666666666666

/-- 20.0, the default HIGH. -/
def defaultHigh : F64 := 0x4034000000000000

/-- 15.0, the default LOW. -/
def defaultLow : F64 := 0x402E000000000000

/-- SIZE in effect. -/
def cannySize : CannyParams → Int
  | .defaults => 5
  | .given size _ _ _ => size

/-- SIGMA in effect. -/
def cannySigma : CannyParams → F64
  | .defaults => defaultSigma
  | .given _ sigma _ _ => sigma

/-- HIGH in effect. -/
def cannyHigh : CannyParams → F64
  | .defaults => defaultHigh
  | .given _ _ high _ => high

/-- LOW in effect. -/
def cannyLow : CannyParams → F64
  | .defaults => defaultLow
  | .given _ _ _ low => low

/-! ## The scratch region of CANNY (48_canny.md R392) -/

/-- A grid without padding between its rows. -/
def denseGrid (base h w es : Nat) : Grid := { base := base, h := h, w := w, stride := w * es }

/-- Kg, the Gaussian kernel. -/
def scratchKg (s n : Nat) : Grid := denseGrid s n n 8

/-- SM, the smoothed image. -/
def scratchSm (s n h w : Nat) : Grid := denseGrid (s + 8 * n ^ 2) h w 8

/-- MG, the gradient magnitude. -/
def scratchMg (s n h w : Nat) : Grid := denseGrid (s + 8 * n ^ 2 + 8 * (h * w)) h w 8

/-- DR, the gradient direction. -/
def scratchDr (s n h w : Nat) : Grid := denseGrid (s + 8 * n ^ 2 + 16 * (h * w)) h w 8

/-- NM, the suppressed magnitude. -/
def scratchNm (s n h w : Nat) : Grid := denseGrid (s + 8 * n ^ 2 + 24 * (h * w)) h w 8

/-- ST, the strong mask. -/
def scratchSt (s n h w : Nat) : Grid := denseGrid (s + 8 * n ^ 2 + 32 * (h * w)) h w 1

/-- WK, the weak mask. -/
def scratchWk (s n h w : Nat) : Grid := denseGrid (s + 8 * n ^ 2 + 33 * (h * w)) h w 1

/-- The number of bytes of the scratch region. -/
def scratchBytes (n h w : Nat) : Nat := 8 * n ^ 2 + 34 * (h * w)

/-! ## The operand table (30_encoding.md R170) -/

/-- An operand is read or written. -/
inductive Role where
  | input
  | output
  deriving DecidableEq, Repr

/-- A grid operand: the index of its first word (30_encoding.md R171), its grid, its element size, its role. -/
structure Operand where
  word : Nat
  grid : Grid
  es : Nat
  role : Role
  deriving DecidableEq, Repr

/-- The grid operands of a command in word order, with the element sizes of their types. -/
def operandsOf : Instr → List Operand
  | .endList => []
  | .conv _ _ img ker out => [⟨1, img, 8, .input⟩, ⟨3, ker, 8, .input⟩, ⟨5, out, 8, .output⟩]
  | .gauss out _ _ => [⟨1, out, 8, .output⟩]
  | .grad img mag dir => [⟨1, img, 8, .input⟩, ⟨3, mag, 8, .output⟩, ⟨5, dir, 8, .output⟩]
  | .nms mag dir out => [⟨1, mag, 8, .input⟩, ⟨3, dir, 8, .input⟩, ⟨5, out, 8, .output⟩]
  | .dthr img strong weak _ _ => [⟨1, img, 8, .input⟩, ⟨3, strong, 1, .output⟩, ⟨5, weak, 1, .output⟩]
  | .link _ strong weak out => [⟨1, strong, 1, .input⟩, ⟨3, weak, 1, .input⟩, ⟨5, out, 1, .output⟩]
  | .hough _ edges acc rhos thetas =>
    [⟨1, edges, 1, .input⟩, ⟨3, acc, 4, .output⟩, ⟨5, rhos, 8, .output⟩, ⟨7, thetas, 8, .output⟩]
  | .canny _ img out _ _ => [⟨1, img, 8, .input⟩, ⟨3, out, 1, .output⟩]

/-- The span of an operand (20_memory.md R114), with the word that names it and its role. -/
structure Span where
  word : Nat
  lo : Nat
  hi : Nat
  role : Role
  deriving DecidableEq, Repr

/-- The end of a grid's span, which is half open (20_memory.md R114). -/
def gridEnd (g : Grid) (es : Nat) : Nat := g.base + (g.h - 1) * g.stride + g.w * es

/-- The span of a grid operand. -/
def operandSpan (o : Operand) : Span :=
  { word := o.word, lo := o.grid.base, hi := gridEnd o.grid o.es, role := o.role }

/-- The spans of a command that are not grids: CANNY's scratch region at word 5, an output (48_canny.md R392,
40_control.md R217). -/
def scratchSpans : Instr → List Span
  | .canny _ img _ scratch params =>
    [{ word := 5, lo := scratch, hi := scratch + scratchBytes (cannySize params).toNat img.h img.w, role := .output }]
  | _ => []

/-- The spans of a command in increasing word order. -/
def spansOf (i : Instr) : List Span := (operandsOf i).map operandSpan ++ scratchSpans i

/-- The spans a command names, validated or not: a grid without a row or a column has none (20_memory.md R114). -/
def namedSpans (i : Instr) : List Span :=
  ((operandsOf i).filter fun o => decide (0 < o.grid.h ∧ 0 < o.grid.w)).map operandSpan ++ scratchSpans i

/-! ## The bytes a command writes (20_memory.md R115) -/

/-- The addresses of every element byte of a grid. -/
def elemBytes (g : Grid) (es : Nat) : List Nat :=
  (pixels g.h g.w).flatMap fun p => List.range' (elemAddr g es p.1 p.2) es

/-- The addresses of every byte a command writes when it completes: the element bytes of its outputs and, for
CANNY, every byte of the scratch region (48_canny.md R392). -/
def writtenBytes (i : Instr) : List Nat :=
  ((operandsOf i).filter fun o => o.role = .output).flatMap (fun o => elemBytes o.grid o.es) ++
    (scratchSpans i).flatMap fun sp => List.range' sp.lo (sp.hi - sp.lo)

end Sys2Proof.Machine
end

