-- ==== Sys2Proof/Machine/Validate.lean ====
section
/-! DEFINITION. Validation, steps B to G of 40_control.md R210 (step A is decoding), and what becomes of a
command: the error entry, or its completion. -/

namespace Sys2Proof.Machine

/-! ## Step B: scalars (40_control.md R212) -/

/-- SIZE is odd and 1 to 65535. -/
def sizeOk (n : Int) : Bool := decide (1 ≤ n) && decide (n ≤ 65535) && decide (n % 2 = 1)

/-- E_INVALID_PARAMETER at a word. -/
def badParameter (word : Nat) : BlockError := { code := .invalidParameter, info := word, addr := 0 }

/-- The checks of SIZE and SIGMA, in order, at their words. -/
def checkGauss (sizeWord sigmaWord : Nat) (size : Int) (sigma : F64) : Option BlockError :=
  if !sizeOk size then some (badParameter sizeWord)
  else if !fgt sigma posZero then some (badParameter sigmaWord)
  else none

/-- The checks of HIGH and LOW, in order, at their words (45_threshold.md R323). -/
def checkThresholds (highWord lowWord : Nat) (high low : F64) : Option BlockError :=
  if !fgt high low then some (badParameter highWord)
  else if flt low posZero then some (badParameter lowWord)
  else none

/-- Step B. CANNY with its defaults makes no check. -/
def checkScalars : Instr → Option BlockError
  | .gauss _ size sigma => checkGauss 3 4 size sigma
  | .dthr _ _ _ high low => checkThresholds 7 8 high low
  | .canny _ _ _ _ (.given size sigma high low) =>
    (checkGauss 6 7 size sigma).or (checkThresholds 8 9 high low)
  | .canny _ _ _ _ .defaults => none
  | .endList => none
  | .conv .. => none
  | .grad .. => none
  | .nms .. => none
  | .link .. => none
  | .hough .. => none

/-! ## Step C: grid dimensions (40_control.md R213) -/

/-- The operand at a word is CONV's kernel K. -/
def isKernel : Instr → Nat → Bool
  | .conv .., 3 => true
  | _, _ => false

/-- A kernel has odd height and width; any other grid has neither zero. -/
def checkDim (i : Instr) (o : Operand) : Option BlockError :=
  if isKernel i o.word then
    (if o.grid.h % 2 = 0 ∨ o.grid.w % 2 = 0 then some { code := .invalidKernel, info := o.word, addr := 0 } else none)
  else if o.grid.h = 0 ∨ o.grid.w = 0 then some (badParameter o.word)
  else none

/-- Step C, in increasing word order. -/
def checkDims (i : Instr) : Option BlockError := (operandsOf i).findSome? (checkDim i)

/-! ## Step D: shapes (40_control.md R214) -/

/-- `diag_len` of 47_hough.md R361: the least D with D² ≥ W² + H², on integers. -/
def diagLen (h w : Nat) : Nat :=
  if isqrt (w ^ 2 + h ^ 2) * isqrt (w ^ 2 + h ^ 2) = w ^ 2 + h ^ 2 then isqrt (w ^ 2 + h ^ 2)
  else isqrt (w ^ 2 + h ^ 2) + 1

/-- The expected shape (H, W) of the grid at a word, where it has one. -/
def expectedShape : Instr → Nat → Option (Int × Int)
  | .conv _ _ img _ _, 5 => some (img.h, img.w)
  | .gauss _ size _, 1 => some (size, size)
  | .grad img _ _, 3 => some (img.h, img.w)
  | .grad img _ _, 5 => some (img.h, img.w)
  | .nms mag _ _, 3 => some (mag.h, mag.w)
  | .nms mag _ _, 5 => some (mag.h, mag.w)
  | .dthr img _ _ _ _, 3 => some (img.h, img.w)
  | .dthr img _ _ _ _, 5 => some (img.h, img.w)
  | .link _ strong _ _, 3 => some (strong.h, strong.w)
  | .link _ strong _ _, 5 => some (strong.h, strong.w)
  | .hough _ edges _ _ _, 3 => some (2 * (diagLen edges.h edges.w : Int) + 1, 180)
  | .hough _ edges _ _ _, 5 => some (1, 2 * (diagLen edges.h edges.w : Int) + 1)
  | .hough _ _ _ _ _, 7 => some (1, 180)
  | .canny _ img _ _ _, 3 => some (img.h, img.w)
  | _, _ => none

/-- A grid has its expected shape. -/
def checkShape (i : Instr) (o : Operand) : Option BlockError :=
  match expectedShape i o.word with
  | none => none
  | some shape =>
    if ((o.grid.h : Int), (o.grid.w : Int)) = shape then none
    else some { code := .shapeMismatch, info := o.word, addr := 0 }

/-- Step D, in increasing word order. -/
def checkShapes (i : Instr) : Option BlockError := (operandsOf i).findSome? (checkShape i)

/-! ## Step E: layout (40_control.md R215, 20_memory.md R110) -/

/-- Base and stride are multiples of the element size, and a row fits in the stride. -/
def checkOperandLayout (o : Operand) : Option BlockError :=
  if o.grid.base % o.es ≠ 0 ∨ o.grid.stride % o.es ≠ 0 ∨ o.grid.stride < o.grid.w * o.es then
    some { code := .layout, info := o.word, addr := o.grid.base }
  else none

/-- CANNY's SCRATCH is a multiple of 8. -/
def checkScratchLayout : Instr → Option BlockError
  | .canny _ _ _ scratch _ => if scratch % 8 ≠ 0 then some { code := .layout, info := 5, addr := scratch } else none
  | _ => none

/-- Step E: every grid in increasing word order, then CANNY's SCRATCH. -/
def checkLayout (i : Instr) : Option BlockError :=
  ((operandsOf i).findSome? checkOperandLayout).or (checkScratchLayout i)

/-! ## Step F: range (40_control.md R216) -/

/-- A span ends at or below MEM_SIZE. -/
def checkSpanRange (memSize : Nat) (sp : Span) : Option BlockError :=
  if memSize < sp.hi then some { code := .range, info := sp.word, addr := sp.lo } else none

/-- Step F, in increasing word order. -/
def checkRange (memSize : Nat) (i : Instr) : Option BlockError := (spansOf i).findSome? (checkSpanRange memSize)

/-! ## Step G: overlap (40_control.md R217) -/

/-- Two spans share a byte and one of them is an output. -/
def spansClash (a b : Span) : Bool :=
  (decide (a.role = .output) || decide (b.role = .output)) && decide (a.lo < b.hi) && decide (b.lo < a.hi)

/-- The first span of a list that clashes with one before it: with the earlier ones given, or in the list. -/
def checkOverlapFrom : List Span → List Span → Option BlockError
  | _, [] => none
  | earlier, sp :: rest =>
    if earlier.any fun e => spansClash e sp then some { code := .overlap, info := sp.word, addr := sp.lo }
    else checkOverlapFrom (earlier ++ [sp]) rest

/-- Step G. -/
def checkOverlap (i : Instr) : Option BlockError := checkOverlapFrom [] (spansOf i)

/-! ## The whole validation -/

/-- Steps B to G in order; the first failing check is the error (40_control.md R210, 60_exceptions.md R505). -/
def validate (i : Instr) (memSize : Nat) : Option BlockError :=
  (checkScalars i).or <| (checkDims i).or <| (checkShapes i).or <| (checkLayout i).or <|
    (checkRange memSize i).or (checkOverlap i)

/-- What becomes of a decoded command other than END (40_control.md R200, R219): it raises its first error
and writes nothing, or it completes with the memory given. -/
def State.attempt (s : State) (i : Instr) (m : Memory) : State :=
  match validate i s.straps.memSize with
  | some e => s.raise e
  | none => s.complete i m

end Sys2Proof.Machine
end

