-- ==== Sys2Proof/Machine/Gaussian.lean ====
section
/-! DEFINITION. GAUSS, the Gaussian kernel builder (42_gaussian.md R260 to R265). EXP is an argument of the
numeric definitions and the block's own in the meaning (00_scope.md R29). -/

namespace Sys2Proof.Machine

/-- σ² (42_gaussian.md R263). -/
def gaussVariance (sigma : F64) : F64 := fmul sigma sigma

/-- A, the leading factor 1 / (2π·σ²) (42_gaussian.md R263). -/
def gaussFactor (sigma : F64) : F64 := fdiv fOne (fmul twoPi (gaussVariance sigma))

/-- d, the squared distance of (i, j) from the centre of an n by n kernel (42_gaussian.md R260). -/
def gaussDistance (n i j : Nat) : Int :=
  ((i : Int) - (n / 2 : Nat)) ^ 2 + ((j : Int) - (n / 2 : Nat)) ^ 2

/-- e, the exponent -d / (2σ²) (42_gaussian.md R263). -/
def gaussExponent (sigma : F64) (d : Int) : F64 := fdiv (f64 (-d)) (fmul fTwo (gaussVariance sigma))

/-- The value GAUSS writes at (i, j), a NaN made canonical (42_gaussian.md R260, R261). -/
def gaussElem (exp : F64 → F64) (n : Nat) (sigma : F64) (i j : Nat) : F64 :=
  canonical (fmul (gaussFactor sigma) (exp (gaussExponent sigma (gaussDistance n i j))))

/-- The bytes GAUSS writes. -/
def gaussCells (exp : F64 → F64) (out : Grid) (size : Int) (sigma : F64) : List Host.Cell :=
  cellsF out (gaussElem exp size.toNat sigma)

/-- GAUSS (42_gaussian.md R260). -/
def execGauss (out : Grid) (size : Int) (sigma : F64) (s : State) : Host.Outcome State Fault Refusal :=
  .next (s.attempt (.gauss out size sigma) (s.mem.writeCells (gaussCells Config.exp out size sigma)))

end Sys2Proof.Machine
end

