-- ==== Sys2Proof/Machine/Convolution.lean ====
section
/-! DEFINITION. CONV, the 2D convolution engine (41_convolution.md R230 to R238). -/

namespace Sys2Proof.Machine

/-- `clamp(v, 0, n - 1)` of 41_convolution.md R232. -/
def clampIndex (v : Int) (n : Nat) : Nat := (min (max v 0) ((n : Int) - 1)).toNat

/-- `sample` of 41_convolution.md R232: an in-grid sample, or what the boundary policy supplies. -/
def sample (bnd : Boundary) (rd : Nat → Nat → F64) (h w : Nat) (sy sx : Int) : F64 :=
  if 0 ≤ sy ∧ sy < h ∧ 0 ≤ sx ∧ sx < w then rd sy.toNat sx.toNat
  else
    match bnd with
    | .zero => posZero
    | .edgeReplicate => rd (clampIndex sy h) (clampIndex sx w)

/-- The sample coordinate that kernel index `k` weights at output coordinate `pos`, with the kernel flipped
(41_convolution.md R231) or, for correlation, not (R235); `n` is the kernel's size on that axis. -/
def tap (corr : Bool) (pos n k : Nat) : Int :=
  if corr then (pos : Int) - (n / 2 : Nat) + k else (pos : Int) + (n / 2 : Nat) - k

/-- The accumulator after every product (41_convolution.md R233): from +0.0, kernel rows in order and columns
in order, each product and each sum rounded. A sample weighted by 1 whose other samples are finite keeps an
infinity, as the pseudocode of R230 has it, against the last words of R238(a) (DEDUCED, log 23). -/
def convSum (bnd : Boundary) (corr : Bool) (ker : Nat → Nat → F64) (kh kw : Nat) (rd : Nat → Nat → F64)
    (h w y x : Nat) : F64 :=
  (pixels kh kw).foldl
    (fun acc p => fadd acc (fmul (ker p.1 p.2) (sample bnd rd h w (tap corr y kh p.1) (tap corr x kw p.2))))
    posZero

/-- The value CONV writes at (y, x), a NaN made canonical (00_scope.md R27). -/
def convElem (bnd : Boundary) (corr : Bool) (ker : Nat → Nat → F64) (kh kw : Nat) (rd : Nat → Nat → F64)
    (h w y x : Nat) : F64 :=
  canonical (convSum bnd corr ker kh kw rd h w y x)

/-- The bytes CONV writes, from the memory it reads. -/
def convCells (bnd : Boundary) (corr : Bool) (img ker out : Grid) (m : Memory) : List Host.Cell :=
  cellsF out (convElem bnd corr (rdF m ker) ker.h ker.w (rdF m img) img.h img.w)

/-- CONV (41_convolution.md R230). -/
def execConv (bnd : Boundary) (corr : Bool) (img ker out : Grid) (s : State) : Host.Outcome State Fault Refusal :=
  .next (s.attempt (.conv bnd corr img ker out) (s.mem.writeCells (convCells bnd corr img ker out s.mem)))

end Sys2Proof.Machine
end

