-- ==== Sys2Proof/Machine/Gradient.lean ====
section
/-! DEFINITION. GRAD, the gradient magnitude and direction unit (43_gradient.md R280 to R288). ATAN2 is an
argument of the numeric definitions and the block's own in the meaning (00_scope.md R29). -/

namespace Sys2Proof.Machine

/-- KX, the horizontal derivative kernel (43_gradient.md R281). -/
def kernelX (i j : Nat) : F64 :=
  if i = 1 ∧ j = 0 then fHalf else if i = 1 ∧ j = 2 then fNegHalf else posZero

/-- KY, the vertical derivative kernel (43_gradient.md R281). -/
def kernelY (i j : Nat) : F64 :=
  if i = 0 ∧ j = 1 then fHalf else if i = 2 ∧ j = 1 then fNegHalf else posZero

/-- GX at (y, x): what CONV writes for KX under EDGE_REPLICATE (43_gradient.md R282). -/
def gradX (rd : Nat → Nat → F64) (h w y x : Nat) : F64 :=
  convElem .edgeReplicate false kernelX 3 3 rd h w y x

/-- GY at (y, x): what CONV writes for KY under EDGE_REPLICATE (43_gradient.md R282). -/
def gradY (rd : Nat → Nat → F64) (h w y x : Nat) : F64 :=
  convElem .edgeReplicate false kernelY 3 3 rd h w y x

/-- The magnitude (43_gradient.md R283). -/
def gradMag (gx gy : F64) : F64 := fsqrt (fadd (fmul gx gx) (fmul gy gy))

/-- Two values are equal as numbers; +0 equals -0, a NaN equals nothing. -/
def feq (a b : F64) : Bool := fge a b && fge b a

/-- `deg360` of 43_gradient.md R280, R284. -/
def deg360 (d : F64) : F64 :=
  if isNaN d then d
  else if flt d posZero then (if feq (fadd d c360) c360 then posZero else fadd d c360)
  else if feq d posZero then posZero
  else d

/-- The direction in degrees (43_gradient.md R284). -/
def gradDir (atan2 : F64 → F64 → F64) (gx gy : F64) : F64 := deg360 (fmul (atan2 gy gx) r2d)

/-- The bytes GRAD writes, from the memory it reads. -/
def gradCells (atan2 : F64 → F64 → F64) (img mag dir : Grid) (m : Memory) : List Host.Cell :=
  cellsF mag (fun y x =>
      canonical (gradMag (gradX (rdF m img) img.h img.w y x) (gradY (rdF m img) img.h img.w y x))) ++
    cellsF dir (fun y x =>
      canonical (gradDir atan2 (gradX (rdF m img) img.h img.w y x) (gradY (rdF m img) img.h img.w y x)))

/-- GRAD (43_gradient.md R280). -/
def execGrad (img mag dir : Grid) (s : State) : Host.Outcome State Fault Refusal :=
  .next (s.attempt (.grad img mag dir) (s.mem.writeCells (gradCells Config.atan2 img mag dir s.mem)))

end Sys2Proof.Machine
end

