-- ==== Sys2Proof/Machine/Link.lean ====
section
/-! DEFINITION. LINK, the edge linking unit (46_link.md R340 to R348). A set of pixels is the list of its
members in row order. -/

namespace Sys2Proof.Machine

/-- The offsets (dy, dx) of the eight neighbours (46_link.md R344). -/
def neighbourOffsets : List (Int × Int) :=
  [(-1, -1), (-1, 0), (-1, 1), (0, -1), (0, 1), (1, -1), (1, 0), (1, 1)]

/-- N8(p), the neighbours of a pixel that lie inside an h by w grid (46_link.md R344). -/
def neighbours8 (h w : Nat) (p : Nat × Nat) : List (Nat × Nat) :=
  neighbourOffsets.filterMap fun d =>
    if 0 ≤ (p.1 : Int) + d.1 ∧ (p.1 : Int) + d.1 < h ∧ 0 ≤ (p.2 : Int) + d.2 ∧ (p.2 : Int) + d.2 < w then
      some (((p.1 : Int) + d.1).toNat, ((p.2 : Int) + d.2).toNat)
    else none

/-- S, the set of strong pixels. -/
def linkSeeds (strong : Nat → Nat → Bool) (h w : Nat) : List (Nat × Nat) :=
  (pixels h w).filter fun p => strong p.1 p.2

/-- S ∪ (K ∩ N8(X)): the strong pixels and the weak ones with a neighbour in X (46_link.md R341, R342). -/
def linkStep (strong weak : Nat → Nat → Bool) (h w : Nat) (X : List (Nat × Nat)) : List (Nat × Nat) :=
  (pixels h w).filter fun p => strong p.1 p.2 || (weak p.1 p.2 && (neighbours8 h w p).any fun q => X.contains q)

/-- The rounds of TRANS = 1 (46_link.md R340, R342), at most `n` of them: it stops at the first round that
adds nothing. -/
def linkRounds (strong weak : Nat → Nat → Bool) (h w : Nat) : Nat → List (Nat × Nat) → List (Nat × Nat)
  | 0, X => X
  | n + 1, X =>
    if linkStep strong weak h w X = X then X else linkRounds strong weak h w n (linkStep strong weak h w X)

/-- X, the linked set: one hop from the seeds (46_link.md R341), then, with TRANS = 1, rounds until nothing is
added. There are at most H·W of them, since each adds a pixel (R342). -/
def linkSet (full : Bool) (strong weak : Nat → Nat → Bool) (h w : Nat) : List (Nat × Nat) :=
  if full then linkRounds strong weak h w (h * w) (linkStep strong weak h w (linkSeeds strong h w))
  else linkStep strong weak h w (linkSeeds strong h w)

/-- The bytes LINK writes, from the memory it reads. -/
def linkCells (full : Bool) (strong weak out : Grid) (m : Memory) : List Host.Cell :=
  cellsM out fun y x => (linkSet full (rdM m strong) (rdM m weak) strong.h strong.w).contains (y, x)

/-- LINK (46_link.md R340). -/
def execLink (full : Bool) (strong weak out : Grid) (s : State) : Host.Outcome State Fault Refusal :=
  .next (s.attempt (.link full strong weak out) (s.mem.writeCells (linkCells full strong weak out s.mem)))

end Sys2Proof.Machine
end

