-- ==== Sys2Proof/Machine/Nms.lean ====
section
/-! DEFINITION. NMS, the non-maximum suppression filter (44_nms.md R300 to R310). -/

namespace Sys2Proof.Machine

/-- q, the direction bin of a finite direction in degrees (44_nms.md R301). -/
def directionBin (th : F64) : Nat := (floorInt (fdiv (fadd th c22_5) c45) % 4).toNat

/-- The first of the two neighbours compared in a bin, as (row offset, column offset) (44_nms.md R302). -/
def neighbourA (q : Nat) : Int × Int :=
  if q = 0 then (0, -1) else if q = 1 then (-1, 1) else if q = 2 then (-1, 0) else (-1, -1)

/-- The second of the two neighbours, opposite the first (44_nms.md R302). -/
def neighbourB (q : Nat) : Int × Int :=
  if q = 0 then (0, 1) else if q = 1 then (1, -1) else if q = 2 then (1, 0) else (1, 1)

/-- `padded` of 44_nms.md R300, R304: a magnitude, or +0.0 outside the grid. -/
def padded (mag : Nat → Nat → F64) (h w : Nat) (v u : Int) : F64 :=
  if 0 ≤ v ∧ v < h ∧ 0 ≤ u ∧ u < w then mag v.toNat u.toNat else posZero

/-- The bits NMS writes at (y, x) (44_nms.md R300, R303, R305, R306): the pixel's own bits when its direction
is finite and it is not below either neighbour, else +0.0. -/
def nmsElem (mag dir : Nat → Nat → F64) (h w y x : Nat) : F64 :=
  if !isFinite (dir y x) then posZero
  else if
    fge (mag y x)
      (padded mag h w (y + (neighbourA (directionBin (dir y x))).1) (x + (neighbourA (directionBin (dir y x))).2)) &&
    fge (mag y x)
      (padded mag h w (y + (neighbourB (directionBin (dir y x))).1) (x + (neighbourB (directionBin (dir y x))).2))
  then mag y x
  else posZero

/-- The bytes NMS writes, from the memory it reads. -/
def nmsCells (mag dir out : Grid) (m : Memory) : List Host.Cell :=
  cellsF out (nmsElem (rdF m mag) (rdF m dir) mag.h mag.w)

/-- NMS (44_nms.md R300). -/
def execNms (mag dir out : Grid) (s : State) : Host.Outcome State Fault Refusal :=
  .next (s.attempt (.nms mag dir out) (s.mem.writeCells (nmsCells mag dir out s.mem)))

end Sys2Proof.Machine
end

