-- ==== Sys2Proof/Machine/Threshold.lean ====
section
/-! DEFINITION. DTHR, the double threshold comparator (45_threshold.md R320 to R326). -/

namespace Sys2Proof.Machine

/-- A pixel is strong: value ≥ HIGH (45_threshold.md R321). -/
def isStrong (high v : F64) : Bool := fge v high

/-- A pixel is weak: not strong and value ≥ LOW (45_threshold.md R321). -/
def isWeak (high low v : F64) : Bool := !isStrong high v && fge v low

/-- The bytes DTHR writes, from the memory it reads. -/
def dthrCells (img strong weak : Grid) (high low : F64) (m : Memory) : List Host.Cell :=
  cellsM strong (fun y x => isStrong high (rdF m img y x)) ++
    cellsM weak (fun y x => isWeak high low (rdF m img y x))

/-- DTHR (45_threshold.md R320). -/
def execDthr (img strong weak : Grid) (high low : F64) (s : State) : Host.Outcome State Fault Refusal :=
  .next (s.attempt (.dthr img strong weak high low) (s.mem.writeCells (dthrCells img strong weak high low s.mem)))

end Sys2Proof.Machine
end

