-- ==== Sys2Proof/Machine/Canny.lean ====
section
/-! DEFINITION. CANNY, the fixed Canny composition (48_canny.md R390 to R397): the execution parts of GAUSS,
CONV, GRAD, NMS, DTHR and LINK over the scratch grids, with no validation of their own (R394). -/

namespace Sys2Proof.Machine

/-- The memory after the smoothing kernel is built (48_canny.md R390). -/
def cannyKernel (exp : F64 → F64) (scratch : Nat) (p : CannyParams) (m : Memory) : Memory :=
  m.writeCells (gaussCells exp (scratchKg scratch (cannySize p).toNat) (cannySize p) (cannySigma p))

/-- The memory after smoothing under EDGE_REPLICATE (48_canny.md R391). -/
def cannySmooth (img : Grid) (scratch : Nat) (p : CannyParams) (m : Memory) : Memory :=
  m.writeCells (convCells .edgeReplicate false img (scratchKg scratch (cannySize p).toNat)
    (scratchSm scratch (cannySize p).toNat img.h img.w) m)

/-- The memory after the gradient. -/
def cannyGradient (atan2 : F64 → F64 → F64) (img : Grid) (scratch : Nat) (p : CannyParams) (m : Memory) : Memory :=
  m.writeCells (gradCells atan2 (scratchSm scratch (cannySize p).toNat img.h img.w)
    (scratchMg scratch (cannySize p).toNat img.h img.w) (scratchDr scratch (cannySize p).toNat img.h img.w) m)

/-- The memory after suppression. -/
def cannySuppress (img : Grid) (scratch : Nat) (p : CannyParams) (m : Memory) : Memory :=
  m.writeCells (nmsCells (scratchMg scratch (cannySize p).toNat img.h img.w)
    (scratchDr scratch (cannySize p).toNat img.h img.w) (scratchNm scratch (cannySize p).toNat img.h img.w) m)

/-- The memory after thresholding. -/
def cannyThreshold (img : Grid) (scratch : Nat) (p : CannyParams) (m : Memory) : Memory :=
  m.writeCells (dthrCells (scratchNm scratch (cannySize p).toNat img.h img.w)
    (scratchSt scratch (cannySize p).toNat img.h img.w) (scratchWk scratch (cannySize p).toNat img.h img.w)
    (cannyHigh p) (cannyLow p) m)

/-- The memory after linking into OUT (48_canny.md R397). -/
def cannyLink (full : Bool) (img out : Grid) (scratch : Nat) (p : CannyParams) (m : Memory) : Memory :=
  m.writeCells (linkCells full (scratchSt scratch (cannySize p).toNat img.h img.w)
    (scratchWk scratch (cannySize p).toNat img.h img.w) out m)

/-- The memory after the six stages, in order (48_canny.md R390, R393). -/
def cannyMemory (exp : F64 → F64) (atan2 : F64 → F64 → F64) (full : Bool) (img out : Grid) (scratch : Nat)
    (p : CannyParams) (m : Memory) : Memory :=
  cannyLink full img out scratch p <| cannyThreshold img scratch p <| cannySuppress img scratch p <|
    cannyGradient atan2 img scratch p <| cannySmooth img scratch p <| cannyKernel exp scratch p m

/-- CANNY (48_canny.md R390). -/
def execCanny (full : Bool) (img out : Grid) (scratch : Nat) (params : CannyParams) (s : State) :
    Host.Outcome State Fault Refusal :=
  .next (s.attempt (.canny full img out scratch params)
    (cannyMemory Config.exp Config.atan2 full img out scratch params s.mem))

end Sys2Proof.Machine
end

