-- ==== Sys2Proof/Machine/Control.lean ====
section
/-! DEFINITION. END (40_control.md R204). -/

namespace Sys2Proof.Machine

/-- END: the list ends with DONE. It has no operand and no check beyond decoding. -/
def execEndList (s : State) : Host.Outcome State Fault Refusal := .next s.finish

end Sys2Proof.Machine
end

