-- ==== Sys2Proof/Machine/Hough.lean ====
section
/-! DEFINITION. HOUGH, the Hough accumulator array (47_hough.md R360 to R370). HOUGH_TRIG is the strap of the
state (00_scope.md R32, log 1). -/

namespace Sys2Proof.Machine

/-- th[t], the angle of theta bin t in radians (47_hough.md R362). -/
def houghTheta (t : Nat) : F64 := fmul (f64 ((t : Int) - 90)) d2r

/-- (c_t, s_t) of HOUGH_TRIG. -/
def trigAt (trig : List (F64 × F64)) (t : Nat) : F64 × F64 := trig.getD t (posZero, posZero)

/-- rho of the edge pixel (y, x) at theta bin t (47_hough.md R364). -/
def houghRho (trig : List (F64 × F64)) (t y x : Nat) : F64 :=
  fadd (fmul (f64 x) (trigAt trig t).1) (fmul (f64 y) (trigAt trig t).2)

/-- r, the rho bin's offset from the middle (47_hough.md R365): rounded to even, or truncated with TRUNC = 1. -/
def houghOffset (trunc : Bool) (trig : List (F64 × F64)) (t y x : Nat) : Int :=
  if trunc then truncInt (houghRho trig t y x) else roundEven (houghRho trig t y x)

/-- The edge pixels of a mask (47_hough.md R360). -/
def edgePixels (edges : Nat → Nat → Bool) (h w : Nat) : List (Nat × Nat) :=
  (pixels h w).filter fun p => edges p.1 p.2

/-- cnt[b][t] after every vote: the edge pixels whose bin at theta t is b (47_hough.md R360, R368). -/
def houghCount (trunc : Bool) (trig : List (F64 × F64)) (edges : Nat → Nat → Bool) (h w b t : Nat) : Nat :=
  (edgePixels edges h w).countP fun p => houghOffset trunc trig t p.1 p.2 + (diagLen h w : Int) = (b : Int)

/-- RHOS[0][i], the value of rho bin i (47_hough.md R367). -/
def houghRhoValue (h w i : Nat) : F64 := f64 ((i : Int) - diagLen h w)

/-- The bytes HOUGH writes, from the memory it reads. -/
def houghCells (trunc : Bool) (trig : List (F64 × F64)) (edges acc rhos thetas : Grid) (m : Memory) :
    List Host.Cell :=
  cellsU32 acc (fun b t => houghCount trunc trig (rdM m edges) edges.h edges.w b t) ++
    (cellsF rhos (fun _ i => canonical (houghRhoValue edges.h edges.w i)) ++
      cellsF thetas (fun _ t => canonical (houghTheta t)))

/-- HOUGH (47_hough.md R360). -/
def execHough (trunc : Bool) (edges acc rhos thetas : Grid) (s : State) : Host.Outcome State Fault Refusal :=
  .next (s.attempt (.hough trunc edges acc rhos thetas)
    (s.mem.writeCells (houghCells trunc s.straps.trig edges acc rhos thetas s.mem)))

end Sys2Proof.Machine
end

