-- ==== Sys2Proof/Machine/Dispatch.lean ====
section
/-! DEFINITION. The meaning of every command (40_control.md R200, `execute` and `end_list`). -/

namespace Sys2Proof.Machine

/-- What a decoded command does, one arm per row of spec/opcode_table.json. -/
def exec (i : Instr) (s : State) : Host.Outcome State Fault Refusal :=
  match i with
  | .endList => Sys2Proof.Machine.execEndList s
  | .conv bnd corr img ker out => Sys2Proof.Machine.execConv bnd corr img ker out s
  | .gauss out size sigma => Sys2Proof.Machine.execGauss out size sigma s
  | .grad img mag dir => Sys2Proof.Machine.execGrad img mag dir s
  | .nms mag dir out => Sys2Proof.Machine.execNms mag dir out s
  | .dthr img strong weak high low => Sys2Proof.Machine.execDthr img strong weak high low s
  | .link full strong weak out => Sys2Proof.Machine.execLink full strong weak out s
  | .hough trunc edges acc rhos thetas => Sys2Proof.Machine.execHough trunc edges acc rhos thetas s
  | .canny full img out scratch params => Sys2Proof.Machine.execCanny full img out scratch params s

end Sys2Proof.Machine
end

