-- ==== Sys2Proof/Machine/Engine.lean ====
section
/-! DEFINITION. The ENGINE's command step (40_control.md R200 to R203): fetch checks, fetch, decode, and the
command's meaning. -/

namespace Sys2Proof.Machine

/-- The sixteen words of the descriptor at an address (30_encoding.md R150, 40_control.md R202). -/
def fetchWords (m : Memory) (p : Nat) : List Word :=
  (List.range 16).map fun k => BitVec.ofNat 64 (m.readLE (p + 8 * k) 8)

/-- The fetch checks (40_control.md R201): alignment, then range. -/
def fetchError (s : State) : Option BlockError :=
  if s.cmdPtr.toNat % 8 ≠ 0 then some { code := .layout, info := 0, addr := s.cmdPtr.toNat }
  else if s.straps.memSize < s.cmdPtr.toNat + 128 then some { code := .range, info := 0, addr := s.cmdPtr.toNat }
  else none

/-- The error of a descriptor that selects no command (40_control.md R211). -/
def rejectError : Reject → BlockError
  | .opcode => { code := .opcode, info := 0, addr := 0 }
  | .reserved => { code := .reserved, info := 0, addr := 0 }

/-- The command the ENGINE finds at CMD_PTR, or the error of the fetch checks or of step A. -/
def fetchCommand (s : State) : Except BlockError Instr :=
  match fetchError s with
  | some e => .error e
  | none =>
    match decode (fetchWords s.mem s.cmdPtr.toNat) with
    | .error r => .error (rejectError r)
    | .ok i => .ok i

/-- One turn of the ENGINE (40_control.md R200, 60_exceptions.md R546): a command step while BUSY = 1, and
nothing while BUSY = 0. -/
def engineStep (s : State) : Host.Outcome State Fault Refusal :=
  if s.busy then
    match fetchCommand s with
    | .error e => .next (s.raise e)
    | .ok i => exec i s
  else .next s

/-- The command that the ENGINE's next step completes, if it completes one: neither END nor failing. -/
def completing (s : State) : Option Instr :=
  if s.busy then
    match fetchCommand s with
    | .error _ => none
    | .ok i => if i ≠ .endList ∧ validate i s.straps.memSize = none then some i else none
  else none

/-! ## The running list (20_memory.md R121, R122) -/

/-- The states from which the ENGINE takes its coming steps, this one first, at most `n` of them. -/
def comingStates : Nat → State → List State
  | 0, _ => []
  | n + 1, s =>
    if s.busy then
      s ::
        (match engineStep s with
        | .next t => comingStates n t
        | .fault _ => []
        | .refused _ => [])
    else []

/-- All the steps still to come of the running list: each but the last moves CMD_PTR by 128 (40_control.md R205). -/
def listToCome (s : State) : List State := comingStates (s.straps.memSize / 128 + 1) s

/-- The state as it would be at the next slot, the command at CMD_PTR passed over. -/
def State.passOver (s : State) : State := { s with cmdPtr := s.cmdPtr + 128 }

/-- The slots of the list from CMD_PTR on as the memory holds them, one state at each: consecutive slots, END the
last (70_reset_and_hazards.md R605), none past the memory. -/
def slotsFrom : Nat → State → List State
  | 0, _ => []
  | n + 1, s =>
    if (fetchError s).isNone then
      s :: (if decode (fetchWords s.mem s.cmdPtr.toNat) = .ok .endList then [] else slotsFrom n s.passOver)
    else []

/-- The slots of the running list not yet fetched, one state at each: those whose commands will complete, in the
state each starts from, then those from the step that ends the list on. A command that will fail, and the slots
after it, belong to the list although the ENGINE stops there (70_reset_and_hazards.md R605, R612(a); log 9). -/
def listSlots (s : State) : List State :=
  (listToCome s).dropLast ++
    ((listToCome s).getLast?.toList).flatMap (slotsFrom (s.straps.memSize / 128 + 1))

/-- The command in the slot at CMD_PTR, if the slot holds one. -/
def slotCommand (s : State) : Option Instr :=
  match fetchCommand s with
  | .error _ => none
  | .ok i => some i

/-- Every command of the running list: completed, to come, or never to run because one before it fails. -/
def listCommands (s : State) : List Instr := s.ran ++ (listSlots s).filterMap slotCommand

/-- The running list uses a byte: it lies in a descriptor still to be fetched, or in an operand's span of a
command of the list (20_memory.md R121, 70_reset_and_hazards.md R612(a)). Log 9. -/
def listUses (s : State) (a : Nat) : Bool :=
  ((listSlots s).any fun t => decide (t.cmdPtr.toNat ≤ a) && decide (a < t.cmdPtr.toNat + 128)) ||
    (listCommands s).any fun i => (namedSpans i).any fun sp => decide (sp.lo ≤ a) && decide (a < sp.hi)

/-- The commands of the running list that have completed or will: a command that fails, and those after it, write
nothing (60_exceptions.md R512). -/
def completedCommands (s : State) : List Instr := s.ran ++ (listToCome s).filterMap completing

/-- Some command of the running list writes a byte (20_memory.md R122). Log 9. -/
def listWrites (s : State) (a : Nat) : Bool :=
  (completedCommands s).any fun i => (writtenBytes i).contains a

end Sys2Proof.Machine
end

