-- ==== Sys2Proof/Machine/Flags.lean ====
section
/-! DEFINITION. The flags: the STATUS and IER registers and the interrupt output (10_state.md R55 to R58, R68). -/

namespace Sys2Proof.Machine

/-- The interrupt output IRQ, also STATUS.IRQ (10_state.md R58, 60_exceptions.md R520): level-sensitive,
active high. -/
def State.irq (s : State) : Bool := (s.done && s.doneIE) || (s.err && s.errIE)

/-- STATUS as read (10_state.md R55): BUSY in bit 0, DONE in bit 1, ERR in bit 2, IRQ in bit 3. -/
def State.statusWord (s : State) : Reg :=
  BitVec.ofNat 32 (s.busy.toNat + 2 * s.done.toNat + 4 * s.err.toNat + 8 * s.irq.toNat)

/-- A write of STATUS (10_state.md R55): a 1 in bit 1 clears DONE, a 1 in bit 2 clears ERR; the other bits
are ignored. -/
def State.writeStatus (s : State) (data : Reg) : State :=
  { s with
    done := s.done && !data.getLsbD 1
    err := s.err && !data.getLsbD 2 }

/-- IER as read (10_state.md R57): DONE_IE in bit 1, ERR_IE in bit 2. -/
def State.ierWord (s : State) : Reg := BitVec.ofNat 32 (2 * s.doneIE.toNat + 4 * s.errIE.toNat)

/-- A write of IER (10_state.md R57): bits 1 and 2 are taken, the others ignored. -/
def State.writeIer (s : State) (data : Reg) : State :=
  { s with doneIE := data.getLsbD 1, errIE := data.getLsbD 2 }

end Sys2Proof.Machine
end

