-- ==== Sys2Proof/Machine/Registers.lean ====
section
/-! DEFINITION. The register window (10_state.md R52 to R67, 70_reset_and_hazards.md R613): what a HOST access
at an offset reads and changes. -/

namespace Sys2Proof.Machine

/-- ID (10_state.md R53). -/
def idWord : Reg := 0x43533133

/-- VERSION (10_state.md R53). -/
def versionWord : Reg := 0x00010000

/-- MEMTOP, the highest engine address (10_state.md R63). -/
def State.memTop (s : State) : Word := BitVec.ofNat 64 (s.straps.memSize - 1)

/-- The low half of a 64-bit register. -/
def loHalf (v : Word) : Reg := v.extractLsb' 0 32

/-- The high half of a 64-bit register. -/
def hiHalf (v : Word) : Reg := v.extractLsb' 32 32

/-- The register at an offset of the window, as read (10_state.md R52 to R65): every offset without a
register, and CTRL, reads 0. -/
def State.readReg (s : State) (offset : Nat) : Reg :=
  match offset with
  | 0x000 => idWord
  | 0x004 => versionWord
  | 0x00C => s.statusWord
  | 0x010 => s.ierWord
  | 0x014 => s.errCode.setWidth 32
  | 0x018 => loHalf s.cmdPtr
  | 0x01C => hiHalf s.cmdPtr
  | 0x020 => loHalf s.errAddr
  | 0x024 => hiHalf s.errAddr
  | 0x028 => s.errInfo.setWidth 32
  | 0x02C => s.cmdCount
  | 0x030 => loHalf s.memTop
  | 0x034 => hiHalf s.memTop
  | _ => 0

/-- A write of CTRL (10_state.md R54): START when bit 0 is 1 and BUSY = 0, else nothing. -/
def State.writeCtrl (s : State) (data : Reg) : State :=
  if data.getLsbD 0 && !s.busy then s.start else s

/-- A write of CMD_PTR_LO (10_state.md R61): the low half is replaced, ignored while BUSY. -/
def State.writePtrLo (s : State) (data : Reg) : State :=
  if s.busy then s else { s with cmdPtr := hiHalf s.cmdPtr ++ data }

/-- A write of CMD_PTR_HI (10_state.md R61): the high half is replaced, ignored while BUSY. -/
def State.writePtrHi (s : State) (data : Reg) : State :=
  if s.busy then s else { s with cmdPtr := data ++ loHalf s.cmdPtr }

/-- A write of the register at an offset of the window (10_state.md R52 to R65, 70_reset_and_hazards.md R613):
read-only registers and reserved offsets ignore it. -/
def State.writeReg (s : State) (offset : Nat) (data : Reg) : State :=
  match offset with
  | 0x008 => s.writeCtrl data
  | 0x00C => s.writeStatus data
  | 0x010 => s.writeIer data
  | 0x018 => s.writePtrLo data
  | 0x01C => s.writePtrHi data
  | _ => s

/-- The offset of a host address in the register window, if it lies there (10_state.md R52, 00_scope.md R13). -/
def State.windowOffset (s : State) (addr : Nat) : Option Nat :=
  if s.straps.mmioBase ≤ addr ∧ addr < s.straps.mmioBase + 0x100 then some (addr - s.straps.mmioBase) else none

/-- Only naturally aligned 32-bit accesses of the window count (10_state.md R66). -/
def registerAccess (offset width : Nat) : Bool := decide (width = 4) && decide (offset % 4 = 0)

/-- The bytes a HOST read of the window returns, lowest address first (10_state.md R66, R67): the register's
bytes little-endian for an aligned 32-bit access, zeros for any other. -/
def State.windowRead (s : State) (offset width : Nat) : List Byte :=
  if registerAccess offset width then bytesOf 4 (s.readReg offset).toNat else List.replicate width 0

/-- What a HOST write of the window does (10_state.md R66): an access that is not an aligned 32-bit one is
ignored. -/
def State.windowWrite (s : State) (offset width : Nat) (data : Reg) : State :=
  if registerAccess offset width then s.writeReg offset data else s

end Sys2Proof.Machine
end

