-- ==== Sys2Proof/Machine/HostMoves.lean ====
section
/-! DEFINITION. The moves of the HOST and of the platform's reset (00_scope.md R10, 10_state.md R52 to R67,
20_memory.md R120 to R124, 70_reset_and_hazards.md R600 to R613). -/

namespace Sys2Proof.Machine

/-- A HOST read at an address of the register window changes nothing but the data returned (10_state.md R65,
R66). Outside the window the block does not answer (log 11). -/
def hostRegRead (addr width : Nat) (s : State) : State :=
  match s.windowOffset addr with
  | some offset => { s with reply := s.windowRead offset width }
  | none => { s with reply := [] }

/-- A HOST write at an address of the register window (10_state.md R66). Outside the window the block does
nothing (log 11). -/
def hostRegWrite (addr width : Nat) (data : Reg) (s : State) : State :=
  match s.windowOffset addr with
  | some offset => s.windowWrite offset width data
  | none => s

/-- A HOST read of a byte of memory (20_memory.md R122, R123): its value, but a free byte while BUSY = 1 if the
running list writes it. -/
def hostMemRead (addr : Nat) (s : State) : Host.Outcome State Fault Refusal :=
  if s.straps.memSize ≤ addr then .fault (.hostAddressOutsideMemory addr)
  else if s.busy && listWrites s addr then
    .next { s with reply := [Config.freeByte s.draws], draws := s.draws + 1 }
  else .next { s with reply := [s.mem.read addr] }

/-- A HOST write of a byte of memory (20_memory.md R120, R121): the model offers none, while BUSY = 1, to a byte
that the running list uses. -/
def hostMemWrite (addr : Nat) (value : Byte) (s : State) : Host.Outcome State Fault Refusal :=
  if s.straps.memSize ≤ addr then .fault (.hostAddressOutsideMemory addr)
  else if s.busy && listUses s addr then .refused (.hostDutyBroken addr)
  else .next { s with mem := s.mem.write addr value }

/-- Reset (70_reset_and_hazards.md R600 to R602): the registers take their reset values; memory keeps every
byte, but those that the command in flight writes hold free bytes. -/
def resetMove (s : State) : State :=
  match completing s with
  | none => s.resetRegisters
  | some i =>
    { s.resetRegisters with
      mem := s.mem.writeCells (freeCells s.draws (writtenBytes i))
      draws := s.draws + (writtenBytes i).length }

/-- One move (70_reset_and_hazards.md R621). -/
def applyMove : Move → State → Host.Outcome State Fault Refusal
  | .engine, s => engineStep s
  | .regRead addr width, s => .next (hostRegRead addr width s)
  | .regWrite addr width data, s => .next (hostRegWrite addr width data s)
  | .memRead addr, s => hostMemRead addr s
  | .memWrite addr value, s => hostMemWrite addr value s
  | .reset, s => .next (resetMove s)

/-- The next move: the oldest one still to come or, when none is listed, the ENGINE's (log 4). -/
def nextMove (s : State) : Host.Outcome State Fault Refusal :=
  match s.moves with
  | [] => engineStep s
  | move :: rest => applyMove move { s with moves := rest }

/-- Where a descriptor can be fetched: CMD_PTR, or 0 where the fetch checks would refuse it. -/
def fetchPlace (s : State) : Nat := if (fetchError s).isNone then s.cmdPtr.toNat else 0

/-- The state about to run one descriptor: it stands at CMD_PTR, the list runs and no move comes first
(log 16). The descriptor's low `nbits` bits are those of `w`, its other bits 0. -/
def placeDescriptor (s : State) (nbits w : Nat) : State :=
  { s with
    mem := s.mem.writeCells (cellsLE (fetchPlace s) 128 (w % 2 ^ nbits))
    cmdPtr := BitVec.ofNat 64 (fetchPlace s)
    busy := true
    moves := [] }

end Sys2Proof.Machine
end

