-- ==== Sys2Proof/Machine/Step.lean ====
section
/-! DEFINITION. One step of the machine (70_reset_and_hazards.md R621): the next move of the ENGINE, the HOST or
the reset. -/

namespace Sys2Proof.Machine

/-- One step of the machine. -/
def step : State → Host.Outcome State Fault Refusal := nextMove

/-- The state `s` with a descriptor stored where `step` fetches next and run by the very next step (log 16). -/
def State.withFetchWord (s : State) (nbits w : Nat) : State := placeDescriptor s nbits w

end Sys2Proof.Machine
end

