-- ==== Sys2Proof/Safety.lean ====
section
/-! DEFINITION. What the statements mean by a command that executes normally and by a sound state: the
conditions of 40_control.md R210 to R217 written as one proposition per command, and the invariant that every
step keeps. -/

namespace Sys2Proof.Machine

/-! ## Conditions on operands -/

/-- A grid that steps C, E and F accept (40_control.md R213, R215, R216): no zero dimension, aligned, rows
within the stride, inside memory. -/
abbrev GridPlaced (g : Grid) (es memSize : Nat) : Prop :=
  1 ≤ g.h ∧ 1 ≤ g.w ∧ g.base % es = 0 ∧ g.stride % es = 0 ∧ g.w * es ≤ g.stride ∧
    g.base + (g.h - 1) * g.stride + g.w * es ≤ memSize

/-- Two grids have the same shape (40_control.md R214). -/
abbrev SameShape (g k : Grid) : Prop := g.h = k.h ∧ g.w = k.w

/-- Two half-open address ranges, from `a0` to `a1` and from `b0` to `b1`, share no byte (40_control.md R217). -/
abbrev Apart (a0 a1 b0 b1 : Nat) : Prop := a1 ≤ b0 ∨ b1 ≤ a0

/-- The spans of two grids share no byte (20_memory.md R114, R116). -/
abbrev GridsApart (g : Grid) (es : Nat) (k : Grid) (ks : Nat) : Prop :=
  Apart g.base (gridEnd g es) k.base (gridEnd k ks)

/-- The scalars of GAUSS and of CANNY with DEF = 0 that step B accepts (40_control.md R212). -/
abbrev GaussScalars (size : Int) (sigma : F64) : Prop :=
  1 ≤ size ∧ size ≤ 65535 ∧ size % 2 = 1 ∧ fgt sigma posZero = true

/-- The thresholds that step B accepts (40_control.md R212): HIGH above LOW, LOW not negative. -/
abbrev ThresholdScalars (high low : F64) : Prop := fgt high low = true ∧ flt low posZero = false

/-- The shapes of HOUGH's outputs (40_control.md R214), `d` the diag_len of the edge mask. -/
abbrev HoughShapes (d : Nat) (acc rhos thetas : Grid) : Prop :=
  acc.h = 2 * d + 1 ∧ acc.w = 180 ∧ rhos.h = 1 ∧ rhos.w = 2 * d + 1 ∧ thetas.h = 1 ∧ thetas.w = 180

/-- The scalars of CANNY that step B accepts: the defaults always, else those of GAUSS and DTHR. -/
abbrev CannyScalars : CannyParams → Prop
  | .defaults => True
  | .given size sigma high low => GaussScalars size sigma ∧ ThresholdScalars high low

/-- The scratch region of CANNY that steps E and F accept (40_control.md R215, R216, 48_canny.md R392). -/
abbrev ScratchPlaced (img : Grid) (scratch : Nat) (params : CannyParams) (memSize : Nat) : Prop :=
  scratch % 8 = 0 ∧ scratch + scratchBytes (cannySize params).toNat img.h img.w ≤ memSize

/-- The scratch region of CANNY shares no byte with a grid (40_control.md R217). -/
abbrev ScratchApart (img : Grid) (scratch : Nat) (params : CannyParams) (g : Grid) (es : Nat) : Prop :=
  Apart g.base (gridEnd g es) scratch (scratch + scratchBytes (cannySize params).toNat img.h img.w)

/-- The command passes steps B to G in a memory of `memSize` bytes (40_control.md R210 to R218). -/
abbrev Ready (memSize : Nat) : Instr → Prop
  | .endList => True
  | .conv _ _ img ker out =>
    ker.h % 2 = 1 ∧ ker.w % 2 = 1 ∧ SameShape out img ∧
      GridPlaced img 8 memSize ∧ GridPlaced ker 8 memSize ∧ GridPlaced out 8 memSize ∧
      GridsApart img 8 out 8 ∧ GridsApart ker 8 out 8
  | .gauss out size sigma =>
    GaussScalars size sigma ∧ (out.h : Int) = size ∧ (out.w : Int) = size ∧ GridPlaced out 8 memSize
  | .grad img mag dir =>
    SameShape mag img ∧ SameShape dir img ∧
      GridPlaced img 8 memSize ∧ GridPlaced mag 8 memSize ∧ GridPlaced dir 8 memSize ∧
      GridsApart img 8 mag 8 ∧ GridsApart img 8 dir 8 ∧ GridsApart mag 8 dir 8
  | .nms mag dir out =>
    SameShape dir mag ∧ SameShape out mag ∧
      GridPlaced mag 8 memSize ∧ GridPlaced dir 8 memSize ∧ GridPlaced out 8 memSize ∧
      GridsApart mag 8 out 8 ∧ GridsApart dir 8 out 8
  | .dthr img strong weak high low =>
    ThresholdScalars high low ∧ SameShape strong img ∧ SameShape weak img ∧
      GridPlaced img 8 memSize ∧ GridPlaced strong 1 memSize ∧ GridPlaced weak 1 memSize ∧
      GridsApart img 8 strong 1 ∧ GridsApart img 8 weak 1 ∧ GridsApart strong 1 weak 1
  | .link _ strong weak out =>
    SameShape weak strong ∧ SameShape out strong ∧
      GridPlaced strong 1 memSize ∧ GridPlaced weak 1 memSize ∧ GridPlaced out 1 memSize ∧
      GridsApart strong 1 out 1 ∧ GridsApart weak 1 out 1
  | .hough _ edges acc rhos thetas =>
    HoughShapes (diagLen edges.h edges.w) acc rhos thetas ∧
      GridPlaced edges 1 memSize ∧ GridPlaced acc 4 memSize ∧ GridPlaced rhos 8 memSize ∧
      GridPlaced thetas 8 memSize ∧
      GridsApart edges 1 acc 4 ∧ GridsApart edges 1 rhos 8 ∧ GridsApart edges 1 thetas 8 ∧
      GridsApart acc 4 rhos 8 ∧ GridsApart acc 4 thetas 8 ∧ GridsApart rhos 8 thetas 8
  | .canny _ img out scratch params =>
    CannyScalars params ∧ SameShape out img ∧
      GridPlaced img 8 memSize ∧ GridPlaced out 1 memSize ∧ ScratchPlaced img scratch params memSize ∧
      GridsApart img 8 out 1 ∧ ScratchApart img scratch params img 8 ∧ ScratchApart img scratch params out 1

/-! ## The checks one at a time -/

/-- The scalar at a word passes its check of step B; a word without a checked scalar passes (40_control.md R212). -/
abbrev ScalarHolds : Instr → Nat → Prop
  | .gauss _ size _, 3 => 1 ≤ size ∧ size ≤ 65535 ∧ size % 2 = 1
  | .gauss _ _ sigma, 4 => fgt sigma posZero = true
  | .dthr _ _ _ high low, 7 => fgt high low = true
  | .dthr _ _ _ _ low, 8 => flt low posZero = false
  | .canny _ _ _ _ (.given size _ _ _), 6 => 1 ≤ size ∧ size ≤ 65535 ∧ size % 2 = 1
  | .canny _ _ _ _ (.given _ sigma _ _), 7 => fgt sigma posZero = true
  | .canny _ _ _ _ (.given _ _ high low), 8 => fgt high low = true
  | .canny _ _ _ _ (.given _ _ _ low), 9 => flt low posZero = false
  | _, _ => True

/-- The grid at a word has dimensions that step C accepts: odd ones for CONV's kernel, else no zero one
(40_control.md R213). -/
abbrev DimensionsHold (g : Grid) : Instr → Nat → Prop
  | .conv .., 3 => g.h % 2 = 1 ∧ g.w % 2 = 1
  | _, _ => 1 ≤ g.h ∧ 1 ≤ g.w

/-- The grid at a word has the shape of the table of step D, if it has a row there (40_control.md R214). -/
abbrev ShapeHolds (g : Grid) : Instr → Nat → Prop
  | .conv _ _ img _ _, 5 => SameShape g img
  | .gauss _ size _, 1 => (g.h : Int) = size ∧ (g.w : Int) = size
  | .grad img _ _, 3 => SameShape g img
  | .grad img _ _, 5 => SameShape g img
  | .nms mag _ _, 3 => SameShape g mag
  | .nms mag _ _, 5 => SameShape g mag
  | .dthr img _ _ _ _, 3 => SameShape g img
  | .dthr img _ _ _ _, 5 => SameShape g img
  | .link _ strong _ _, 3 => SameShape g strong
  | .link _ strong _ _, 5 => SameShape g strong
  | .hough _ edges _ _ _, 3 => g.h = 2 * diagLen edges.h edges.w + 1 ∧ g.w = 180
  | .hough _ edges _ _ _, 5 => g.h = 1 ∧ g.w = 2 * diagLen edges.h edges.w + 1
  | .hough .., 7 => g.h = 1 ∧ g.w = 180
  | .canny _ img _ _ _, 3 => SameShape g img
  | _, _ => True

/-- A grid has the layout of step E: base and stride aligned to its elements, a row within the stride
(40_control.md R215). -/
abbrev LayoutHolds (g : Grid) (es : Nat) : Prop := g.base % es = 0 ∧ g.stride % es = 0 ∧ g.w * es ≤ g.stride

/-- CANNY's SCRATCH is aligned as step E asks; another command has none (40_control.md R215). -/
abbrev ScratchAligned : Instr → Prop
  | .canny _ _ _ scratch _ => scratch % 8 = 0
  | _ => True

/-- Two spans share a byte and one of them is an output, which step G refuses (40_control.md R217). -/
abbrev SpansMeet (a b : Span) : Prop := (a.role = .output ∨ b.role = .output) ∧ a.lo < b.hi ∧ b.lo < a.hi

/-! ## What a command does when it executes normally -/

/-- The command `i` completes from `s` to `t` (40_control.md R203, 20_memory.md R115): CMD_PTR moves to the next
slot, CMD_COUNT counts the command and the record of the list gains it; every byte that the command does not write
is unchanged; every flag, every other register and every other field is unchanged. -/
def Completes (i : Instr) (s t : State) : Prop :=
  t = { s with mem := t.mem, cmdPtr := s.cmdPtr + 128, cmdCount := s.cmdCount + 1, ran := s.ran ++ [i] } ∧
    ∀ a, a ∉ writtenBytes i → t.mem.read a = s.mem.read a

/-- Two pixels are 8-connected neighbours (46_link.md R344): they differ by at most one in each coordinate, and
they are not the same. -/
abbrev Adjacent (p q : Nat × Nat) : Prop :=
  p ≠ q ∧ p.1 ≤ q.1 + 1 ∧ q.1 ≤ p.1 + 1 ∧ p.2 ≤ q.2 + 1 ∧ q.2 ≤ p.2 + 1

/-! ## What a descriptor says -/

/-- The last word of the descriptor that the operand table of a command lists (30_encoding.md R155, R170). -/
def lastOperandWord : Instr → Nat
  | .endList => 0
  | .conv .. => 6
  | .gauss .. => 4
  | .grad .. => 6
  | .nms .. => 6
  | .dthr .. => 8
  | .link .. => 6
  | .hough .. => 8
  | .canny _ _ _ _ .defaults => 5
  | .canny _ _ _ _ (.given ..) => 9

/-- Bit `k` of the command word is a flag that the opcode defines (30_encoding.md R152). -/
abbrev FlagDefined (op k : Nat) : Prop :=
  (k = 8 ∧ (op = 0x01 ∨ op = 0x06 ∨ op = 0x07 ∨ op = 0x08)) ∨ (k = 9 ∧ (op = 0x01 ∨ op = 0x08))

/-- The command word has a bit set that its opcode reserves (30_encoding.md R151, R175): a bit of RSVD, or a bit
of FLAGS that the opcode does not define. -/
def ReservedBitSet (w0 : Word) : Prop :=
  ∃ k, 8 ≤ k ∧ k < 64 ∧ w0.getLsbD k = true ∧ ¬ FlagDefined (w0.toNat % 256) k

/-- A descriptor can be fetched at CMD_PTR (40_control.md R201). -/
abbrev Fetchable (s : State) : Prop := s.cmdPtr.toNat % 8 = 0 ∧ s.cmdPtr.toNat + 128 ≤ s.straps.memSize

/-- The ENGINE is the next to move and a list runs. -/
abbrev EngineNext (s : State) : Prop := s.moves = [] ∧ s.busy = true

/-! ## The running list -/

/-- A slot of the running list whose descriptor cannot change before the ENGINE reaches it: the one at CMD_PTR or,
where no command completes there, one of those that follow it, none before it holding END (70_reset_and_hazards.md
R605, R612(a)). -/
def SlotOfList (s : State) (p : Nat) : Prop :=
  ∃ k, p = s.cmdPtr.toNat + 128 * k ∧ p % 8 = 0 ∧ p + 128 ≤ s.straps.memSize ∧ (k = 0 ∨ completing s = none) ∧
    ∀ j, j < k → decode (fetchWords s.mem (s.cmdPtr.toNat + 128 * j)) ≠ .ok .endList

/-- A byte lies in an operand's span of a command: in a grid that has rows and columns (20_memory.md R114), or in
CANNY's scratch region (48_canny.md R392). -/
def InOperand (i : Instr) (a : Nat) : Prop :=
  (∃ o ∈ operandsOf i, 1 ≤ o.grid.h ∧ 1 ≤ o.grid.w ∧ o.grid.base ≤ a ∧
      a < o.grid.base + (o.grid.h - 1) * o.grid.stride + o.grid.w * o.es) ∨
    ∃ full img out scratch params, i = .canny full img out scratch params ∧ scratch ≤ a ∧
      a < scratch + (8 * (cannySize params).toNat ^ 2 + 34 * (img.h * img.w))

/-! ## Sound states -/

/-- The wired parameters are legal (00_scope.md R12, R13, R32). -/
structure Straps.Legal (p : Straps) : Prop where
  /-- MEM_SIZE is at least one descriptor -/
  size_low : 128 ≤ p.memSize
  /-- and at most 2^63 -/
  size_high : p.memSize ≤ 2 ^ 63
  /-- MMIO_BASE is a multiple of 0x100 -/
  base_aligned : p.mmioBase % 0x100 = 0
  /-- HOUGH_TRIG has its required properties -/
  trig_ok : trigAdmissible p.trig = true

/-- The invariant of the machine: it holds at reset and every step keeps it. -/
structure State.Inv (s : State) : Prop where
  /-- the memory is in canonical form -/
  mem_wf : s.mem.wf
  /-- no byte is listed outside the memory (20_memory.md R100) -/
  mem_inside : ∀ c ∈ s.mem, c.1 < s.straps.memSize
  /-- the wired parameters are legal -/
  straps_legal : s.straps.Legal
  /-- at most one of BUSY, DONE and ERR is set (10_state.md R55) -/
  busy_alone : s.busy = true → s.done = false ∧ s.err = false
  /-- at most one of DONE and ERR is set (10_state.md R55) -/
  done_or_err : s.done = true → s.err = false
  /-- ERR_CODE holds a code of 60_exceptions.md R500 -/
  code_known : s.errCode.toNat ≤ 8
  /-- an error that is flagged has a code (60_exceptions.md R510) -/
  err_has_code : s.err = true → s.errCode ≠ 0
  /-- while a list runs, and once it has reached END, no error is recorded (10_state.md R59, R60) -/
  no_code_while_running : s.busy = true ∨ s.done = true → s.errCode = 0
  /-- without an error nothing is recorded of one (10_state.md R62) -/
  clean_report : s.errCode = 0 → s.errInfo = 0 ∧ s.errAddr = 0
  /-- an idle block runs no list -/
  idle_ran : s.busy = false → s.ran = []
  /-- CMD_COUNT counts the completed commands of the running list modulo 2^32 (10_state.md R64) -/
  count_ran : s.busy = true → s.cmdCount = BitVec.ofNat 32 s.ran.length
  /-- every completed command was no END and had passed validation (40_control.md R203, R210) -/
  ran_valid : ∀ i ∈ s.ran, i ≠ .endList ∧ validate i s.straps.memSize = none
  /-- after a completion CMD_PTR is aligned and at most MEM_SIZE (40_control.md R201, R203) -/
  pointer_inside : s.ran ≠ [] → s.cmdPtr.toNat % 8 = 0 ∧ s.cmdPtr.toNat ≤ s.straps.memSize

end Sys2Proof.Machine
end

