-- ==== Sys2Proof/Certificates/Slice0/Obligations.lean ====
section
/-! DEFINITION. The statements about the 2d_convolution_engine, one `Obligations.<Name> : Prop` each, in the order
of OBLIGATIONS.json. Each docstring says which rule of spec/ the statement formalises; what it says beyond the
rules, and what rests on a choice of the model, is said there too. -/

open Sys2Proof Sys2Proof.Machine

/-! ## Encoding and decoding -/

/-- Decode and encode agree: no bit of a well-formed command is lost by its encoding (30_encoding.md R150 to
R170). -/
def Obligations.DecodeOfEncode : Prop :=
  ∀ i : Instr, i.wellFormed = true → decode (encode i) = .ok i

/-- Every descriptor that decodes gives a command whose fields are in their ranges (30_encoding.md R153, R154). -/
def Obligations.DecodeIsWellFormed : Prop :=
  ∀ (ws : List Word) (i : Instr), decode ws = .ok i → i.wellFormed = true

/-- The field places (30_encoding.md R153, R154, R170): for a command word that selects a command, the command
decoded is that of the opcode and flag bits, each grid has BASE in its first word and H, W and STRIDE in bits 15:0,
31:16 and 63:32 of its second, and each scalar is a whole word. -/
def Obligations.DecodeReadsFields : Prop :=
  ∀ (ws : List Word) (g : Nat → Grid),
    (∀ k, (g k).base = (wordAt ws k).toNat ∧ (g k).h = (wordAt ws (k + 1)).toNat % 2 ^ 16 ∧
      (g k).w = (wordAt ws (k + 1)).toNat / 2 ^ 16 % 2 ^ 16 ∧ (g k).stride = (wordAt ws (k + 1)).toNat / 2 ^ 32) →
    (wordAt ws 0 = 0x000 → decode ws = .ok .endList) ∧
    (wordAt ws 0 = 0x001 → decode ws = .ok (.conv .zero false (g 1) (g 3) (g 5))) ∧
    (wordAt ws 0 = 0x101 → decode ws = .ok (.conv .edgeReplicate false (g 1) (g 3) (g 5))) ∧
    (wordAt ws 0 = 0x201 → decode ws = .ok (.conv .zero true (g 1) (g 3) (g 5))) ∧
    (wordAt ws 0 = 0x301 → decode ws = .ok (.conv .edgeReplicate true (g 1) (g 3) (g 5))) ∧
    (wordAt ws 0 = 0x002 → decode ws = .ok (.gauss (g 1) (wordAt ws 3).toInt (wordAt ws 4))) ∧
    (wordAt ws 0 = 0x003 → decode ws = .ok (.grad (g 1) (g 3) (g 5))) ∧
    (wordAt ws 0 = 0x004 → decode ws = .ok (.nms (g 1) (g 3) (g 5))) ∧
    (wordAt ws 0 = 0x005 → decode ws = .ok (.dthr (g 1) (g 3) (g 5) (wordAt ws 7) (wordAt ws 8))) ∧
    (wordAt ws 0 = 0x006 → decode ws = .ok (.link false (g 1) (g 3) (g 5))) ∧
    (wordAt ws 0 = 0x106 → decode ws = .ok (.link true (g 1) (g 3) (g 5))) ∧
    (wordAt ws 0 = 0x007 → decode ws = .ok (.hough false (g 1) (g 3) (g 5) (g 7))) ∧
    (wordAt ws 0 = 0x107 → decode ws = .ok (.hough true (g 1) (g 3) (g 5) (g 7))) ∧
    (∀ full : Bool, wordAt ws 0 = (if full then 0x108 else 0x008) →
      decode ws = .ok (.canny full (g 1) (g 3) (wordAt ws 5).toNat
        (.given (wordAt ws 6).toInt (wordAt ws 7) (wordAt ws 8) (wordAt ws 9)))) ∧
    (∀ full : Bool, wordAt ws 0 = (if full then 0x308 else 0x208) →
      decode ws = .ok (.canny full (g 1) (g 3) (wordAt ws 5).toNat .defaults))

/-- Unused words are ignored (30_encoding.md R155): a descriptor that agrees with another on the words the
command's operand table lists decodes to the same command, whatever its other words hold. -/
def Obligations.DecodeIgnoresUnusedWords : Prop :=
  ∀ (ws ws' : List Word) (i : Instr), decode ws = .ok i →
    (∀ k, k ≤ lastOperandWord i → wordAt ws' k = wordAt ws k) → decode ws' = .ok i

/-- The worked encoding of 30_encoding.md R183, both ways, and one word of another family. A sanity statement. -/
def Obligations.WorkedEncoding : Prop :=
  encode (.conv .edgeReplicate false ⟨0x1000, 3, 3, 24⟩ ⟨0x2000, 3, 3, 24⟩ ⟨0x3000, 3, 3, 24⟩) =
      [0x0000000000000101, 0x0000000000001000, 0x0000001800030003, 0x0000000000002000, 0x0000001800030003,
        0x0000000000003000, 0x0000001800030003, 0, 0, 0, 0, 0, 0, 0, 0, 0] ∧
    decode
        [0x0000000000000101, 0x0000000000001000, 0x0000001800030003, 0x0000000000002000, 0x0000001800030003,
          0x0000000000003000, 0x0000001800030003, 0, 0, 0, 0, 0, 0, 0, 0, 0] =
      .ok (.conv .edgeReplicate false ⟨0x1000, 3, 3, 24⟩ ⟨0x2000, 3, 3, 24⟩ ⟨0x3000, 3, 3, 24⟩) ∧
    decode [0x0000000000000106, 0x40, 0x0000000500050001, 0x80, 0x0000000500050001, 0xC0, 0x0000000500050001] =
      .ok (.link true ⟨0x40, 1, 5, 5⟩ ⟨0x80, 1, 5, 5⟩ ⟨0xC0, 1, 5, 5⟩)

/-! ## The ENGINE's step -/

/-- A step runs the decoded command: when the sixteen words at CMD_PTR decode to `i`, the step is `exec` of `i`
at that state, and nothing else happens around it (40_control.md R200, R202). -/
def Obligations.StepRunsDecodedCommand : Prop :=
  ∀ (s : State) (i : Instr), EngineNext s → Fetchable s →
    decode (fetchWords s.mem s.cmdPtr.toNat) = .ok i → step s = exec i s

/-- A step runs the command whose encoding stands in memory at CMD_PTR, byte for byte in little-endian order
(20_memory.md R104, 30_encoding.md R150, 40_control.md R202). -/
def Obligations.StepRunsEncodedCommand : Prop :=
  ∀ (s : State) (i : Instr), EngineNext s → Fetchable s → i.wellFormed = true →
    (∀ k, k < 128 → s.mem.read (s.cmdPtr.toNat + k) = (bytesOfWords (encode i)).getD k 0) → step s = exec i s

/-- The fetch checks (40_control.md R201): a misaligned CMD_PTR is E_LAYOUT, else a descriptor that ends past
MEM_SIZE is E_RANGE; both record ERR_INFO 0 and ERR_ADDR = CMD_PTR and change nothing else. -/
def Obligations.FetchChecks : Prop :=
  ∀ s : State, EngineNext s →
    (s.cmdPtr.toNat % 8 ≠ 0 →
      step s = .next { s with errCode := 0x06, errInfo := 0, errAddr := s.cmdPtr, err := true, busy := false, ran := [] }) ∧
    (s.cmdPtr.toNat % 8 = 0 → s.straps.memSize < s.cmdPtr.toNat + 128 →
      step s = .next { s with errCode := 0x07, errInfo := 0, errAddr := s.cmdPtr, err := true, busy := false, ran := [] })

/-- Step A of validation (40_control.md R211): an OPCODE of 0x09 or more is E_OPCODE, else a set RSVD bit or an
undefined FLAGS bit is E_RESERVED, both with ERR_INFO 0 and ERR_ADDR 0; and of OPCODE 0x00 no other check is made. -/
def Obligations.DecodeChecks : Prop :=
  ∀ s : State, EngineNext s → Fetchable s →
    (9 ≤ (wordAt (fetchWords s.mem s.cmdPtr.toNat) 0).toNat % 256 →
      step s = .next { s with errCode := 0x01, errInfo := 0, errAddr := 0, err := true, busy := false, ran := [] }) ∧
    ((wordAt (fetchWords s.mem s.cmdPtr.toNat) 0).toNat % 256 < 9 →
      ReservedBitSet (wordAt (fetchWords s.mem s.cmdPtr.toNat) 0) →
      step s = .next { s with errCode := 0x02, errInfo := 0, errAddr := 0, err := true, busy := false, ran := [] }) ∧
    ((wordAt (fetchWords s.mem s.cmdPtr.toNat) 0).toNat % 256 = 0 →
      ¬ ReservedBitSet (wordAt (fetchWords s.mem s.cmdPtr.toNat) 0) → step s = exec .endList s)

/-- ERROR ENTRY (60_exceptions.md R510, R512): a fetch check or a validation that raises an error records its
code, by its number of R500, its word and address, sets ERR, ends the list, and changes nothing else: CMD_PTR keeps
the failing descriptor's address, and the failing command writes no byte. -/
def Obligations.ErrorEntry : Prop :=
  (ErrorCode.number .opcode = 0x01 ∧ ErrorCode.number .reserved = 0x02 ∧ ErrorCode.number .invalidKernel = 0x03 ∧
    ErrorCode.number .invalidParameter = 0x04 ∧ ErrorCode.number .shapeMismatch = 0x05 ∧
    ErrorCode.number .layout = 0x06 ∧ ErrorCode.number .range = 0x07 ∧ ErrorCode.number .overlap = 0x08) ∧
  ∀ (s : State) (e : BlockError), EngineNext s →
    (fetchCommand s = .error e ∨
      ∃ i, fetchCommand s = .ok i ∧ i ≠ .endList ∧ validate i s.straps.memSize = some e) →
    step s = .next { s with
      errCode := e.code.number, errInfo := BitVec.ofNat 4 e.info, errAddr := BitVec.ofNat 64 e.addr,
      err := true, busy := false, ran := [] }

/-- END (40_control.md R204): its effect in every state, that an all-zero command word at CMD_PTR has it whatever
the other words hold, and that a command word of OPCODE 0x00 with another bit set is E_RESERVED. -/
def Obligations.EndEndsTheList : Prop :=
  (∀ s : State, exec .endList s = .next { s with busy := false, done := true, ran := [] }) ∧
    ∀ s : State, EngineNext s → Fetchable s →
      (wordAt (fetchWords s.mem s.cmdPtr.toNat) 0 = 0 →
        step s = .next { s with busy := false, done := true, ran := [] }) ∧
      ((wordAt (fetchWords s.mem s.cmdPtr.toNat) 0).toNat % 256 = 0 →
        wordAt (fetchWords s.mem s.cmdPtr.toNat) 0 ≠ 0 →
        step s = .next { s with
          errCode := 0x02, errInfo := 0, errAddr := 0, err := true, busy := false, ran := [] })

/-- The outcomes of an ENGINE step (40_control.md R200, R219, 60_exceptions.md R546): nothing while BUSY = 0; else
exactly one of the completion of the command in the descriptor at CMD_PTR, END found there, and the error that the
fetch checks, the decoding or the validation gives; never a fault, never a refusal. -/
def Obligations.EngineOutcomes : Prop :=
  ∀ s : State, s.moves = [] →
    (s.busy = false → step s = .next s) ∧
    (s.busy = true → s.done = false → s.err = false →
      ∃ t, step s = .next t ∧
        ((t.busy = true ∧ t.done = false ∧ t.err = false ∧
            ∃ i, i ≠ .endList ∧ fetchCommand s = .ok i ∧ validate i s.straps.memSize = none ∧ Completes i s t) ∨
          (t.busy = false ∧ t.done = true ∧ t.err = false ∧ fetchCommand s = .ok .endList ∧
            t = { s with busy := false, done := true, ran := [] }) ∨
          (t.busy = false ∧ t.done = false ∧ t.err = true ∧ t.errCode ≠ 0 ∧ t.mem = s.mem ∧ t.cmdPtr = s.cmdPtr ∧
            t.cmdCount = s.cmdCount ∧
            ∃ e, t.errCode = e.code.number ∧ (fetchCommand s = .error e ∨
              ∃ i, i ≠ .endList ∧ fetchCommand s = .ok i ∧ validate i s.straps.memSize = some e))))

/-- Termination (40_control.md R205, 70_reset_and_hazards.md R621): a list of which the HOST makes no move ends
after at most (MEM_SIZE - CMD_PTR) / 128 completed commands and one more step, with DONE or ERR set. -/
def Obligations.EveryListEnds : Prop :=
  ∀ s : State, EngineNext s → s.straps.memSize ≤ 2 ^ 63 →
    ∃ k t, k ≤ (s.straps.memSize - s.cmdPtr.toNat) / 128 + 1 ∧ Host.Core.run Sys2Proof.core k s = .next t ∧
      t.busy = false ∧ (t.done = true ∨ t.err = true)

/-! ## Validation -/

/-- Validation passes exactly under the conditions of 40_control.md R212 to R217, written out per command in
`Ready`. -/
def Obligations.ValidationPassesExactlyWhenReady : Prop :=
  ∀ (i : Instr) (memSize : Nat), validate i memSize = none ↔ Ready memSize i

/-- Step B (40_control.md R212): the scalars, in the order listed, before every later step; each failing check is
E_INVALID_PARAMETER at its word with address 0. -/
def Obligations.ScalarChecks : Prop :=
  ∀ (memSize : Nat) (full : Bool) (g k l : Grid) (size : Int) (sigma high low : F64) (scratch : Nat),
    (¬ (1 ≤ size ∧ size ≤ 65535 ∧ size % 2 = 1) →
      validate (.gauss g size sigma) memSize = some ⟨.invalidParameter, 3, 0⟩ ∧
      validate (.canny full g k scratch (.given size sigma high low)) memSize = some ⟨.invalidParameter, 6, 0⟩) ∧
    (1 ≤ size ∧ size ≤ 65535 ∧ size % 2 = 1 → fgt sigma posZero = false →
      validate (.gauss g size sigma) memSize = some ⟨.invalidParameter, 4, 0⟩ ∧
      validate (.canny full g k scratch (.given size sigma high low)) memSize = some ⟨.invalidParameter, 7, 0⟩) ∧
    (fgt high low = false →
      validate (.dthr g k l high low) memSize = some ⟨.invalidParameter, 7, 0⟩ ∧
      (GaussScalars size sigma →
        validate (.canny full g k scratch (.given size sigma high low)) memSize = some ⟨.invalidParameter, 8, 0⟩)) ∧
    (fgt high low = true → flt low posZero = true →
      validate (.dthr g k l high low) memSize = some ⟨.invalidParameter, 8, 0⟩ ∧
      (GaussScalars size sigma →
        validate (.canny full g k scratch (.given size sigma high low)) memSize = some ⟨.invalidParameter, 9, 0⟩)) ∧
    checkScalars (.canny full g k scratch .defaults) = none

/-- Step C (40_control.md R213): once the scalars pass, the first grid in word order with a bad dimension is the
error: E_INVALID_KERNEL at word 3 for CONV's kernel with an even height or width, E_INVALID_PARAMETER for any other
grid with a zero height or width. -/
def Obligations.DimensionChecks : Prop :=
  ∀ (memSize : Nat) (i : Instr) (before after : List Operand) (o : Operand) (kernel : Operand → Prop),
    (∀ b, kernel b ↔ (∃ bnd corr img ker out, i = .conv bnd corr img ker out) ∧ b.word = 3) →
    checkScalars i = none → operandsOf i = before ++ o :: after →
    (∀ b ∈ before, (kernel b → b.grid.h % 2 = 1 ∧ b.grid.w % 2 = 1) ∧ (¬ kernel b → 1 ≤ b.grid.h ∧ 1 ≤ b.grid.w)) →
    (kernel o → o.grid.h % 2 = 0 ∨ o.grid.w % 2 = 0 → validate i memSize = some ⟨.invalidKernel, 3, 0⟩) ∧
    (¬ kernel o → o.grid.h = 0 ∨ o.grid.w = 0 → validate i memSize = some ⟨.invalidParameter, o.word, 0⟩)

/-- What an operand error records (60_exceptions.md R511, 40_control.md R212 to R217): its word is that of a grid
of the command, of a scalar or of SCRATCH, its address is 0, or that operand's base for E_LAYOUT, E_RANGE and
E_OVERLAP, and the condition of its step does fail there. -/
def Obligations.OperandErrorRecords : Prop :=
  ∀ (i : Instr) (memSize : Nat) (e : BlockError), validate i memSize = some e →
    match e.code with
    | .opcode => False
    | .reserved => False
    | .invalidKernel =>
      e.info = 3 ∧ e.addr = 0 ∧
        ∃ bnd corr img ker out, i = .conv bnd corr img ker out ∧ (ker.h % 2 = 0 ∨ ker.w % 2 = 0)
    | .invalidParameter =>
      e.addr = 0 ∧ (¬ ScalarHolds i e.info ∨
        ((∀ k, ScalarHolds i k) ∧ (∀ bnd corr img ker out, i = .conv bnd corr img ker out → e.info ≠ 3) ∧
          ∃ o ∈ operandsOf i, o.word = e.info ∧ (o.grid.h = 0 ∨ o.grid.w = 0)))
    | .shapeMismatch => e.addr = 0 ∧ ∃ o ∈ operandsOf i, o.word = e.info ∧ ¬ ShapeHolds o.grid i o.word
    | .layout =>
      (∃ o ∈ operandsOf i, o.word = e.info ∧ o.grid.base = e.addr ∧
        (o.grid.base % o.es ≠ 0 ∨ o.grid.stride % o.es ≠ 0 ∨ o.grid.stride < o.grid.w * o.es)) ∨
      ∃ full img out scratch params,
        i = .canny full img out scratch params ∧ e.info = 5 ∧ e.addr = scratch ∧ scratch % 8 ≠ 0
    | .range => ∃ sp ∈ spansOf i, sp.word = e.info ∧ sp.lo = e.addr ∧ memSize < sp.hi
    | .overlap =>
      ∃ before between after a b, spansOf i = before ++ a :: between ++ b :: after ∧
        b.word = e.info ∧ b.lo = e.addr ∧ (a.role = .output ∨ b.role = .output) ∧ a.lo < b.hi ∧ b.lo < a.hi

/-- The order of steps D to G (40_control.md R210, R214 to R217, 60_exceptions.md R505): each step is reached once
every step before it passes, and within a step the first failing operand in word order is the error; for E_OVERLAP
it is the first span that meets an earlier one. -/
def Obligations.LaterChecksInOrder : Prop :=
  ∀ (memSize : Nat) (i : Instr), (∀ k, ScalarHolds i k) →
    (∀ o ∈ operandsOf i, DimensionsHold o.grid i o.word) →
    (∀ before o after, operandsOf i = before ++ o :: after →
      (∀ b ∈ before, ShapeHolds b.grid i b.word) → ¬ ShapeHolds o.grid i o.word →
      validate i memSize = some ⟨.shapeMismatch, o.word, 0⟩) ∧
    ((∀ o ∈ operandsOf i, ShapeHolds o.grid i o.word) →
      (∀ before o after, operandsOf i = before ++ o :: after →
        (∀ b ∈ before, LayoutHolds b.grid b.es) → ¬ LayoutHolds o.grid o.es →
        validate i memSize = some ⟨.layout, o.word, o.grid.base⟩) ∧
      ((∀ o ∈ operandsOf i, LayoutHolds o.grid o.es) →
        (∀ full img out scratch params, i = .canny full img out scratch params → scratch % 8 ≠ 0 →
          validate i memSize = some ⟨.layout, 5, scratch⟩) ∧
        (ScratchAligned i →
          (∀ before sp after, spansOf i = before ++ sp :: after →
            (∀ b ∈ before, b.hi ≤ memSize) → memSize < sp.hi →
            validate i memSize = some ⟨.range, sp.word, sp.lo⟩) ∧
          ((∀ sp ∈ spansOf i, sp.hi ≤ memSize) →
            ∀ before sp after, spansOf i = before ++ sp :: after →
              (before.Pairwise fun a b => ¬ SpansMeet a b) → (∃ b ∈ before, SpansMeet b sp) →
              validate i memSize = some ⟨.overlap, sp.word, sp.lo⟩))))

/-! ## The commands -/

/-- CONV (41_convolution.md R230 to R235): it completes, and every element of OUT is the sum of the rounded
products, kernel rows and columns in order from +0.0, of each coefficient with the sample it weights: flipped, or
not with CORR = 1, and +0.0 or the clamped sample outside the grid. -/
def Obligations.ConvResult : Prop :=
  ∀ (s : State) (bnd : Boundary) (corr : Bool) (img ker out : Grid) (S : Int → Int → F64),
    s.mem.wf → Ready s.straps.memSize (.conv bnd corr img ker out) →
    (∀ sy sx : Int, S sy sx =
      if 0 ≤ sy ∧ sy < img.h ∧ 0 ≤ sx ∧ sx < img.w then rdF s.mem img sy.toNat sx.toNat
      else if bnd = .zero then 0x0000000000000000
      else rdF s.mem img (min (max sy 0) (img.h - 1)).toNat (min (max sx 0) (img.w - 1)).toNat) →
    ∃ t, exec (.conv bnd corr img ker out) s = .next t ∧ Completes (.conv bnd corr img ker out) s t ∧
      ∀ y x, y < out.h → x < out.w →
        rdF t.mem out y x = canonical
          ((List.range ker.h).foldl (fun acc i => (List.range ker.w).foldl (fun acc j =>
            fadd acc (fmul (rdF s.mem ker i j)
              (if corr then S (y - (ker.h / 2 : Nat) + i) (x - (ker.w / 2 : Nat) + j)
               else S (y + (ker.h / 2 : Nat) - i) (x + (ker.w / 2 : Nat) - j)))) acc) 0x0000000000000000)

/-- GAUSS (42_gaussian.md R260, R261, R263): it completes, and every element of OUT is the density sampled there,
in the order of evaluation of R263, with the block's own EXP. -/
def Obligations.GaussResult : Prop :=
  ∀ (s : State) (out : Grid) (size : Int) (sigma : F64),
    s.mem.wf → Ready s.straps.memSize (.gauss out size sigma) →
    ∃ t, exec (.gauss out size sigma) s = .next t ∧ Completes (.gauss out size sigma) s t ∧
      ∀ i j : Nat, (i : Int) < size → (j : Int) < size →
        rdF t.mem out i j = canonical
          (fmul (fdiv fOne (fmul twoPi (fmul sigma sigma)))
            (Config.exp (fdiv (f64 (-(((i : Int) - size / 2) ^ 2 + ((j : Int) - size / 2) ^ 2)))
              (fmul fTwo (fmul sigma sigma)))))

/-- GRAD (43_gradient.md R280, R282 to R284): it completes; each magnitude is the root of the summed squares and
each direction the arctangent in degrees, reduced into [0, 360), of the two derivatives that CONV gives under
EDGE_REPLICATE for the kernels KX and KY of R281. -/
def Obligations.GradResult : Prop :=
  ∀ (s : State) (img mag dir : Grid) (KX KY : Nat → Nat → F64),
    s.mem.wf → Ready s.straps.memSize (.grad img mag dir) →
    (∀ i j, KX i j = if (i, j) = (1, 0) then fHalf else if (i, j) = (1, 2) then fNegHalf else posZero) →
    (∀ i j, KY i j = if (i, j) = (0, 1) then fHalf else if (i, j) = (2, 1) then fNegHalf else posZero) →
    ∃ t, exec (.grad img mag dir) s = .next t ∧ Completes (.grad img mag dir) s t ∧
      ∀ y x, y < img.h → x < img.w → ∃ gx gy d,
        gx = convElem .edgeReplicate false KX 3 3 (rdF s.mem img) img.h img.w y x ∧
        gy = convElem .edgeReplicate false KY 3 3 (rdF s.mem img) img.h img.w y x ∧
        d = fmul (Config.atan2 gy gx) r2d ∧
        rdF t.mem mag y x = canonical (fsqrt (fadd (fmul gx gx) (fmul gy gy))) ∧
        (isNaN d = true → rdF t.mem dir y x = canonNaN) ∧
        (flt d posZero = true →
          rdF t.mem dir y x = if orderKey (fadd d c360) = orderKey c360 then posZero else fadd d c360) ∧
        (fge d posZero = true → rdF t.mem dir y x = if isZero d then posZero else d)

/-- NMS (44_nms.md R300 to R306): it completes; a pixel whose direction is finite and whose magnitude is at least
that of both neighbours of its bin, read from MAG and padded with +0.0, keeps its bits; every other pixel is
+0.0. -/
def Obligations.NmsResult : Prop :=
  ∀ (s : State) (mag dir out : Grid) (P : Int → Int → F64),
    s.mem.wf → Ready s.straps.memSize (.nms mag dir out) →
    (∀ v u : Int, P v u =
      if 0 ≤ v ∧ v < mag.h ∧ 0 ≤ u ∧ u < mag.w then rdF s.mem mag v.toNat u.toNat else posZero) →
    ∃ t, exec (.nms mag dir out) s = .next t ∧ Completes (.nms mag dir out) s t ∧
      ∀ y x, y < mag.h → x < mag.w →
        (isFinite (rdF s.mem dir y x) = false → rdF t.mem out y x = posZero) ∧
        (isFinite (rdF s.mem dir y x) = true → ∀ (q : Nat) (dy dx : Int),
          (floorInt (fdiv (fadd (rdF s.mem dir y x) c22_5) c45)) % 4 = q →
          (q = 0 → (dy, dx) = (0, 1)) → (q = 1 → (dy, dx) = (1, -1)) → (q = 2 → (dy, dx) = (1, 0)) →
          (q = 3 → (dy, dx) = (1, 1)) →
          rdF t.mem out y x =
            if fge (rdF s.mem mag y x) (P (y - dy) (x - dx)) ∧ fge (rdF s.mem mag y x) (P (y + dy) (x + dx))
            then rdF s.mem mag y x else posZero)

/-- DTHR (45_threshold.md R320, R321, R324): it completes; STRONG is 0x01 where the value is at least HIGH and WEAK
is 0x01 where it is not but is at least LOW; every other element byte is 0x00. -/
def Obligations.DthrResult : Prop :=
  ∀ (s : State) (img strong weak : Grid) (high low : F64),
    s.mem.wf → Ready s.straps.memSize (.dthr img strong weak high low) →
    ∃ t, exec (.dthr img strong weak high low) s = .next t ∧ Completes (.dthr img strong weak high low) s t ∧
      ∀ y x, y < img.h → x < img.w →
        t.mem.read (elemAddr strong 1 y x) = (if fge (rdF s.mem img y x) high then 0x01 else 0x00) ∧
        t.mem.read (elemAddr weak 1 y x) =
          (if fge (rdF s.mem img y x) high = false ∧ fge (rdF s.mem img y x) low then 0x01 else 0x00)

/-- LINK with TRANS = 0 (46_link.md R340, R341, R346): it completes; OUT is 0x01 for the strong pixels and for the
weak ones with a strong neighbour, 0x00 for every other. -/
def Obligations.LinkSingleHop : Prop :=
  ∀ (s : State) (strong weak out : Grid),
    s.mem.wf → Ready s.straps.memSize (.link false strong weak out) →
    ∃ t, exec (.link false strong weak out) s = .next t ∧ Completes (.link false strong weak out) s t ∧
      ∀ y x, y < out.h → x < out.w →
        (t.mem.read (elemAddr out 1 y x) = 0x01 ∨ t.mem.read (elemAddr out 1 y x) = 0x00) ∧
        (t.mem.read (elemAddr out 1 y x) = 0x01 ↔
          rdM s.mem strong y x = true ∨ (rdM s.mem weak y x = true ∧
            ∃ y' x', y' < out.h ∧ x' < out.w ∧ Adjacent (y', x') (y, x) ∧ rdM s.mem strong y' x' = true))

/-- LINK with TRANS = 1 (46_link.md R342, R343): it completes, and OUT is the path form of R343: a pixel is in
OUT exactly when it is strong, or weak and joined to a strong pixel by a chain of neighbours each of which, after
the first, is weak or strong. -/
def Obligations.LinkFullIsPathForm : Prop :=
  ∀ (s : State) (strong weak out : Grid),
    s.mem.wf → Ready s.straps.memSize (.link true strong weak out) →
    ∃ t, exec (.link true strong weak out) s = .next t ∧ Completes (.link true strong weak out) s t ∧
      ∀ y x, y < out.h → x < out.w →
        (t.mem.read (elemAddr out 1 y x) = 0x01 ∨ t.mem.read (elemAddr out 1 y x) = 0x00) ∧
        (t.mem.read (elemAddr out 1 y x) = 0x01 ↔
          rdM s.mem strong y x = true ∨ (rdM s.mem weak y x = true ∧
            ∃ p : Nat × Nat, p.1 < out.h ∧ p.2 < out.w ∧ rdM s.mem strong p.1 p.2 = true ∧
              Relation.TransGen (fun a b : Nat × Nat => Adjacent a b ∧ b.1 < out.h ∧ b.2 < out.w ∧
                (rdM s.mem weak b.1 b.2 = true ∨ rdM s.mem strong b.1 b.2 = true)) p (y, x)))

/-- HOUGH (47_hough.md R360, R362, R364, R365, R367, R368): it completes; each accumulator element counts the edge
pixels whose rho, rounded to even or truncated, falls into its bin; RHOS and THETAS hold the bin values. -/
def Obligations.HoughResult : Prop :=
  ∀ (s : State) (trunc : Bool) (edges acc rhos thetas : Grid) (r : Nat → Nat → Nat → Int),
    s.mem.wf → Ready s.straps.memSize (.hough trunc edges acc rhos thetas) →
    (Instr.hough trunc edges acc rhos thetas).wellFormed = true →
    (∀ y x t, r y x t =
      (if trunc then truncInt else roundEven)
        (fadd (fmul (f64 x) (s.straps.trig.getD t (0, 0)).1) (fmul (f64 y) (s.straps.trig.getD t (0, 0)).2))) →
    ∃ t, exec (.hough trunc edges acc rhos thetas) s = .next t ∧
      Completes (.hough trunc edges acc rhos thetas) s t ∧
      (∀ b k, b < acc.h → k < acc.w →
        rdU32 t.mem acc b k =
          ((Finset.range edges.h ×ˢ Finset.range edges.w).filter fun p =>
            rdM s.mem edges p.1 p.2 = true ∧ r p.1 p.2 k + (diagLen edges.h edges.w : Int) = b).card) ∧
      (∀ k, k < rhos.w → rdF t.mem rhos 0 k = f64 ((k : Int) - diagLen edges.h edges.w)) ∧
      (∀ k, k < thetas.w → rdF t.mem thetas 0 k = fmul (f64 ((k : Int) - 90)) d2r)

/-- CANNY (48_canny.md R390 to R394, R397): it completes, and the memory it leaves is the one that the six
commands of R393 leave over its scratch grids, each of which completes with no error of its own; CANNY counts
once, the six commands six times. -/
def Obligations.CannyIsTheComposition : Prop :=
  ∀ (s : State) (full : Bool) (img out : Grid) (scratch : Nat) (p : CannyParams) (n h w : Nat),
    n = (cannySize p).toNat → h = img.h → w = img.w →
    Ready s.straps.memSize (.canny full img out scratch p) →
    ∃ t t₁ t₂ t₃ t₄ t₅ t₆,
      exec (.canny full img out scratch p) s = .next t ∧ Completes (.canny full img out scratch p) s t ∧
      exec (.gauss (scratchKg scratch n) (cannySize p) (cannySigma p)) s = .next t₁ ∧
      exec (.conv .edgeReplicate false img (scratchKg scratch n) (scratchSm scratch n h w)) t₁ = .next t₂ ∧
      exec (.grad (scratchSm scratch n h w) (scratchMg scratch n h w) (scratchDr scratch n h w)) t₂ = .next t₃ ∧
      exec (.nms (scratchMg scratch n h w) (scratchDr scratch n h w) (scratchNm scratch n h w)) t₃ = .next t₄ ∧
      exec (.dthr (scratchNm scratch n h w) (scratchSt scratch n h w) (scratchWk scratch n h w) (cannyHigh p)
        (cannyLow p)) t₄ = .next t₅ ∧
      exec (.link full (scratchSt scratch n h w) (scratchWk scratch n h w) out) t₅ = .next t₆ ∧
      t.mem = t₆.mem ∧ t₆.cmdCount = s.cmdCount + 6 ∧ t₆.err = s.err ∧ t₆.busy = s.busy

/-- Input grids are never written, and neither is the padding between the rows of an output grid (20_memory.md
R115, R116), whatever a command does. -/
def Obligations.InputsAndPaddingKept : Prop :=
  ∀ (i : Instr) (s t : State), Ready s.straps.memSize i → exec i s = .next t →
    (∀ o ∈ operandsOf i, o.role = .input →
      ∀ a, o.grid.base ≤ a → a < gridEnd o.grid o.es → t.mem.read a = s.mem.read a) ∧
    (∀ o ∈ operandsOf i, o.role = .output →
      ∀ y a, y + 1 < o.grid.h → o.grid.base + y * o.grid.stride + o.grid.w * o.es ≤ a →
        a < o.grid.base + (y + 1) * o.grid.stride → t.mem.read a = s.mem.read a)

/-- The scratch region of CANNY (48_canny.md R392): the seven grids are pairwise disjoint, and their element bytes
are exactly the bytes of the region. -/
def Obligations.ScratchGridsCoverTheRegion : Prop :=
  ∀ (scratch n h w : Nat) (L : List (List Nat)),
    L = [elemBytes (scratchKg scratch n) 8, elemBytes (scratchSm scratch n h w) 8,
      elemBytes (scratchMg scratch n h w) 8, elemBytes (scratchDr scratch n h w) 8,
      elemBytes (scratchNm scratch n h w) 8, elemBytes (scratchSt scratch n h w) 1,
      elemBytes (scratchWk scratch n h w) 1] →
    L.Pairwise List.Disjoint ∧
      ∀ a, (∃ l ∈ L, a ∈ l) ↔ scratch ≤ a ∧ a < scratch + (8 * n ^ 2 + 34 * (h * w))

/-- The defaults of CANNY (48_canny.md R390, R395): DEF = 1 has the effect of the same values written out with
DEF = 0, on memory and on every register. -/
def Obligations.CannyDefaults : Prop :=
  ∀ (s : State) (full : Bool) (img out : Grid) (scratch : Nat),
    ∃ t u, exec (.canny full img out scratch .defaults) s = .next t ∧
      exec (.canny full img out scratch
        (.given 5 0x3FF6666666666666 0x4034000000000000 0x402E000000000000)) s = .next u ∧
      u = { t with ran := u.ran }

/-! ## What the rules say of the results -/

/-- The unit impulse (41_convolution.md R238(a)): on a finite image the kernel that is 1 at its centre and 0
elsewhere returns the input, with -0.0 made +0.0, under both boundary modes and with or without the flip. -/
def Obligations.ConvUnitImpulse : Prop :=
  ∀ (s : State) (bnd : Boundary) (corr : Bool) (img ker out : Grid),
    s.mem.wf → Ready s.straps.memSize (.conv bnd corr img ker out) →
    (∀ i j, i < ker.h → j < ker.w →
      rdF s.mem ker i j = if i = ker.h / 2 ∧ j = ker.w / 2 then fOne else posZero) →
    (∀ y x, y < img.h → x < img.w → isFinite (rdF s.mem img y x) = true) →
    ∃ t, exec (.conv bnd corr img ker out) s = .next t ∧
      ∀ y x, y < img.h → x < img.w →
        rdF t.mem out y x = if isZero (rdF s.mem img y x) then posZero else rdF s.mem img y x

/-- The finite-window form of GRAD (43_gradient.md R285) and the poisoning of R280's corner cases: where the nine
samples of the clamped window are finite, the derivatives are half the difference of the two samples beside the
pixel, a zero made +0.0; where one of them is not, magnitude and direction are CANON_NAN. -/
def Obligations.GradFiniteWindow : Prop :=
  ∀ (s : State) (img mag dir : Grid) (S : Int → Int → F64),
    s.mem.wf → Ready s.straps.memSize (.grad img mag dir) →
    (∀ v u : Int, S v u =
      rdF s.mem img (min (max v 0) (img.h - 1)).toNat (min (max u 0) (img.w - 1)).toNat) →
    ∃ t, exec (.grad img mag dir) s = .next t ∧
      ∀ y x : Nat, y < img.h → x < img.w →
        ((∀ dy dx : Int, -1 ≤ dy → dy ≤ 1 → -1 ≤ dx → dx ≤ 1 → isFinite (S (y + dy) (x + dx)) = true) →
          ∃ gx gy,
            gx = fadd posZero (fadd (fmul fHalf (S y (x + 1))) (fmul fNegHalf (S y (x - 1)))) ∧
            gy = fadd posZero (fadd (fmul fHalf (S (y + 1) x)) (fmul fNegHalf (S (y - 1) x))) ∧
            isFinite gx = true ∧ isFinite gy = true ∧
            rdF t.mem mag y x = fsqrt (fadd (fmul gx gx) (fmul gy gy)) ∧
            rdF t.mem dir y x = canonical (deg360 (fmul (Config.atan2 gy gx) r2d))) ∧
        ((∃ dy dx : Int, -1 ≤ dy ∧ dy ≤ 1 ∧ -1 ≤ dx ∧ dx ≤ 1 ∧ isFinite (S (y + dy) (x + dx)) = false) →
          rdF t.mem mag y x = canonNaN ∧ rdF t.mem dir y x = canonNaN)

/-- The gradient of a finite constant image is +0.0 in magnitude and direction everywhere (43_gradient.md
R287(a)), for every ATAN2. -/
def Obligations.GradOfConstantImage : Prop :=
  ∀ (s : State) (img mag dir : Grid) (c : F64),
    s.mem.wf → Ready s.straps.memSize (.grad img mag dir) → isFinite c = true →
    (∀ y x, y < img.h → x < img.w → rdF s.mem img y x = c) →
    ∃ t, exec (.grad img mag dir) s = .next t ∧
      ∀ y x, y < img.h → x < img.w → rdF t.mem mag y x = posZero ∧ rdF t.mem dir y x = posZero

/-- The kernel of GAUSS is symmetric bit for bit (42_gaussian.md R264), for every EXP. -/
def Obligations.GaussSymmetry : Prop :=
  ∀ (s : State) (out : Grid) (size : Int) (sigma : F64) (n : Nat),
    s.mem.wf → Ready s.straps.memSize (.gauss out size sigma) → (n : Int) = size →
    ∃ t, exec (.gauss out size sigma) s = .next t ∧
      ∀ i j, i < n → j < n →
        rdF t.mem out i j = rdF t.mem out (n - 1 - i) j ∧ rdF t.mem out i j = rdF t.mem out i (n - 1 - j) ∧
          rdF t.mem out i j = rdF t.mem out j i

/-- The centre value of GAUSS (42_gaussian.md R265): it is A, whatever EXP is, for every finite positive 2σ². -/
def Obligations.GaussCentre : Prop :=
  ∀ (s : State) (out : Grid) (size : Int) (sigma : F64) (c : Nat),
    s.mem.wf → Ready s.straps.memSize (.gauss out size sigma) → (c : Int) = size / 2 →
    isFinite (fmul fTwo (fmul sigma sigma)) = true → fgt (fmul fTwo (fmul sigma sigma)) posZero = true →
    ∃ t, exec (.gauss out size sigma) s = .next t ∧
      rdF t.mem out c c = fdiv fOne (fmul twoPi (fmul sigma sigma))

/-- The properties of NMS (44_nms.md R303, R309): each pixel keeps its bits or becomes +0.0, so where no magnitude
is below zero no pixel increases; and on such a field without a NaN a second pass with the same directions changes
nothing. -/
def Obligations.NmsThinsOnce : Prop :=
  ∀ (s : State) (mag dir out again : Grid),
    s.mem.wf → Ready s.straps.memSize (.nms mag dir out) → Ready s.straps.memSize (.nms out dir again) →
    ∃ t u, exec (.nms mag dir out) s = .next t ∧ exec (.nms out dir again) t = .next u ∧
      (∀ y x, y < mag.h → x < mag.w →
        rdF t.mem out y x = rdF s.mem mag y x ∨ rdF t.mem out y x = posZero) ∧
      (∀ y x, y < mag.h → x < mag.w → fge (rdF s.mem mag y x) posZero = true →
        fge (rdF s.mem mag y x) (rdF t.mem out y x) = true) ∧
      ((∀ y x, y < mag.h → x < mag.w → fge (rdF s.mem mag y x) posZero = true) →
        ∀ y x, y < mag.h → x < mag.w → rdF u.mem again y x = rdF t.mem out y x)

/-- The partition of DTHR (45_threshold.md R322, R326): strong implies value ≥ HIGH, weak implies LOW ≤ value <
HIGH, both are equalities where the value is no NaN, and no pixel is both. -/
def Obligations.DthrPartition : Prop :=
  ∀ (s : State) (img strong weak : Grid) (high low : F64),
    s.mem.wf → Ready s.straps.memSize (.dthr img strong weak high low) →
    ∃ t, exec (.dthr img strong weak high low) s = .next t ∧
      ∀ y x, y < img.h → x < img.w → ∃ v S K,
        v = rdF s.mem img y x ∧ S = t.mem.read (elemAddr strong 1 y x) ∧ K = t.mem.read (elemAddr weak 1 y x) ∧
        (S = 0x01 ∨ S = 0x00) ∧ (K = 0x01 ∨ K = 0x00) ∧ ¬ (S = 0x01 ∧ K = 0x01) ∧
        (S = 0x01 → fge v high = true) ∧ (K = 0x01 → fge v low = true ∧ flt v high = true) ∧
        (isNaN v = false → (S = 0x01 ↔ fge v high = true) ∧
          (K = 0x01 ↔ fge v low = true ∧ flt v high = true)) ∧
        (isNaN v = true → S = 0x00 ∧ K = 0x00)

/-- The properties of LINK (46_link.md R347): every strong pixel is in OUT, every pixel of OUT is strong or weak,
for both values of TRANS; the single hop lies within the full linking, and equals it where every weak pixel is
strong or next to a strong one. -/
def Obligations.LinkBounds : Prop :=
  ∀ (s : State) (strong weak out : Grid),
    s.mem.wf → Ready s.straps.memSize (.link false strong weak out) →
    ∃ t u, exec (.link false strong weak out) s = .next t ∧ exec (.link true strong weak out) s = .next u ∧
      (∀ y x, y < out.h → x < out.w →
        (rdM s.mem strong y x = true → rdM t.mem out y x = true ∧ rdM u.mem out y x = true) ∧
        (rdM t.mem out y x = true → rdM u.mem out y x = true) ∧
        (rdM u.mem out y x = true → rdM s.mem strong y x = true ∨ rdM s.mem weak y x = true)) ∧
      ((∀ y x, y < out.h → x < out.w → rdM s.mem weak y x = true → rdM s.mem strong y x = true ∨
          ∃ y' x', y' < out.h ∧ x' < out.w ∧ Adjacent (y', x') (y, x) ∧ rdM s.mem strong y' x' = true) →
        ∀ y x, y < out.h → x < out.w → rdM t.mem out y x = rdM u.mem out y x)

/-- The origin pixel (47_hough.md R370(b)): when the only edge pixel is at (0, 0) every theta votes once, into the
bin of rho 0, under both values of TRUNC and for every legal HOUGH_TRIG. -/
def Obligations.HoughOriginVotes : Prop :=
  ∀ (s : State) (trunc : Bool) (edges acc rhos thetas : Grid),
    s.mem.wf → s.straps.Legal → Ready s.straps.memSize (.hough trunc edges acc rhos thetas) →
    (∀ y x, y < edges.h → x < edges.w → (rdM s.mem edges y x = true ↔ y = 0 ∧ x = 0)) →
    ∃ t, exec (.hough trunc edges acc rhos thetas) s = .next t ∧
      (∀ b k, b < acc.h → k < acc.w →
        rdU32 t.mem acc b k = if b = diagLen edges.h edges.w then 1 else 0) ∧
      rdF t.mem rhos 0 (diagLen edges.h edges.w) = posZero

/-- Every vote lands in the accumulator (47_hough.md R366, R370(a)): the counts of ACC sum to 180 times the number
of edge pixels, and the first and the last bin stay empty, for every legal HOUGH_TRIG. -/
def Obligations.HoughTotalVotes : Prop :=
  ∀ (s : State) (trunc : Bool) (edges acc rhos thetas : Grid),
    s.mem.wf → s.straps.Legal → Ready s.straps.memSize (.hough trunc edges acc rhos thetas) →
    (Instr.hough trunc edges acc rhos thetas).wellFormed = true →
    ∃ t, exec (.hough trunc edges acc rhos thetas) s = .next t ∧
      (∑ b ∈ Finset.range acc.h, ∑ k ∈ Finset.range acc.w, rdU32 t.mem acc b k) =
        180 * ((Finset.range edges.h ×ˢ Finset.range edges.w).filter fun p =>
          rdM s.mem edges p.1 p.2 = true).card ∧
      ∀ k, k < acc.w → rdU32 t.mem acc 0 k = 0 ∧ rdU32 t.mem acc (2 * diagLen edges.h edges.w) k = 0

/-- diag_len (47_hough.md R361): the least D with D² ≥ W² + H²; for nonzero H and W it exceeds both, and where
ACC's height 2D + 1 fits its field, H and W are at most 32766. -/
def Obligations.DiagLenIsLeast : Prop :=
  (∀ h w d : Nat, diagLen h w = d ↔ w ^ 2 + h ^ 2 ≤ d ^ 2 ∧ ∀ e, w ^ 2 + h ^ 2 ≤ e ^ 2 → d ≤ e) ∧
    ∀ h w : Nat, 1 ≤ h → 1 ≤ w → max h w + 1 ≤ diagLen h w ∧
      (2 * diagLen h w + 1 ≤ 65535 → diagLen h w ≤ 32767 ∧ h ≤ 32766 ∧ w ≤ 32766)

/-! ## The numeric primitives -/

/-- The ordered comparisons (00_scope.md R23): false when an operand is a NaN; else the order of the values, in
which +0 and -0 are equal, +inf is above every other value and -inf below every other. -/
def Obligations.OrderedComparisons : Prop :=
  ∀ a b : F64,
    (isNaN a = true ∨ isNaN b = true → fge a b = false ∧ fgt a b = false ∧ flt a b = false) ∧
    (isFinite a = true → isFinite b = true →
      (fge a b = true ↔ fixed b ≤ fixed a) ∧ (fgt a b = true ↔ fixed b < fixed a) ∧
        (flt a b = true ↔ fixed a < fixed b)) ∧
    (isNaN a = false →
      (fge posInf a = true ∧ flt posInf a = false ∧ (fgt posInf a = true ↔ a ≠ posInf)) ∧
      (fgt a posInf = false ∧ (fge a posInf = true ↔ a = posInf) ∧ (flt a posInf = true ↔ a ≠ posInf)) ∧
      (fgt negInf a = false ∧ (fge negInf a = true ↔ a = negInf) ∧ (flt negInf a = true ↔ a ≠ negInf)) ∧
      (fge a negInf = true ∧ flt a negInf = false ∧ (fgt a negInf = true ↔ a ≠ negInf))) ∧
    fge posZero negZero = true ∧ fge negZero posZero = true ∧ fgt posZero negZero = false ∧
      fgt negZero posZero = false ∧ flt posZero negZero = false ∧ flt negZero posZero = false

/-- The conversions (00_scope.md R24), each exact: `f64` below 2^53, and the greatest integer below, the integer
toward zero and the nearest integer with ties to even of a finite value; and the two classifications by the
exponent and fraction fields of R21. -/
def Obligations.IntegerConversions : Prop :=
  (∀ v : F64, (isFinite v = true ↔ v.toNat / 2 ^ 52 % 2 ^ 11 ≠ 0x7FF) ∧
    (isNaN v = true ↔ v.toNat / 2 ^ 52 % 2 ^ 11 = 0x7FF ∧ v.toNat % 2 ^ 52 ≠ 0)) ∧
  (∀ n : Int, n.natAbs < 2 ^ 53 → isFinite (f64 n) = true ∧ fixed (f64 n) = n * fixedOne) ∧ f64 0 = posZero ∧
    ∀ v : F64, isFinite v = true →
      (floorInt v * fixedOne ≤ fixed v ∧ fixed v < (floorInt v + 1) * fixedOne) ∧
      (0 ≤ fixed v → truncInt v = floorInt v) ∧
      (fixed v < 0 → (truncInt v - 1) * fixedOne < fixed v ∧ fixed v ≤ truncInt v * fixedOne) ∧
      2 * (fixed v - roundEven v * fixedOne).natAbs ≤ fixedOne ∧
      (2 * (fixed v - roundEven v * fixedOne).natAbs = fixedOne → roundEven v % 2 = 0)

/-- Rounding to nearest, ties to even (00_scope.md R22): a sum, product or quotient of finite values is finite
exactly where the exact result lies below (2^54 - 1)·2^970, halfway between the largest finite value and 2^1024,
and overflows to the infinity of its sign elsewhere; a finite one is at least as near to the exact result as any
finite value, and where another is equally near it has the even last bit. -/
def Obligations.ArithmeticIsNearest : Prop :=
  (∀ a b : F64, isFinite a = true → isFinite b = true →
    (isFinite (fadd a b) = true ↔ (fixed a + fixed b).natAbs < (2 ^ 54 - 1) * 2 ^ 970 * fixedOne) ∧
    (isFinite (fadd a b) = false → isInf (fadd a b) = true ∧ (fsign (fadd a b) = true ↔ fixed a + fixed b < 0)) ∧
    (isFinite (fmul a b) = true ↔
      (fixed a * fixed b).natAbs < (2 ^ 54 - 1) * 2 ^ 970 * fixedOne * fixedOne) ∧
    (isFinite (fmul a b) = false → isInf (fmul a b) = true ∧ (fsign (fmul a b) = true ↔ fixed a * fixed b < 0)) ∧
    (isZero b = false →
      (isFinite (fdiv a b) = true ↔
        (fixed a).natAbs < (2 ^ 54 - 1) * 2 ^ 970 * (fixed b).natAbs) ∧
      (isFinite (fdiv a b) = false → isInf (fdiv a b) = true ∧ (fsign (fdiv a b) = true ↔ fixed a * fixed b < 0)))) ∧
  ∀ a b v : F64, isFinite a = true → isFinite b = true → isFinite v = true →
    (isFinite (fadd a b) = true →
      (fixed (fadd a b) - (fixed a + fixed b)).natAbs ≤ (fixed v - (fixed a + fixed b)).natAbs ∧
      ((fixed (fadd a b) - (fixed a + fixed b)).natAbs = (fixed v - (fixed a + fixed b)).natAbs →
        fixed v ≠ fixed (fadd a b) → fmag (fadd a b) % 2 = 0)) ∧
    (isFinite (fmul a b) = true →
      (fixed (fmul a b) * fixedOne - fixed a * fixed b).natAbs ≤ (fixed v * fixedOne - fixed a * fixed b).natAbs ∧
      ((fixed (fmul a b) * fixedOne - fixed a * fixed b).natAbs = (fixed v * fixedOne - fixed a * fixed b).natAbs →
        fixed v ≠ fixed (fmul a b) → fmag (fmul a b) % 2 = 0)) ∧
    (isZero b = false → isFinite (fdiv a b) = true →
      (fixed (fdiv a b) * fixed b - fixed a * fixedOne).natAbs ≤ (fixed v * fixed b - fixed a * fixedOne).natAbs ∧
      ((fixed (fdiv a b) * fixed b - fixed a * fixedOne).natAbs = (fixed v * fixed b - fixed a * fixedOne).natAbs →
        fixed v ≠ fixed (fdiv a b) → fmag (fdiv a b) % 2 = 0))

/-- The square root (00_scope.md R22): that of a finite positive value is finite and positive, and no finite value
is nearer to the exact root. -/
def Obligations.SquareRootIsNearest : Prop :=
  ∀ a v : F64, isFinite a = true → isZero a = false → fsign a = false → isFinite v = true →
    isFinite (fsqrt a) = true ∧ fsign (fsqrt a) = false ∧ isZero (fsqrt a) = false ∧
      |(fixed (fsqrt a) : ℝ) - Real.sqrt ((fixed a : ℝ) * (fixedOne : ℝ))| ≤
        |(fixed v : ℝ) - Real.sqrt ((fixed a : ℝ) * (fixedOne : ℝ))|

/-- The special results (00_scope.md R22, R26). A NaN operand gives a NaN. A sum with an infinity is that infinity,
but NaN for infinities of opposite signs; a product with an infinity is an infinity, but NaN with a zero; a quotient
of an infinity by a finite value is an infinity, of a finite value by an infinity a zero, of two infinities NaN. A
nonzero finite value over a zero is an infinity, 0/0 is NaN, a zero times or over a finite value is a zero; every
product and quotient that is no NaN has the XOR of the signs. An exact zero sum is -0 only for two -0, so x - x is
+0; a difference is the sum with the sign flipped. The root of a zero is itself, of +inf +inf, and of any value below
zero NaN. -/
def Obligations.ArithmeticSpecialCases : Prop :=
  (∀ a b : F64, isNaN a = true ∨ isNaN b = true →
    isNaN (fadd a b) = true ∧ isNaN (fsub a b) = true ∧ isNaN (fmul a b) = true ∧ isNaN (fdiv a b) = true) ∧
  (∀ a b : F64, isInf a = true → isNaN b = false →
    (isFinite b = true → fadd a b = a ∧ fadd b a = a) ∧
    (isInf b = true → fsign a = fsign b → fadd a b = a) ∧
    (isInf b = true → fsign a ≠ fsign b → isNaN (fadd a b) = true) ∧
    (isZero b = false → isInf (fmul a b) = true ∧ isInf (fmul b a) = true) ∧
    (isZero b = true → isNaN (fmul a b) = true ∧ isNaN (fmul b a) = true) ∧
    (isFinite b = true → isInf (fdiv a b) = true ∧ isZero (fdiv b a) = true) ∧
    (isInf b = true → isNaN (fdiv a b) = true)) ∧
  (∀ a b : F64, isFinite a = true → isZero b = true →
    (isZero a = false → isInf (fdiv a b) = true ∧ isZero (fdiv b a) = true) ∧
    (isZero a = true → isNaN (fdiv a b) = true) ∧ isZero (fmul a b) = true ∧ isZero (fmul b a) = true) ∧
  (∀ a b : F64, (isNaN (fmul a b) = false → fsign (fmul a b) = (fsign a != fsign b)) ∧
    (isNaN (fdiv a b) = false → fsign (fdiv a b) = (fsign a != fsign b))) ∧
  (∀ a b : F64, isFinite a = true → isFinite b = true → fixed a + fixed b = 0 →
    fadd a b = if a = negZero ∧ b = negZero then negZero else posZero) ∧
  (∀ x : F64, isFinite x = true → fsub x x = posZero) ∧
  (∀ a b c : F64, fmag c = fmag b → fsign c = !fsign b → fsub a b = fadd a c) ∧
  (∀ a : F64, (isNaN a = true → isNaN (fsqrt a) = true) ∧ (isZero a = true → fsqrt a = a) ∧
    (flt a posZero = true → isNaN (fsqrt a) = true)) ∧ fsqrt posInf = posInf

/-- The constants (00_scope.md R25) have the bits and values of the table and are the results of the operations it
names. A sanity statement. -/
def Obligations.NamedConstants : Prop :=
  pi64 = 0x400921FB54442D18 ∧ twoPi = 0x401921FB54442D18 ∧ fmul fTwo pi64 = twoPi ∧
    r2d = 0x404CA5DC1A63C1F8 ∧ fdiv f180 pi64 = r2d ∧ d2r = 0x3F91DF46A2529D39 ∧ fdiv pi64 f180 = d2r ∧
    fHalf = 0x3FE0000000000000 ∧ fNegHalf = 0xBFE0000000000000 ∧ c22_5 = 0x4036800000000000 ∧
    c45 = 0x4046800000000000 ∧ c360 = 0x4076800000000000 ∧ canonNaN = 0x7FF8000000000000 ∧
    fmul pi64 r2d = 0x4066800000000000 ∧ fixed f180 = 180 * fixedOne ∧ 2 * fixed fHalf = fixedOne ∧
    2 * fixed fNegHalf = -fixedOne ∧ 2 * fixed c22_5 = 45 * fixedOne ∧ fixed c45 = 45 * fixedOne ∧
    fixed c360 = 360 * fixedOne ∧ isNaN canonNaN = true

/-! ## Registers, interrupts and the HOST -/

/-- START (10_state.md R60): as one step it clears the flags, the report and CMD_COUNT and sets BUSY; CMD_PTR, IER
and memory are unchanged; and it is the only step that begins a list. -/
def Obligations.StartLaunchesTheList : Prop :=
  (∀ (s : State) (rest : List Move) (d : Reg),
    s.moves = .regWrite (s.straps.mmioBase + 0x008) 4 d :: rest → d.getLsbD 0 = true → s.busy = false →
    step s = .next { s with
      done := false, err := false, errCode := 0, errAddr := 0, errInfo := 0, cmdCount := 0, busy := true,
      ran := [], moves := rest }) ∧
  ∀ s t : State, step s = .next t → s.busy = false → t.busy = true →
    ∃ rest d, s.moves = .regWrite (s.straps.mmioBase + 0x008) 4 d :: rest ∧ d.getLsbD 0 = true

/-- Writes of STATUS and IER (10_state.md R55, R57): a 1 clears DONE or ERR, a 0 leaves it; DONE_IE and ERR_IE take
bits 1 and 2; no other bit has an effect. -/
def Obligations.FlagAndEnableWrites : Prop :=
  ∀ (s : State) (rest : List Move) (d : Reg),
    (s.moves = .regWrite (s.straps.mmioBase + 0x00C) 4 d :: rest →
      step s = .next { s with
        done := if d.getLsbD 1 then false else s.done, err := if d.getLsbD 2 then false else s.err, moves := rest }) ∧
    (s.moves = .regWrite (s.straps.mmioBase + 0x010) 4 d :: rest →
      step s = .next { s with doneIE := d.getLsbD 1, errIE := d.getLsbD 2, moves := rest })

/-- Writes of CMD_PTR (10_state.md R61): while BUSY = 0 a write replaces its half's 32 bits with any value, and
nothing else changes; while BUSY = 1 it is ignored. -/
def Obligations.PointerWrites : Prop :=
  ∀ (s : State) (rest : List Move) (d : Reg) (high : Bool),
    s.moves = .regWrite (s.straps.mmioBase + (if high then 0x01C else 0x018)) 4 d :: rest →
    ∃ p, step s = .next { s with cmdPtr := p, moves := rest } ∧
      (s.busy = true → p = s.cmdPtr) ∧
      (s.busy = false →
        p.toNat = if high then d.toNat * 2 ^ 32 + s.cmdPtr.toNat % 2 ^ 32
          else s.cmdPtr.toNat / 2 ^ 32 * 2 ^ 32 + d.toNat)

/-- Writes that are ignored (10_state.md R52 to R66, 70_reset_and_hazards.md R613): of a read-only or reserved
register, of CTRL without START or while BUSY, and of any other width or alignment inside the window. That a write
which starts inside the window and runs past its end counts as one of them is the model's choice (log 11), as is
that the data is 32 bits at every width (log 13). -/
def Obligations.IgnoredWrites : Prop :=
  ∀ (s : State) (rest : List Move) (offset width : Nat) (d : Reg),
    s.moves = .regWrite (s.straps.mmioBase + offset) width d :: rest → offset < 0x100 →
    (width ≠ 4 ∨ offset % 4 ≠ 0 ∨ offset ∈ [0x000, 0x004, 0x014] ∨ 0x020 ≤ offset ∨
      (offset = 0x008 ∧ (d.getLsbD 0 = false ∨ s.busy = true))) →
    step s = .next { s with moves := rest }

/-- Reads of the register window (10_state.md R52 to R67): an aligned 32-bit read returns the register's four
bytes, least significant first; every other access, CTRL and the reserved offsets return zeros; no read changes
any state. That a read which starts inside the window and runs past its end is one of the other accesses is the
model's choice (log 11), as is the field `reply` that holds the bytes (log 12). -/
def Obligations.RegisterReads : Prop :=
  ∀ (s : State) (rest : List Move) (offset width : Nat),
    s.moves = .regRead (s.straps.mmioBase + offset) width :: rest → offset < 0x100 →
    ∃ r, step s = .next { s with reply := r, moves := rest } ∧
      (width ≠ 4 ∨ offset % 4 ≠ 0 → r = List.replicate width 0) ∧
      (width = 4 → offset % 4 = 0 → r.length = 4 ∧
        (offset = 0x000 → ofBytes r = 0x43533133) ∧
        (offset = 0x004 → ofBytes r = 0x00010000) ∧
        (offset = 0x008 → ofBytes r = 0) ∧
        (offset = 0x00C → ofBytes r = s.busy.toNat + 2 * s.done.toNat + 4 * s.err.toNat +
          8 * ((s.done && s.doneIE) || (s.err && s.errIE)).toNat) ∧
        (offset = 0x010 → ofBytes r = 2 * s.doneIE.toNat + 4 * s.errIE.toNat) ∧
        (offset = 0x014 → ofBytes r = s.errCode.toNat) ∧
        (offset = 0x018 → ofBytes r = s.cmdPtr.toNat % 2 ^ 32) ∧
        (offset = 0x01C → ofBytes r = s.cmdPtr.toNat / 2 ^ 32) ∧
        (offset = 0x020 → ofBytes r = s.errAddr.toNat % 2 ^ 32) ∧
        (offset = 0x024 → ofBytes r = s.errAddr.toNat / 2 ^ 32) ∧
        (offset = 0x028 → ofBytes r = s.errInfo.toNat) ∧
        (offset = 0x02C → ofBytes r = s.cmdCount.toNat) ∧
        (offset = 0x030 → s.straps.Legal → ofBytes r = (s.straps.memSize - 1) % 2 ^ 32) ∧
        (offset = 0x034 → s.straps.Legal → ofBytes r = (s.straps.memSize - 1) / 2 ^ 32) ∧
        (0x038 ≤ offset → ofBytes r = 0))

/-- The interrupt output (10_state.md R58, 60_exceptions.md R520, R530): after the step that ends a list it is high
exactly when that ending's enable is set, and after a START it is low. -/
def Obligations.InterruptFollowsTheFlags : Prop :=
  (∀ s : State, s.irq = true ↔ (s.done = true ∧ s.doneIE = true) ∨ (s.err = true ∧ s.errIE = true)) ∧
  (∀ s t : State, EngineNext s → s.done = false → s.err = false → step s = .next t → t.busy = false →
    (t.done = true → t.irq = s.doneIE) ∧ (t.err = true → t.irq = s.errIE)) ∧
  (∀ (s t : State) (rest : List Move) (d : Reg),
    s.moves = .regWrite (s.straps.mmioBase + 0x008) 4 d :: rest → d.getLsbD 0 = true → s.busy = false →
    step s = .next t → t.irq = false)

/-- HOST accesses of memory while no list runs (20_memory.md R103, R120): a write changes its byte and no other,
and a read returns the last value written and changes no state but the reply, the model's own field (log 12); and
an address the memory does not have (R100) stops the machine, at any time (the model's choice, log 10). -/
def Obligations.HostMemoryWhileIdle : Prop :=
  ∀ (s : State) (rest : List Move) (a : Nat) (v : Byte), s.mem.wf →
    (s.moves = .memWrite a v :: rest → s.busy = false → a < s.straps.memSize →
      ∃ m, step s = .next { s with mem := m, moves := rest } ∧ m.wf ∧
        ∀ b, m.read b = if b = a then v else s.mem.read b) ∧
    (s.moves = .memRead a :: rest → s.busy = false → a < s.straps.memSize →
      step s = .next { s with reply := [s.mem.read a], moves := rest }) ∧
    (s.moves = .memWrite a v :: rest ∨ s.moves = .memRead a :: rest → s.straps.memSize ≤ a →
      step s = .fault (.hostAddressOutsideMemory a))

/-- HOST accesses of memory while a list runs (20_memory.md R121, R122): a write to a byte of the running list is
refused (log 8) and any other write is made; a read of a byte the list writes returns one byte that nothing
constrains (log 6), and of any other byte its value. The bytes refused take in every slot of the list that stands
fixed, every operand span of the command in such a slot, whether or not it would pass validation, and every operand
span of a completed command; how the list is known before it has run is the model's reading (log 9). -/
def Obligations.HostMemoryWhileBusy : Prop :=
  ∀ (s : State) (rest : List Move) (a : Nat) (v : Byte), s.mem.wf → s.busy = true → a < s.straps.memSize →
    (s.moves = .memWrite a v :: rest → listUses { s with moves := rest } a = true →
      step s = .refused (.hostDutyBroken a)) ∧
    (s.moves = .memWrite a v :: rest → s.straps.memSize ≤ 2 ^ 63 →
      (∃ p, SlotOfList s p ∧ ((p ≤ a ∧ a < p + 128) ∨
        ∃ i, decode (fetchWords s.mem p) = .ok i ∧ InOperand i a)) ∨ (∃ i ∈ s.ran, InOperand i a) →
      step s = .refused (.hostDutyBroken a)) ∧
    (s.moves = .memWrite a v :: rest → listUses { s with moves := rest } a = false →
      ∃ m, step s = .next { s with mem := m, moves := rest } ∧ m.wf ∧
        ∀ b, m.read b = if b = a then v else s.mem.read b) ∧
    (s.moves = .memRead a :: rest → listWrites { s with moves := rest } a = true →
      ∃ b, step s = .next { s with reply := [b], draws := s.draws + 1, moves := rest }) ∧
    (s.moves = .memRead a :: rest → listWrites { s with moves := rest } a = false →
      step s = .next { s with reply := [s.mem.read a], moves := rest })

/-! ## Reset and the invariant -/

/-- The registers right after reset, as the window reads them (10_state.md R71, 70_reset_and_hazards.md R600), and
that the block stays idle (R603), whatever the memory holds at power-up (R601). `State.reset`, whose memory reads
0x00 everywhere, is one such state (the model's choice, log 3). -/
def Obligations.ResetStateRegisters : Prop :=
  State.reset = State.powerUp [] ∧ ∀ m : Memory, ∃ s, s = State.powerUp m ∧ s.mem = m ∧
    s.readReg 0x000 = 0x43533133 ∧ s.readReg 0x004 = 0x00010000 ∧
    (∀ offset ∈ [0x008, 0x00C, 0x010, 0x014, 0x018, 0x01C, 0x020, 0x024, 0x028, 0x02C], s.readReg offset = 0) ∧
    s.busy = false ∧ s.irq = false ∧
    s.readReg 0x030 = BitVec.ofNat 32 (Config.memSize - 1) ∧
    s.readReg 0x034 = BitVec.ofNat 32 ((Config.memSize - 1) / 2 ^ 32) ∧ step s = .next s

/-- The reset step (70_reset_and_hazards.md R600): at any time, BUSY or not, it answers a next state whose
registers hold their reset values, and the ENGINE then does nothing. -/
def Obligations.ResetMove : Prop :=
  ∀ (s : State) (rest : List Move), s.moves = .reset :: rest →
    ∃ t, step s = .next t ∧ t.busy = false ∧ t.done = false ∧ t.err = false ∧ t.irq = false ∧
      t.doneIE = false ∧ t.errIE = false ∧ t.errCode = 0 ∧ t.errInfo = 0 ∧ t.errAddr = 0 ∧ t.cmdPtr = 0 ∧
      t.cmdCount = 0 ∧ t.ran = [] ∧ t.straps = s.straps ∧ t.moves = rest ∧
      (∀ offset, t.readReg offset =
        if offset = 0x000 then 0x43533133 else if offset = 0x004 then 0x00010000
        else if offset = 0x030 then loHalf s.memTop else if offset = 0x034 then hiHalf s.memTop else 0) ∧
      engineStep t = .next t

/-- What a reset leaves of memory (70_reset_and_hazards.md R601, R602): every byte, but, where a list runs and the
command at CMD_PTR is not END and passes validation, the bytes that command writes, which nothing constrains. -/
def Obligations.ResetKeepsMemory : Prop :=
  ∀ (s t : State) (rest : List Move), s.mem.wf → s.moves = .reset :: rest → step s = .next t →
    t.mem.wf ∧
    (s.busy = false → t.mem = s.mem) ∧
    (∀ e, fetchCommand s = .error e → t.mem = s.mem) ∧
    (∀ i, fetchCommand s = .ok i → i = .endList ∨ validate i s.straps.memSize ≠ none → t.mem = s.mem) ∧
    (∀ i, fetchCommand s = .ok i → ∀ a, a ∉ writtenBytes i → t.mem.read a = s.mem.read a)

/-- The invariant holds right after reset, and at power-up whatever the memory holds (70_reset_and_hazards.md
R601). -/
def Obligations.ResetHasInvariant : Prop :=
  State.reset.Inv ∧
    ∀ m : Memory, m.wf → (∀ c ∈ m, c.1 < Config.memSize) → (State.powerUp m).Inv

/-- The invariant is kept by every step: of the ENGINE, of the HOST and of the reset. It says that memory keeps its
canonical form within MEM_SIZE, that at most one of BUSY, DONE and ERR is set (10_state.md R55), that the error
registers hold only what an error entry wrote since the last START (R59, R62), that CMD_COUNT counts the completed
commands of a running list (R64), that each of them was validated (40_control.md R203), and that CMD_PTR stays
aligned and within MEM_SIZE behind them (R201, R203). -/
def Obligations.StepKeepsInvariant : Prop :=
  ∀ s t : State, s.Inv → step s = .next t → t.Inv
end

