-- ==== Sys2Proof/Laws/Memory.lean ====
section
/-! SUPPORT. The laws of the memory: every operation keeps the canonical form, a read gives what was last
written, and every other byte is left alone (20_memory.md R103, R104). -/

namespace Sys2Proof.Machine

/-! ## One byte -/

@[simp] theorem Memory.read_nil (a : Nat) : Memory.read [] a = unlisted := rfl

theorem Memory.wf_nil : Memory.wf [] := ⟨List.Pairwise.nil, by simp⟩

theorem Memory.wf_tail {c : Host.Cell} {m : Memory} (h : Memory.wf (c :: m)) : Memory.wf m :=
  ⟨h.1.tail, fun d hd => h.2 d (List.mem_cons_of_mem _ hd)⟩

/-- An address that no entry names reads as unlisted. -/
theorem Memory.read_of_not_listed {m : Memory} {a : Nat} (h : ∀ c ∈ m, c.1 ≠ a) : m.read a = unlisted := by
  induction m with
  | nil => rfl
  | cons c m ih =>
    simp only [Memory.read, if_neg (h c List.mem_cons_self)]
    exact ih fun d hd => h d (List.mem_cons_of_mem _ hd)

/-- A write touches no entry but the one at its address. -/
theorem Memory.mem_write {m : Memory} {a : Nat} {v : Byte} {c : Host.Cell} (h : c ∈ m.write a v) :
    c ∈ m ∨ c = (a, v) ∧ v ≠ unlisted := by
  induction m with
  | nil => simp only [Memory.write] at h; split at h <;> simp_all
  | cons d m ih =>
    simp only [Memory.write] at h
    split at h
    · split at h
      · exact .inl h
      · rcases List.mem_cons.1 h with h | h
        · exact .inr ⟨h, ‹_›⟩
        · exact .inl h
    · split at h
      · split at h
        · exact .inl (List.mem_cons_of_mem _ h)
        · rcases List.mem_cons.1 h with h | h
          · exact .inr ⟨h, ‹_›⟩
          · exact .inl (List.mem_cons_of_mem _ h)
      · rcases List.mem_cons.1 h with h | h
        · exact .inl (h ▸ List.mem_cons_self)
        · exact (ih h).imp (List.mem_cons_of_mem _) id

/-- A write keeps the canonical form. -/
theorem Memory.write_wf {m : Memory} (h : m.wf) (a : Nat) (v : Byte) : (m.write a v).wf := by
  refine ⟨?_, fun c hc => (Memory.mem_write hc).elim (h.2 c) fun e => e.1 ▸ e.2⟩
  induction m with
  | nil => simp only [Memory.write]; split <;> simp
  | cons d m ih =>
    have hp := List.pairwise_cons.1 h.1
    simp only [Memory.write]
    split
    · split
      · exact h.1
      · refine List.pairwise_cons.2 ⟨fun c hc => ?_, h.1⟩
        rcases List.mem_cons.1 hc with rfl | hc
        · assumption
        · exact lt_trans ‹a < d.1› (hp.1 c hc)
    · split
      · split
        · exact hp.2
        · exact List.pairwise_cons.2 ⟨fun c hc => ‹a = d.1› ▸ hp.1 c hc, hp.2⟩
      · refine List.pairwise_cons.2 ⟨fun c hc => ?_, ih (Memory.wf_tail h)⟩
        rcases Memory.mem_write hc with hc | ⟨rfl, -⟩
        · exact hp.1 c hc
        · show d.1 < a
          omega

/-- Every other byte is left alone. -/
theorem Memory.read_write_ne (m : Memory) {a b : Nat} (v : Byte) (h : b ≠ a) : (m.write a v).read b = m.read b := by
  induction m with
  | nil => simp only [Memory.write]; split <;> simp [Memory.read, h.symm]
  | cons d m ih =>
    simp only [Memory.write]
    split
    · split <;> simp [Memory.read, h.symm]
    · split
      · have : d.1 ≠ b := by omega
        split <;> simp [Memory.read, h.symm, this]
      · simp only [Memory.read, ih]

/-- A read after a write to the same byte gives the byte written. -/
theorem Memory.read_write_same {m : Memory} (h : m.wf) (a : Nat) (v : Byte) : (m.write a v).read a = v := by
  induction m with
  | nil => simp only [Memory.write]; split <;> simp_all [Memory.read]
  | cons d m ih =>
    have hp := List.pairwise_cons.1 h.1
    simp only [Memory.write]
    split
    · split
      · rename_i hv
        rw [hv]
        refine Memory.read_of_not_listed fun c hc => ?_
        rcases List.mem_cons.1 hc with rfl | hc
        · omega
        · have := hp.1 c hc; omega
      · simp [Memory.read]
    · split
      · split
        · rename_i hv
          rw [hv]
          exact Memory.read_of_not_listed fun c hc => by have := hp.1 c hc; omega
        · simp [Memory.read]
      · have : d.1 ≠ a := by omega
        simp only [Memory.read, if_neg this, ih (Memory.wf_tail h)]

/-- The two laws in one. -/
theorem Memory.read_write {m : Memory} (h : m.wf) (a b : Nat) (v : Byte) :
    (m.write a v).read b = if b = a then v else m.read b := by
  split
  · subst_vars; exact Memory.read_write_same h _ v
  · exact Memory.read_write_ne m v ‹_›

/-- A byte that a canonical memory lists reads as listed. -/
theorem Memory.read_of_mem {m : Memory} (h : m.wf) {c : Host.Cell} (hc : c ∈ m) : m.read c.1 = c.2 := by
  induction m with
  | nil => simp at hc
  | cons d m ih =>
    rcases List.mem_cons.1 hc with rfl | hc
    · simp [Memory.read]
    · have := (List.pairwise_cons.1 h.1).1 c hc
      have : d.1 ≠ c.1 := by omega
      simp only [Memory.read, if_neg this, ih (Memory.wf_tail h) hc]

/-- A byte that does not read as unlisted is listed. -/
theorem Memory.mem_of_read {m : Memory} {a : Nat} (h : m.read a ≠ unlisted) : (a, m.read a) ∈ m := by
  induction m with
  | nil => simp at h
  | cons d m ih =>
    by_cases hd : d.1 = a
    · simp [Memory.read, ← hd]
    · simp only [Memory.read, if_neg hd] at h ⊢
      exact List.mem_cons_of_mem _ (ih h)

/-- Two canonical memories that read alike are equal data. -/
theorem Memory.eq_of_read {m n : Memory} (hm : m.wf) (hn : n.wf) (h : ∀ a, m.read a = n.read a) : m = n := by
  have mem : ∀ {m n : Memory}, m.wf → (∀ a, m.read a = n.read a) → ∀ c ∈ m, c ∈ n := fun hm h c hc => by
    have hr := Memory.read_of_mem hm hc
    have : (c.1, _) ∈ _ := Memory.mem_of_read (m := _) (a := c.1) (by rw [← h, hr]; exact hm.2 c hc)
    rwa [← h, hr] at this
  refine List.Perm.eq_of_pairwise (le := fun c d : Host.Cell => c.1 < d.1) ?_ hm.1 hn.1 ?_
  · intro a b _ _ hab hba; omega
  · have nd : ∀ {m : Memory}, m.wf → m.Nodup := fun hm => hm.1.imp fun hlt => by rintro rfl; omega
    exact (List.perm_ext_iff_of_nodup (nd hm) (nd hn)).2 fun c => ⟨mem hm h c, mem hn (fun a => (h a).symm) c⟩

/-! ## Many bytes -/

@[simp] theorem Memory.writeCells_nil (m : Memory) : m.writeCells [] = m := rfl

@[simp] theorem Memory.writeCells_cons (m : Memory) (c : Host.Cell) (cells : List Host.Cell) :
    m.writeCells (c :: cells) = (m.writeCells cells).write c.1 c.2 := rfl

theorem Memory.writeCells_append (m : Memory) (cs ds : List Host.Cell) :
    m.writeCells (cs ++ ds) = (m.writeCells ds).writeCells cs := by
  simp [Memory.writeCells]

theorem Memory.writeCells_wf {m : Memory} (h : m.wf) (cells : List Host.Cell) : (m.writeCells cells).wf := by
  induction cells with
  | nil => exact h
  | cons c cells ih => exact Memory.write_wf ih _ _

theorem Memory.mem_writeCells {m : Memory} {cells : List Host.Cell} {c : Host.Cell}
    (h : c ∈ m.writeCells cells) : c ∈ m ∨ c ∈ cells := by
  induction cells with
  | nil => exact .inl h
  | cons d cells ih =>
    rcases Memory.mem_write h with h | ⟨rfl, -⟩
    · exact (ih h).imp id (List.mem_cons_of_mem _)
    · exact .inr List.mem_cons_self

/-- A byte that is not among the cells written is left alone. -/
theorem Memory.read_writeCells_of_notMem (m : Memory) {cells : List Host.Cell} {a : Nat}
    (h : a ∉ cells.map Prod.fst) : (m.writeCells cells).read a = m.read a := by
  induction cells with
  | nil => rfl
  | cons c cells ih =>
    simp only [List.map_cons, List.mem_cons, not_or] at h
    rw [Memory.writeCells_cons, Memory.read_write_ne _ _ h.1, ih h.2]

/-- A byte among cells with distinct addresses reads as written. -/
theorem Memory.read_writeCells_of_mem {m : Memory} (hm : m.wf) {cells : List Host.Cell} {a : Nat} {v : Byte}
    (hd : (cells.map Prod.fst).Nodup) (h : (a, v) ∈ cells) : (m.writeCells cells).read a = v := by
  induction cells with
  | nil => simp at h
  | cons c cells ih =>
    simp only [List.map_cons, List.nodup_cons] at hd
    rw [Memory.writeCells_cons, Memory.read_write (Memory.writeCells_wf hm cells)]
    rcases List.mem_cons.1 h with rfl | h
    · simp
    · have : a ≠ c.1 := fun e => hd.1 (e ▸ List.mem_map_of_mem (f := Prod.fst) h)
      rw [if_neg this, ih hd.2 h]

/-! ## Little-endian numbers -/

theorem Memory.readLE_lt (m : Memory) (a n : Nat) : m.readLE a n < 256 ^ n := by
  induction n generalizing a with
  | zero => simp [Memory.readLE]
  | succ n ih =>
    have h1 := ih (a + 1)
    have h2 : (m.read a).toNat < 256 := (m.read a).isLt
    simp only [Memory.readLE, pow_succ]
    omega

/-- A number depends on its own bytes only. -/
theorem Memory.readLE_congr {m m' : Memory} {a n : Nat} (h : ∀ b, a ≤ b → b < a + n → m.read b = m'.read b) :
    m.readLE a n = m'.readLE a n := by
  induction n generalizing a with
  | zero => rfl
  | succ n ih =>
    simp only [Memory.readLE]
    rw [h a (le_refl _) (by omega), ih fun b hb hb' => h b (by omega) (by omega)]

theorem cellsLE_keys (a n v : Nat) : (cellsLE a n v).map Prod.fst = List.range' a n := by
  induction n generalizing a v with
  | zero => rfl
  | succ n ih => simp [cellsLE, ih, List.range'_succ]

/-- A memory that holds the bytes of a number reads as the number. -/
theorem Memory.readLE_of_cells {m : Memory} {a n v : Nat} (h : ∀ c ∈ cellsLE a n v, m.read c.1 = c.2) :
    m.readLE a n = v % 256 ^ n := by
  induction n generalizing a v with
  | zero => simp [Memory.readLE, Nat.mod_one]
  | succ n ih =>
    simp only [cellsLE, List.mem_cons, forall_eq_or_imp] at h
    simp only [Memory.readLE]
    rw [h.1, ih h.2, BitVec.toNat_ofNat, Nat.pow_succ' (n := n)]
    exact (Nat.mod_mul (x := v) (a := 256) (b := 256 ^ n)).symm

end Sys2Proof.Machine
end

