-- ==== Sys2Proof/Laws/Grid.lean ====
section
/-! SUPPORT. The laws of grids (00_scope.md R18, R20, 20_memory.md R114, R115): where elements lie, and what a
memory reads as after every element of a grid is written. -/

namespace Sys2Proof.Machine

/-! ## Pixels and addresses -/

@[simp] theorem mem_pixels {h w : Nat} {p : Nat × Nat} : p ∈ pixels h w ↔ p.1 < h ∧ p.2 < w := by
  obtain ⟨y, x⟩ := p
  simp only [pixels, List.mem_flatMap, List.mem_range, List.mem_map, Prod.mk.injEq]
  constructor
  · rintro ⟨_, hy, _, hx, rfl, rfl⟩; exact ⟨hy, hx⟩
  · rintro ⟨hy, hx⟩; exact ⟨y, hy, x, hx, rfl, rfl⟩

theorem pixels_nodup (h w : Nat) : (pixels h w).Nodup := by
  rw [pixels, List.nodup_flatMap]
  refine ⟨fun y _ => List.nodup_range.map fun a b e => (Prod.mk.inj e).2, ?_⟩
  refine List.nodup_range.imp fun {a b} hab => ?_
  simp only [Function.onFun, List.disjoint_left, List.mem_map]
  rintro _ ⟨x, -, rfl⟩ ⟨x', -, e⟩
  exact hab (Prod.mk.inj e).1.symm

theorem pixels_length (h w : Nat) : (pixels h w).length = h * w := by
  simp [pixels, List.length_flatMap]

/-- An element lies in its row. -/
theorem elem_in_row {w es x : Nat} (hx : x < w) : x * es + es ≤ w * es := by
  calc x * es + es = (x + 1) * es := by ring
    _ ≤ w * es := Nat.mul_le_mul_right _ hx

/-- An element lies in the span of its grid (20_memory.md R114). -/
theorem elem_in_span {g : Grid} {es y x : Nat} (hy : y < g.h) (hx : x < g.w) :
    g.base ≤ elemAddr g es y x ∧ elemAddr g es y x + es ≤ gridEnd g es := by
  have hr := elem_in_row (es := es) hx
  have hs : y * g.stride ≤ (g.h - 1) * g.stride := Nat.mul_le_mul_right _ (by omega)
  simp only [elemAddr, gridEnd]
  omega

/-- Elements of one row that are not the same do not share a byte. -/
theorem elem_apart_in_row {es x x' : Nat} (h : x < x') : x * es + es ≤ x' * es := elem_in_row h

/-- Elements that are not the same do not share a byte, where rows fit in the stride. -/
theorem elem_apart {g : Grid} {es y x y' x' : Nat} (hl : g.w * es ≤ g.stride) (hx : x < g.w) (hx' : x' < g.w)
    (hne : (y, x) ≠ (y', x')) :
    elemAddr g es y x + es ≤ elemAddr g es y' x' ∨ elemAddr g es y' x' + es ≤ elemAddr g es y x := by
  have hr := elem_in_row (es := es) hx
  have hr' := elem_in_row (es := es) hx'
  simp only [elemAddr]
  rcases lt_trichotomy y y' with h | rfl | h
  · have : y * g.stride + g.stride ≤ y' * g.stride := elem_in_row h
    omega
  · rcases lt_trichotomy x x' with h | rfl | h
    · have := elem_apart_in_row (es := es) h; omega
    · exact absurd rfl hne
    · have := elem_apart_in_row (es := es) h; omega
  · have : y' * g.stride + g.stride ≤ y * g.stride := elem_in_row h
    omega

theorem mem_elemBytes {g : Grid} {es a : Nat} :
    a ∈ elemBytes g es ↔
      ∃ y x, y < g.h ∧ x < g.w ∧ elemAddr g es y x ≤ a ∧ a < elemAddr g es y x + es := by
  simp only [elemBytes, List.mem_flatMap, mem_pixels, List.mem_range'_1, Prod.exists]
  constructor
  · rintro ⟨y, x, ⟨hy, hx⟩, ha⟩; exact ⟨y, x, hy, hx, ha⟩
  · rintro ⟨y, x, hy, hx, ha⟩; exact ⟨y, x, ⟨hy, hx⟩, ha⟩

/-- The element bytes of a grid lie in its span. -/
theorem elemBytes_in_span {g : Grid} {es a : Nat} (h : a ∈ elemBytes g es) : g.base ≤ a ∧ a < gridEnd g es := by
  obtain ⟨y, x, hy, hx, h1, h2⟩ := mem_elemBytes.1 h
  have := elem_in_span (es := es) hy hx
  omega

theorem elemBytes_nodup {g : Grid} {es : Nat} (hl : g.w * es ≤ g.stride) : (elemBytes g es).Nodup := by
  rw [elemBytes, List.nodup_flatMap]
  refine ⟨fun p _ => List.nodup_range', ?_⟩
  refine List.Pairwise.imp_of_mem ?_ (pixels_nodup g.h g.w)
  rintro ⟨y, x⟩ ⟨y', x'⟩ hp hp' hne
  rw [mem_pixels] at hp hp'
  have := elem_apart hl hp.2 hp'.2 hne
  simp only [Function.onFun, List.disjoint_left, List.mem_range'_1] at this ⊢
  intro a
  omega

/-! ## The cells of a grid -/

theorem gridCells_keys (g : Grid) (es : Nat) (f : Nat → Nat → Nat) :
    (gridCells g es f).map Prod.fst = elemBytes g es := by
  simp [gridCells, elemBytes, List.map_flatMap, cellsLE_keys]

theorem mem_gridCells {g : Grid} {es : Nat} {f : Nat → Nat → Nat} {y x : Nat} (hy : y < g.h) (hx : x < g.w)
    {c : Host.Cell} (hc : c ∈ cellsLE (elemAddr g es y x) es (f y x)) : c ∈ gridCells g es f :=
  List.mem_flatMap.2 ⟨(y, x), mem_pixels.2 ⟨hy, hx⟩, hc⟩

/-- Every byte that is no element byte is left alone. -/
theorem read_gridCells_other (m : Memory) {g : Grid} {es a : Nat} (f : Nat → Nat → Nat) (h : a ∉ elemBytes g es) :
    (m.writeCells (gridCells g es f)).read a = m.read a :=
  Memory.read_writeCells_of_notMem m (by rwa [gridCells_keys])

/-- Every element reads as written. -/
theorem readLE_gridCells {m : Memory} (hm : m.wf) {g : Grid} {es y x : Nat} (f : Nat → Nat → Nat)
    (hl : g.w * es ≤ g.stride) (hy : y < g.h) (hx : x < g.w) :
    (m.writeCells (gridCells g es f)).readLE (elemAddr g es y x) es = f y x % 256 ^ es :=
  Memory.readLE_of_cells fun c hc =>
    Memory.read_writeCells_of_mem hm (by rw [gridCells_keys]; exact elemBytes_nodup hl)
      (v := c.2) (a := c.1) (mem_gridCells hy hx hc)

/-- Numbers in a range without element bytes of the grid read as before. -/
theorem readLE_gridCells_other (m : Memory) {g : Grid} {es a n : Nat} (f : Nat → Nat → Nat)
    (h : a + n ≤ g.base ∨ gridEnd g es ≤ a) :
    (m.writeCells (gridCells g es f)).readLE a n = m.readLE a n :=
  Memory.readLE_congr fun b hb hb' => read_gridCells_other m f fun hm => by
    have := elemBytes_in_span hm
    omega

/-! ## Elements after a grid is written -/

/-- An F64 grid reads as it was written. -/
theorem rdF_cellsF {m : Memory} (hm : m.wf) {g : Grid} {y x : Nat} (f : Nat → Nat → F64)
    (hl : g.w * 8 ≤ g.stride) (hy : y < g.h) (hx : x < g.w) : rdF (m.writeCells (cellsF g f)) g y x = f y x := by
  rw [rdF, cellsF, readLE_gridCells hm _ hl hy hx]
  apply BitVec.eq_of_toNat_eq
  have := (f y x).isLt
  rw [BitVec.toNat_ofNat]
  omega

/-- A MASK8 grid reads as it was written. -/
theorem rdM_cellsM {m : Memory} (hm : m.wf) {g : Grid} {y x : Nat} (f : Nat → Nat → Bool)
    (hl : g.w * 1 ≤ g.stride) (hy : y < g.h) (hx : x < g.w) : rdM (m.writeCells (cellsM g f)) g y x = f y x := by
  have h := readLE_gridCells hm (es := 1) (fun y x => (f y x).toNat) hl hy hx
  rw [rdM, cellsM]
  generalize m.writeCells (gridCells g 1 fun y x => (f y x).toNat) = k at *
  simp only [Memory.readLE] at h
  cases hf : f y x <;> simp [hf] at h ⊢
  · exact BitVec.eq_of_toNat_eq h
  · intro h0; simp [h0] at h

/-- The byte of a MASK8 element as it was written: 0x01 or 0x00 (20_memory.md R107). -/
theorem read_cellsM {m : Memory} (hm : m.wf) {g : Grid} {y x : Nat} (f : Nat → Nat → Bool)
    (hl : g.w * 1 ≤ g.stride) (hy : y < g.h) (hx : x < g.w) :
    (m.writeCells (cellsM g f)).read (elemAddr g 1 y x) = if f y x then 1 else 0 := by
  have h := readLE_gridCells hm (es := 1) (fun y x => (f y x).toNat) hl hy hx
  rw [cellsM]
  generalize m.writeCells (gridCells g 1 fun y x => (f y x).toNat) = k at *
  simp only [Memory.readLE] at h
  cases hf : f y x <;> simp [hf] at h ⊢ <;> exact BitVec.eq_of_toNat_eq h

/-- A U32 grid reads as it was written, modulo 2^32. -/
theorem rdU32_cellsU32 {m : Memory} (hm : m.wf) {g : Grid} {y x : Nat} (f : Nat → Nat → Nat)
    (hl : g.w * 4 ≤ g.stride) (hy : y < g.h) (hx : x < g.w) :
    rdU32 (m.writeCells (cellsU32 g f)) g y x = f y x % 2 ^ 32 := by
  rw [rdU32, cellsU32, readLE_gridCells hm _ hl hy hx]
  norm_num

/-- An F64 element outside the span of the grid written reads as before. -/
theorem rdF_gridCells_other (m : Memory) {g k : Grid} {es y x : Nat} (f : Nat → Nat → Nat) (hy : y < k.h)
    (hx : x < k.w) (h : gridEnd k 8 ≤ g.base ∨ gridEnd g es ≤ k.base) :
    rdF (m.writeCells (gridCells g es f)) k y x = rdF m k y x := by
  have := elem_in_span (es := 8) hy hx
  rw [rdF, rdF, readLE_gridCells_other m f (by omega)]

/-- A MASK8 element outside the span of the grid written reads as before. -/
theorem rdM_gridCells_other (m : Memory) {g k : Grid} {es y x : Nat} (f : Nat → Nat → Nat) (hy : y < k.h)
    (hx : x < k.w) (h : gridEnd k 1 ≤ g.base ∨ gridEnd g es ≤ k.base) :
    rdM (m.writeCells (gridCells g es f)) k y x = rdM m k y x := by
  have := elem_in_span (es := 1) hy hx
  rw [rdM, rdM, read_gridCells_other m f fun hm => by have := elemBytes_in_span hm; omega]

/-- A U32 element outside the span of the grid written reads as before. -/
theorem rdU32_gridCells_other (m : Memory) {g k : Grid} {es y x : Nat} (f : Nat → Nat → Nat) (hy : y < k.h)
    (hx : x < k.w) (h : gridEnd k 4 ≤ g.base ∨ gridEnd g es ≤ k.base) :
    rdU32 (m.writeCells (gridCells g es f)) k y x = rdU32 m k y x := by
  have := elem_in_span (es := 4) hy hx
  rw [rdU32, rdU32, readLE_gridCells_other m f (by omega)]

end Sys2Proof.Machine
end

