-- ==== Sys2Proof/Laws/State.lean ====
section
/-! SUPPORT. What each update of the state does to each field, so that no proof unfolds a record update. -/

namespace Sys2Proof.Machine

/-! ## ERROR ENTRY (60_exceptions.md R510) -/

@[simp] theorem State.raise_busy (s : State) (e : BlockError) : (s.raise e).busy = false := rfl
@[simp] theorem State.raise_done (s : State) (e : BlockError) : (s.raise e).done = s.done := rfl
@[simp] theorem State.raise_err (s : State) (e : BlockError) : (s.raise e).err = true := rfl
@[simp] theorem State.raise_doneIE (s : State) (e : BlockError) : (s.raise e).doneIE = s.doneIE := rfl
@[simp] theorem State.raise_errIE (s : State) (e : BlockError) : (s.raise e).errIE = s.errIE := rfl
@[simp] theorem State.raise_errCode (s : State) (e : BlockError) : (s.raise e).errCode = e.code.number := rfl
@[simp] theorem State.raise_errAddr (s : State) (e : BlockError) : (s.raise e).errAddr = BitVec.ofNat 64 e.addr := rfl
@[simp] theorem State.raise_errInfo (s : State) (e : BlockError) : (s.raise e).errInfo = BitVec.ofNat 4 e.info := rfl
@[simp] theorem State.raise_cmdPtr (s : State) (e : BlockError) : (s.raise e).cmdPtr = s.cmdPtr := rfl
@[simp] theorem State.raise_cmdCount (s : State) (e : BlockError) : (s.raise e).cmdCount = s.cmdCount := rfl
@[simp] theorem State.raise_mem (s : State) (e : BlockError) : (s.raise e).mem = s.mem := rfl
@[simp] theorem State.raise_straps (s : State) (e : BlockError) : (s.raise e).straps = s.straps := rfl
@[simp] theorem State.raise_ran (s : State) (e : BlockError) : (s.raise e).ran = [] := rfl
@[simp] theorem State.raise_moves (s : State) (e : BlockError) : (s.raise e).moves = s.moves := rfl
@[simp] theorem State.raise_reply (s : State) (e : BlockError) : (s.raise e).reply = s.reply := rfl
@[simp] theorem State.raise_draws (s : State) (e : BlockError) : (s.raise e).draws = s.draws := rfl

/-! ## START (10_state.md R60) -/

@[simp] theorem State.start_busy (s : State) : (s.start).busy = true := rfl
@[simp] theorem State.start_done (s : State) : (s.start).done = false := rfl
@[simp] theorem State.start_err (s : State) : (s.start).err = false := rfl
@[simp] theorem State.start_doneIE (s : State) : (s.start).doneIE = s.doneIE := rfl
@[simp] theorem State.start_errIE (s : State) : (s.start).errIE = s.errIE := rfl
@[simp] theorem State.start_errCode (s : State) : (s.start).errCode = 0x00 := rfl
@[simp] theorem State.start_errAddr (s : State) : (s.start).errAddr = 0 := rfl
@[simp] theorem State.start_errInfo (s : State) : (s.start).errInfo = 0 := rfl
@[simp] theorem State.start_cmdPtr (s : State) : (s.start).cmdPtr = s.cmdPtr := rfl
@[simp] theorem State.start_cmdCount (s : State) : (s.start).cmdCount = 0 := rfl
@[simp] theorem State.start_mem (s : State) : (s.start).mem = s.mem := rfl
@[simp] theorem State.start_straps (s : State) : (s.start).straps = s.straps := rfl
@[simp] theorem State.start_ran (s : State) : (s.start).ran = [] := rfl
@[simp] theorem State.start_moves (s : State) : (s.start).moves = s.moves := rfl
@[simp] theorem State.start_reply (s : State) : (s.start).reply = s.reply := rfl
@[simp] theorem State.start_draws (s : State) : (s.start).draws = s.draws := rfl

/-! ## The end of a list (40_control.md R204) -/

@[simp] theorem State.finish_busy (s : State) : (s.finish).busy = false := rfl
@[simp] theorem State.finish_done (s : State) : (s.finish).done = true := rfl
@[simp] theorem State.finish_err (s : State) : (s.finish).err = s.err := rfl
@[simp] theorem State.finish_doneIE (s : State) : (s.finish).doneIE = s.doneIE := rfl
@[simp] theorem State.finish_errIE (s : State) : (s.finish).errIE = s.errIE := rfl
@[simp] theorem State.finish_errCode (s : State) : (s.finish).errCode = s.errCode := rfl
@[simp] theorem State.finish_errAddr (s : State) : (s.finish).errAddr = s.errAddr := rfl
@[simp] theorem State.finish_errInfo (s : State) : (s.finish).errInfo = s.errInfo := rfl
@[simp] theorem State.finish_cmdPtr (s : State) : (s.finish).cmdPtr = s.cmdPtr := rfl
@[simp] theorem State.finish_cmdCount (s : State) : (s.finish).cmdCount = s.cmdCount := rfl
@[simp] theorem State.finish_mem (s : State) : (s.finish).mem = s.mem := rfl
@[simp] theorem State.finish_straps (s : State) : (s.finish).straps = s.straps := rfl
@[simp] theorem State.finish_ran (s : State) : (s.finish).ran = [] := rfl
@[simp] theorem State.finish_moves (s : State) : (s.finish).moves = s.moves := rfl
@[simp] theorem State.finish_reply (s : State) : (s.finish).reply = s.reply := rfl
@[simp] theorem State.finish_draws (s : State) : (s.finish).draws = s.draws := rfl

/-! ## The completion of a command (40_control.md R203) -/

@[simp] theorem State.complete_busy (s : State) (i : Instr) (m : Memory) : (s.complete i m).busy = s.busy := rfl
@[simp] theorem State.complete_done (s : State) (i : Instr) (m : Memory) : (s.complete i m).done = s.done := rfl
@[simp] theorem State.complete_err (s : State) (i : Instr) (m : Memory) : (s.complete i m).err = s.err := rfl
@[simp] theorem State.complete_doneIE (s : State) (i : Instr) (m : Memory) : (s.complete i m).doneIE = s.doneIE := rfl
@[simp] theorem State.complete_errIE (s : State) (i : Instr) (m : Memory) : (s.complete i m).errIE = s.errIE := rfl
@[simp] theorem State.complete_errCode (s : State) (i : Instr) (m : Memory) : (s.complete i m).errCode = s.errCode := rfl
@[simp] theorem State.complete_errAddr (s : State) (i : Instr) (m : Memory) : (s.complete i m).errAddr = s.errAddr := rfl
@[simp] theorem State.complete_errInfo (s : State) (i : Instr) (m : Memory) : (s.complete i m).errInfo = s.errInfo := rfl
@[simp] theorem State.complete_cmdPtr (s : State) (i : Instr) (m : Memory) : (s.complete i m).cmdPtr = s.cmdPtr + 128 := rfl
@[simp] theorem State.complete_cmdCount (s : State) (i : Instr) (m : Memory) : (s.complete i m).cmdCount = s.cmdCount + 1 := rfl
@[simp] theorem State.complete_mem (s : State) (i : Instr) (m : Memory) : (s.complete i m).mem = m := rfl
@[simp] theorem State.complete_straps (s : State) (i : Instr) (m : Memory) : (s.complete i m).straps = s.straps := rfl
@[simp] theorem State.complete_ran (s : State) (i : Instr) (m : Memory) : (s.complete i m).ran = s.ran ++ [i] := rfl
@[simp] theorem State.complete_moves (s : State) (i : Instr) (m : Memory) : (s.complete i m).moves = s.moves := rfl
@[simp] theorem State.complete_reply (s : State) (i : Instr) (m : Memory) : (s.complete i m).reply = s.reply := rfl
@[simp] theorem State.complete_draws (s : State) (i : Instr) (m : Memory) : (s.complete i m).draws = s.draws := rfl

/-! ## Reset (10_state.md R71) -/

@[simp] theorem State.resetRegisters_busy (s : State) : (s.resetRegisters).busy = false := rfl
@[simp] theorem State.resetRegisters_done (s : State) : (s.resetRegisters).done = false := rfl
@[simp] theorem State.resetRegisters_err (s : State) : (s.resetRegisters).err = false := rfl
@[simp] theorem State.resetRegisters_doneIE (s : State) : (s.resetRegisters).doneIE = false := rfl
@[simp] theorem State.resetRegisters_errIE (s : State) : (s.resetRegisters).errIE = false := rfl
@[simp] theorem State.resetRegisters_errCode (s : State) : (s.resetRegisters).errCode = 0x00 := rfl
@[simp] theorem State.resetRegisters_errAddr (s : State) : (s.resetRegisters).errAddr = 0 := rfl
@[simp] theorem State.resetRegisters_errInfo (s : State) : (s.resetRegisters).errInfo = 0 := rfl
@[simp] theorem State.resetRegisters_cmdPtr (s : State) : (s.resetRegisters).cmdPtr = 0 := rfl
@[simp] theorem State.resetRegisters_cmdCount (s : State) : (s.resetRegisters).cmdCount = 0 := rfl
@[simp] theorem State.resetRegisters_mem (s : State) : (s.resetRegisters).mem = s.mem := rfl
@[simp] theorem State.resetRegisters_straps (s : State) : (s.resetRegisters).straps = s.straps := rfl
@[simp] theorem State.resetRegisters_ran (s : State) : (s.resetRegisters).ran = [] := rfl
@[simp] theorem State.resetRegisters_moves (s : State) : (s.resetRegisters).moves = s.moves := rfl
@[simp] theorem State.resetRegisters_reply (s : State) : (s.resetRegisters).reply = [] := rfl
@[simp] theorem State.resetRegisters_draws (s : State) : (s.resetRegisters).draws = s.draws := rfl

/-! ## Power-up (70_reset_and_hazards.md R601) -/

@[simp] theorem State.powerUp_mem (m : Memory) : (State.powerUp m).mem = m := rfl
@[simp] theorem State.powerUp_busy (m : Memory) : (State.powerUp m).busy = false := rfl
@[simp] theorem State.powerUp_straps (m : Memory) : (State.powerUp m).straps = State.reset.straps := rfl
@[simp] theorem State.powerUp_moves (m : Memory) : (State.powerUp m).moves = [] := rfl
@[simp] theorem State.powerUp_nil : State.powerUp [] = State.reset := rfl

/-! ## A write of STATUS (10_state.md R55) -/

@[simp] theorem State.writeStatus_busy (s : State) (d : Reg) : (s.writeStatus d).busy = s.busy := rfl
@[simp] theorem State.writeStatus_done (s : State) (d : Reg) : (s.writeStatus d).done = (s.done && !d.getLsbD 1) := rfl
@[simp] theorem State.writeStatus_err (s : State) (d : Reg) : (s.writeStatus d).err = (s.err && !d.getLsbD 2) := rfl
@[simp] theorem State.writeStatus_doneIE (s : State) (d : Reg) : (s.writeStatus d).doneIE = s.doneIE := rfl
@[simp] theorem State.writeStatus_errIE (s : State) (d : Reg) : (s.writeStatus d).errIE = s.errIE := rfl
@[simp] theorem State.writeStatus_errCode (s : State) (d : Reg) : (s.writeStatus d).errCode = s.errCode := rfl
@[simp] theorem State.writeStatus_errAddr (s : State) (d : Reg) : (s.writeStatus d).errAddr = s.errAddr := rfl
@[simp] theorem State.writeStatus_errInfo (s : State) (d : Reg) : (s.writeStatus d).errInfo = s.errInfo := rfl
@[simp] theorem State.writeStatus_cmdPtr (s : State) (d : Reg) : (s.writeStatus d).cmdPtr = s.cmdPtr := rfl
@[simp] theorem State.writeStatus_cmdCount (s : State) (d : Reg) : (s.writeStatus d).cmdCount = s.cmdCount := rfl
@[simp] theorem State.writeStatus_mem (s : State) (d : Reg) : (s.writeStatus d).mem = s.mem := rfl
@[simp] theorem State.writeStatus_straps (s : State) (d : Reg) : (s.writeStatus d).straps = s.straps := rfl
@[simp] theorem State.writeStatus_ran (s : State) (d : Reg) : (s.writeStatus d).ran = s.ran := rfl
@[simp] theorem State.writeStatus_moves (s : State) (d : Reg) : (s.writeStatus d).moves = s.moves := rfl
@[simp] theorem State.writeStatus_reply (s : State) (d : Reg) : (s.writeStatus d).reply = s.reply := rfl
@[simp] theorem State.writeStatus_draws (s : State) (d : Reg) : (s.writeStatus d).draws = s.draws := rfl

/-! ## A write of IER (10_state.md R57) -/

@[simp] theorem State.writeIer_busy (s : State) (d : Reg) : (s.writeIer d).busy = s.busy := rfl
@[simp] theorem State.writeIer_done (s : State) (d : Reg) : (s.writeIer d).done = s.done := rfl
@[simp] theorem State.writeIer_err (s : State) (d : Reg) : (s.writeIer d).err = s.err := rfl
@[simp] theorem State.writeIer_doneIE (s : State) (d : Reg) : (s.writeIer d).doneIE = d.getLsbD 1 := rfl
@[simp] theorem State.writeIer_errIE (s : State) (d : Reg) : (s.writeIer d).errIE = d.getLsbD 2 := rfl
@[simp] theorem State.writeIer_errCode (s : State) (d : Reg) : (s.writeIer d).errCode = s.errCode := rfl
@[simp] theorem State.writeIer_errAddr (s : State) (d : Reg) : (s.writeIer d).errAddr = s.errAddr := rfl
@[simp] theorem State.writeIer_errInfo (s : State) (d : Reg) : (s.writeIer d).errInfo = s.errInfo := rfl
@[simp] theorem State.writeIer_cmdPtr (s : State) (d : Reg) : (s.writeIer d).cmdPtr = s.cmdPtr := rfl
@[simp] theorem State.writeIer_cmdCount (s : State) (d : Reg) : (s.writeIer d).cmdCount = s.cmdCount := rfl
@[simp] theorem State.writeIer_mem (s : State) (d : Reg) : (s.writeIer d).mem = s.mem := rfl
@[simp] theorem State.writeIer_straps (s : State) (d : Reg) : (s.writeIer d).straps = s.straps := rfl
@[simp] theorem State.writeIer_ran (s : State) (d : Reg) : (s.writeIer d).ran = s.ran := rfl
@[simp] theorem State.writeIer_moves (s : State) (d : Reg) : (s.writeIer d).moves = s.moves := rfl
@[simp] theorem State.writeIer_reply (s : State) (d : Reg) : (s.writeIer d).reply = s.reply := rfl
@[simp] theorem State.writeIer_draws (s : State) (d : Reg) : (s.writeIer d).draws = s.draws := rfl

end Sys2Proof.Machine
end

