-- ==== Sys2Proof/Laws/Validate.lean ====
section
/-! SUPPORT. When each check of the validation passes (40_control.md R212 to R217), and what an attempt does. -/

namespace Sys2Proof.Machine

/-! ## One check at a time -/

theorem checkGauss_none {k l : Nat} {size : Int} {sigma : F64} :
    checkGauss k l size sigma = none ↔
      (1 ≤ size ∧ size ≤ 65535 ∧ size % 2 = 1) ∧ fgt sigma posZero = true := by
  simp only [checkGauss, sizeOk]
  by_cases h1 : 1 ≤ size <;> by_cases h2 : size ≤ 65535 <;> by_cases h3 : size % 2 = 1 <;>
    simp [h1, h2, h3]

theorem checkThresholds_none {k l : Nat} {high low : F64} :
    checkThresholds k l high low = none ↔ fgt high low = true ∧ flt low posZero = false := by
  simp only [checkThresholds]
  split_ifs <;> simp_all

theorem checkDim_none {i : Instr} {o : Operand} :
    checkDim i o = none ↔
      if isKernel i o.word then o.grid.h % 2 = 1 ∧ o.grid.w % 2 = 1 else 1 ≤ o.grid.h ∧ 1 ≤ o.grid.w := by
  simp only [checkDim]
  split_ifs <;> simp_all <;> omega

theorem checkShape_none {i : Instr} {o : Operand} :
    checkShape i o = none ↔
      ∀ shape, expectedShape i o.word = some shape → ((o.grid.h : Int), (o.grid.w : Int)) = shape := by
  simp only [checkShape]
  split
  · simp_all
  · split_ifs <;> simp_all

theorem checkOperandLayout_none {o : Operand} :
    checkOperandLayout o = none ↔
      o.grid.base % o.es = 0 ∧ o.grid.stride % o.es = 0 ∧ o.grid.w * o.es ≤ o.grid.stride := by
  simp only [checkOperandLayout]
  split_ifs
  · simp; omega
  · simp; omega

theorem checkSpanRange_none {memSize : Nat} {sp : Span} :
    checkSpanRange memSize sp = none ↔ sp.hi ≤ memSize := by
  simp only [checkSpanRange]
  split_ifs <;> simp_all

/-- Two spans do not clash when both are inputs or they share no byte. -/
theorem spansClash_false {a b : Span} :
    spansClash a b = false ↔ (a.role = .output ∨ b.role = .output → a.hi ≤ b.lo ∨ b.hi ≤ a.lo) := by
  simp only [spansClash, Bool.and_eq_false_iff, Bool.or_eq_false_iff, decide_eq_false_iff_not, not_lt]
  tauto

/-- Step G passes when no two spans clash. -/
theorem checkOverlapFrom_none {earlier l : List Span} :
    checkOverlapFrom earlier l = none ↔
      (∀ e ∈ earlier, ∀ sp ∈ l, spansClash e sp = false) ∧ l.Pairwise fun a b => spansClash a b = false := by
  induction l generalizing earlier with
  | nil => simp [checkOverlapFrom]
  | cons sp rest ih =>
    simp only [checkOverlapFrom]
    split_ifs with h
    · simp only [List.any_eq_true] at h
      obtain ⟨e, he, hc⟩ := h
      simp only [false_iff, not_and]
      intro hall
      have := hall e he sp List.mem_cons_self
      simp_all
    · simp only [List.any_eq_true, not_exists, not_and, Bool.not_eq_true] at h
      rw [ih, List.pairwise_cons]
      simp only [List.mem_append, List.mem_cons, List.not_mem_nil, or_false, forall_eq_or_imp]
      constructor
      · rintro ⟨h1, h2⟩
        exact ⟨fun e he => ⟨h e he, h1 e (.inl he)⟩, h1 sp (.inr rfl), h2⟩
      · rintro ⟨h1, h2, h3⟩
        exact ⟨fun e he => he.elim (fun he => (h1 e he).2) fun he => he ▸ h2, h3⟩

/-- A clash is two spans that meet (40_control.md R217). -/
theorem spansClash_true {a b : Span} : spansClash a b = true ↔ SpansMeet a b := by
  simp [spansClash, SpansMeet, and_assoc]

/-- Step G names the first span that clashes with one before it. -/
theorem checkOverlapFrom_first {earlier before after : List Span} {sp : Span}
    (he : ∀ e ∈ earlier, ∀ b ∈ before, spansClash e b = false)
    (hp : before.Pairwise fun a b => spansClash a b = false)
    (hc : ∃ b ∈ earlier ++ before, spansClash b sp = true) :
    checkOverlapFrom earlier (before ++ sp :: after) = some { code := .overlap, info := sp.word, addr := sp.lo } := by
  induction before generalizing earlier with
  | nil =>
    rw [List.append_nil] at hc
    rw [List.nil_append, checkOverlapFrom, if_pos (by simpa using hc)]
  | cons b before ih =>
    obtain ⟨hb, hp⟩ := List.pairwise_cons.1 hp
    have hno : ¬ (earlier.any fun e => spansClash e b) = true := by
      simp only [List.any_eq_true, not_exists, not_and, Bool.not_eq_true]
      exact fun e h => he e h b List.mem_cons_self
    rw [List.cons_append, checkOverlapFrom, if_neg hno]
    refine ih (fun e h c hm => ?_) hp (by simpa using hc)
    rcases List.mem_append.1 h with h | h
    · exact he e h c (List.mem_cons_of_mem _ hm)
    · obtain rfl := List.mem_singleton.1 h
      exact hb c hm

/-! ## The steps -/

/-- Step B passes when every scalar passes its check. -/
theorem checkScalars_none {i : Instr} : checkScalars i = none ↔ ∀ k, ScalarHolds i k := by
  constructor
  · intro h k
    unfold ScalarHolds
    split
    · exact (checkGauss_none.1 h).1
    · exact (checkGauss_none.1 h).2
    · exact (checkThresholds_none.1 h).1
    · exact (checkThresholds_none.1 h).2
    · exact (checkGauss_none.1 (Option.or_eq_none_iff.1 h).1).1
    · exact (checkGauss_none.1 (Option.or_eq_none_iff.1 h).1).2
    · exact (checkThresholds_none.1 (Option.or_eq_none_iff.1 h).2).1
    · exact (checkThresholds_none.1 (Option.or_eq_none_iff.1 h).2).2
    · trivial
  · intro h
    cases i with
    | gauss out size sigma => exact checkGauss_none.2 ⟨h 3, h 4⟩
    | dthr img strong weak high low => exact checkThresholds_none.2 ⟨h 7, h 8⟩
    | canny full img out scratch params =>
      cases params with
      | defaults => rfl
      | given size sigma high low =>
        exact Option.or_eq_none_iff.2 ⟨checkGauss_none.2 ⟨h 6, h 7⟩, checkThresholds_none.2 ⟨h 8, h 9⟩⟩
    | _ => rfl

/-- The whole validation passes when every step does. -/
theorem validate_none {i : Instr} {memSize : Nat} :
    validate i memSize = none ↔
      checkScalars i = none ∧ (∀ o ∈ operandsOf i, checkDim i o = none) ∧
        (∀ o ∈ operandsOf i, checkShape i o = none) ∧
        ((∀ o ∈ operandsOf i, checkOperandLayout o = none) ∧ checkScratchLayout i = none) ∧
        (∀ sp ∈ spansOf i, sp.hi ≤ memSize) ∧ (spansOf i).Pairwise fun a b => spansClash a b = false := by
  simp only [validate, checkDims, checkShapes, checkLayout, checkRange, checkOverlap, Option.or_eq_none_iff,
    List.findSome?_eq_none_iff, checkSpanRange_none, checkOverlapFrom_none]
  simp

/-- Every operand and scratch span of a validated command ends at or below MEM_SIZE. -/
theorem validate_span_range {i : Instr} {memSize : Nat} (h : validate i memSize = none) {sp : Span}
    (hs : sp ∈ spansOf i) : sp.hi ≤ memSize :=
  (validate_none.1 h).2.2.2.2.1 sp hs

/-- Every grid of a validated command has its layout. -/
theorem validate_layout {i : Instr} {memSize : Nat} (h : validate i memSize = none) {o : Operand}
    (ho : o ∈ operandsOf i) :
    o.grid.base % o.es = 0 ∧ o.grid.stride % o.es = 0 ∧ o.grid.w * o.es ≤ o.grid.stride :=
  checkOperandLayout_none.1 ((validate_none.1 h).2.2.2.1.1 o ho)

/-! ## Attempts -/

theorem State.attempt_of_error {s : State} {i : Instr} {e : BlockError}
    (h : validate i s.straps.memSize = some e) (m : Memory) : s.attempt i m = s.raise e := by
  simp only [State.attempt, h]

theorem State.attempt_of_none {s : State} {i : Instr} (h : validate i s.straps.memSize = none) (m : Memory) :
    s.attempt i m = s.complete i m := by
  simp only [State.attempt, h]

/-- All that an attempt can do (40_control.md R219). -/
theorem State.attempt_cases (s : State) (i : Instr) (m : Memory) :
    (∃ e, validate i s.straps.memSize = some e ∧ s.attempt i m = s.raise e) ∨
      (validate i s.straps.memSize = none ∧ s.attempt i m = s.complete i m) := by
  cases h : validate i s.straps.memSize with
  | none => exact .inr ⟨rfl, State.attempt_of_none h m⟩
  | some e => exact .inl ⟨e, rfl, State.attempt_of_error h m⟩

end Sys2Proof.Machine
end

