-- ==== Sys2Proof/Laws/Command.lean ====
section
/-! SUPPORT. All that the meaning of a command can do (40_control.md R200, R218, R219): which bytes its cells
name, which bytes its memory leaves alone, and the outcome of `exec`. -/

namespace Sys2Proof.Machine

/-! ## The bytes a command's cells name -/

@[simp] theorem cellsF_keys (g : Grid) (f : Nat → Nat → F64) : (cellsF g f).map Prod.fst = elemBytes g 8 :=
  gridCells_keys _ _ _

@[simp] theorem cellsM_keys (g : Grid) (f : Nat → Nat → Bool) : (cellsM g f).map Prod.fst = elemBytes g 1 :=
  gridCells_keys _ _ _

@[simp] theorem cellsU32_keys (g : Grid) (f : Nat → Nat → Nat) : (cellsU32 g f).map Prod.fst = elemBytes g 4 :=
  gridCells_keys _ _ _

@[simp] theorem convCells_keys (bnd : Boundary) (corr : Bool) (img ker out : Grid) (m : Memory) :
    (convCells bnd corr img ker out m).map Prod.fst = elemBytes out 8 := cellsF_keys _ _

@[simp] theorem gaussCells_keys (exp : F64 → F64) (out : Grid) (size : Int) (sigma : F64) :
    (gaussCells exp out size sigma).map Prod.fst = elemBytes out 8 := cellsF_keys _ _

@[simp] theorem gradCells_keys (atan2 : F64 → F64 → F64) (img mag dir : Grid) (m : Memory) :
    (gradCells atan2 img mag dir m).map Prod.fst = elemBytes mag 8 ++ elemBytes dir 8 := by
  simp [gradCells]

@[simp] theorem nmsCells_keys (mag dir out : Grid) (m : Memory) :
    (nmsCells mag dir out m).map Prod.fst = elemBytes out 8 := cellsF_keys _ _

@[simp] theorem dthrCells_keys (img strong weak : Grid) (high low : F64) (m : Memory) :
    (dthrCells img strong weak high low m).map Prod.fst = elemBytes strong 1 ++ elemBytes weak 1 := by
  simp [dthrCells]

@[simp] theorem linkCells_keys (full : Bool) (strong weak out : Grid) (m : Memory) :
    (linkCells full strong weak out m).map Prod.fst = elemBytes out 1 := cellsM_keys _ _

@[simp] theorem houghCells_keys (trunc : Bool) (trig : List (F64 × F64)) (edges acc rhos thetas : Grid)
    (m : Memory) :
    (houghCells trunc trig edges acc rhos thetas m).map Prod.fst =
      elemBytes acc 4 ++ (elemBytes rhos 8 ++ elemBytes thetas 8) := by
  simp [houghCells]

/-! ## Dense grids -/

/-- A dense grid ends after its last row. -/
theorem gridEnd_dense {b h w es : Nat} (hh : 1 ≤ h) : gridEnd (denseGrid b h w es) es = b + h * w * es := by
  obtain ⟨k, rfl⟩ : ∃ k, h = k + 1 := ⟨h - 1, by omega⟩
  simp only [gridEnd, denseGrid, Nat.add_sub_cancel]
  ring

/-- The element bytes of a dense grid. -/
theorem elemBytes_dense {b h w es a : Nat} (ha : a ∈ elemBytes (denseGrid b h w es) es) :
    b ≤ a ∧ a < b + h * w * es := by
  have hs := elemBytes_in_span ha
  obtain ⟨y, x, hy, -, -⟩ := mem_elemBytes.1 ha
  have hy : y < h := hy
  rw [gridEnd_dense (by omega)] at hs
  exact hs

/-! ## A memory that differs in some bytes only -/

/-- What a command may do to memory: it keeps the canonical form, and only the bytes of a set of addresses may
differ or be listed anew. -/
structure Memory.Within (P : Nat → Prop) (m m' : Memory) : Prop where
  wf : m.wf → m'.wf
  other : ∀ a, ¬ P a → m'.read a = m.read a
  listed : ∀ c ∈ m', c ∈ m ∨ P c.1

theorem Memory.within_refl (P : Nat → Prop) (m : Memory) : Memory.Within P m m :=
  ⟨id, fun _ _ => rfl, fun _ h => .inl h⟩

theorem Memory.Within.trans {P : Nat → Prop} {m₁ m₂ m₃ : Memory} (h : Memory.Within P m₁ m₂)
    (k : Memory.Within P m₂ m₃) : Memory.Within P m₁ m₃ :=
  ⟨k.wf ∘ h.wf, fun a ha => (k.other a ha).trans (h.other a ha), fun c hc => (k.listed c hc).elim (h.listed c) .inr⟩

/-- Writing cells whose addresses lie in a set stays within the set. -/
theorem Memory.writeCells_within {P : Nat → Prop} (m : Memory) {cells : List Host.Cell}
    (h : ∀ a ∈ cells.map Prod.fst, P a) : Memory.Within P m (m.writeCells cells) where
  wf hm := Memory.writeCells_wf hm cells
  other a ha := Memory.read_writeCells_of_notMem m fun hc => ha (h a hc)
  listed c hc := (Memory.mem_writeCells hc).imp_right fun hc => h c.1 (List.mem_map_of_mem hc)

/-- The memory CANNY leaves differs in OUT and the scratch region only. -/
theorem cannyMemory_within (exp : F64 → F64) (atan2 : F64 → F64 → F64) (full : Bool) (img out : Grid)
    (scratch : Nat) (p : CannyParams) (m : Memory) :
    Memory.Within (fun a => a ∈ writtenBytes (.canny full img out scratch p)) m
      (cannyMemory exp atan2 full img out scratch p m) := by
  have hout : ∀ a ∈ elemBytes out 1, a ∈ writtenBytes (.canny full img out scratch p) := fun a ha => by
    simp [writtenBytes, operandsOf, ha]
  have hscr : ∀ a, scratch ≤ a → a < scratch + scratchBytes (cannySize p).toNat img.h img.w →
      a ∈ writtenBytes (.canny full img out scratch p) := fun a h1 h2 => by
    simp [writtenBytes, operandsOf, scratchSpans, List.mem_range'_1]
    omega
  have hw : ∀ n k b : Nat, n * n * 8 = 8 * n ^ 2 ∧ img.h * img.w * k ≤ k * (img.h * img.w) := fun n k b =>
    ⟨by ring, by rw [mul_comm]⟩
  refine Memory.Within.trans ?_ (Memory.writeCells_within _ fun a ha => hout a (by simpa using ha))
  refine Memory.Within.trans ?_ (Memory.writeCells_within _ fun a ha => ?_)
  refine Memory.Within.trans ?_ (Memory.writeCells_within _ fun a ha => ?_)
  refine Memory.Within.trans ?_ (Memory.writeCells_within _ fun a ha => ?_)
  refine Memory.Within.trans ?_ (Memory.writeCells_within _ fun a ha => ?_)
  refine Memory.writeCells_within _ fun a ha => ?_
  all_goals
    simp only [gaussCells_keys, convCells_keys, gradCells_keys, nmsCells_keys, dthrCells_keys, List.mem_append] at ha
    have h1 := hw (cannySize p).toNat 1 0
    have h8 := hw (cannySize p).toNat 8 0
    simp only [scratchBytes] at hscr
    first
      | (have := elemBytes_dense ha; exact hscr a (by omega) (by omega))
      | (rcases ha with ha | ha <;> (have := elemBytes_dense ha; exact hscr a (by omega) (by omega)))

/-! ## The outcome of a command -/

/-- All that a command can do: END ends the list; any other command attempts a memory that differs in the bytes
it writes only (20_memory.md R115, 40_control.md R218). -/
theorem exec_cases (i : Instr) (s : State) :
    (i = .endList ∧ exec i s = .next s.finish) ∨
      ∃ m, exec i s = .next (s.attempt i m) ∧ Memory.Within (fun a => a ∈ writtenBytes i) s.mem m := by
  cases i with
  | endList => exact .inl ⟨rfl, rfl⟩
  | conv bnd corr img ker out =>
    exact .inr ⟨_, rfl, Memory.writeCells_within _ fun a ha => by simpa [writtenBytes, operandsOf, scratchSpans] using ha⟩
  | gauss out size sigma =>
    exact .inr ⟨_, rfl, Memory.writeCells_within _ fun a ha => by simpa [writtenBytes, operandsOf, scratchSpans] using ha⟩
  | grad img mag dir =>
    exact .inr ⟨_, rfl, Memory.writeCells_within _ fun a ha => by simpa [writtenBytes, operandsOf, scratchSpans] using ha⟩
  | nms mag dir out =>
    exact .inr ⟨_, rfl, Memory.writeCells_within _ fun a ha => by simpa [writtenBytes, operandsOf, scratchSpans] using ha⟩
  | dthr img strong weak high low =>
    exact .inr ⟨_, rfl, Memory.writeCells_within _ fun a ha => by simpa [writtenBytes, operandsOf, scratchSpans] using ha⟩
  | link full strong weak out =>
    exact .inr ⟨_, rfl, Memory.writeCells_within _ fun a ha => by simpa [writtenBytes, operandsOf, scratchSpans] using ha⟩
  | hough trunc edges acc rhos thetas =>
    exact .inr ⟨_, rfl, Memory.writeCells_within _ fun a ha => by simpa [writtenBytes, operandsOf, scratchSpans] using ha⟩
  | canny full img out scratch params => exact .inr ⟨_, rfl, cannyMemory_within _ _ _ _ _ _ _ _⟩

/-- Every byte a validated command writes lies in memory (20_memory.md R114). -/
theorem writtenBytes_in_memory {i : Instr} {memSize a : Nat} (h : validate i memSize = none)
    (ha : a ∈ writtenBytes i) : a < memSize := by
  simp only [writtenBytes, List.mem_append, List.mem_flatMap, List.mem_filter] at ha
  rcases ha with ⟨o, ⟨ho, -⟩, ha⟩ | ⟨sp, hsp, ha⟩
  · have h1 := elemBytes_in_span ha
    have h2 := validate_span_range h (sp := operandSpan o) (List.mem_append_left _ (List.mem_map_of_mem ho))
    exact lt_of_lt_of_le h1.2 h2
  · have h2 := validate_span_range h (List.mem_append_right _ hsp)
    rw [List.mem_range'_1] at ha
    omega

end Sys2Proof.Machine
end

