-- ==== Sys2Proof/Laws/Engine.lean ====
section
/-! SUPPORT. All that a turn of the ENGINE and a move of the HOST can do (40_control.md R200 to R205, R219,
70_reset_and_hazards.md R613, R621). -/

namespace Sys2Proof.Machine

/-! ## Errors -/

/-- The number of an error is one of 60_exceptions.md R500, never NONE. -/
theorem ErrorCode.number_range (c : ErrorCode) : c.number ≠ 0 ∧ c.number.toNat ≤ 8 := by
  cases c <;> decide

/-! ## Fetching -/

/-- The fetch checks pass for an aligned descriptor in memory (40_control.md R201). -/
theorem fetchError_none {s : State} :
    fetchError s = none ↔ s.cmdPtr.toNat % 8 = 0 ∧ s.cmdPtr.toNat + 128 ≤ s.straps.memSize := by
  simp only [fetchError]
  split_ifs <;> simp <;> omega

/-- A command is found exactly when the fetch checks pass and the descriptor decodes to it. -/
theorem fetchCommand_ok {s : State} {i : Instr} :
    fetchCommand s = .ok i ↔ fetchError s = none ∧ decode (fetchWords s.mem s.cmdPtr.toNat) = .ok i := by
  simp only [fetchCommand]
  cases fetchError s with
  | some e => simp
  | none => cases h : decode (fetchWords s.mem s.cmdPtr.toNat) <;> simp

/-- Words fetched from memories that agree on the descriptor's bytes are the same. -/
theorem fetchWords_congr {m m' : Memory} {p : Nat} (h : ∀ a, p ≤ a → a < p + 128 → m.read a = m'.read a) :
    fetchWords m p = fetchWords m' p := by
  refine List.map_congr_left fun k hk => ?_
  have := List.mem_range.1 hk
  rw [Memory.readLE_congr fun b hb hb' => h b (by omega) (by omega)]

/-! ## One turn of the ENGINE -/

/-- An idle ENGINE does nothing (60_exceptions.md R546). -/
theorem engineStep_idle {s : State} (h : s.busy = false) : engineStep s = .next s := by
  simp [engineStep, h]

theorem engineStep_error {s : State} {e : BlockError} (hb : s.busy = true) (h : fetchCommand s = .error e) :
    engineStep s = .next (s.raise e) := by
  simp [engineStep, hb, h]

/-- A busy ENGINE runs the command it finds. -/
theorem engineStep_ok {s : State} {i : Instr} (hb : s.busy = true) (h : fetchCommand s = .ok i) :
    engineStep s = exec i s := by
  simp [engineStep, hb, h]

/-- All that a turn of the ENGINE can do (40_control.md R219): nothing while idle; else an error, the end of the
list, or the completion of a validated command that changes only the bytes it writes. -/
theorem engineStep_cases (s : State) :
    (s.busy = false ∧ engineStep s = .next s) ∨
      (s.busy = true ∧
        ((∃ e, engineStep s = .next (s.raise e)) ∨
          (fetchCommand s = .ok .endList ∧ engineStep s = .next s.finish) ∨
          ∃ i m, i ≠ .endList ∧ fetchCommand s = .ok i ∧ validate i s.straps.memSize = none ∧
            engineStep s = .next (s.complete i m) ∧
            Memory.Within (fun a => a ∈ writtenBytes i) s.mem m)) := by
  cases hb : s.busy with
  | false => exact .inl ⟨rfl, engineStep_idle hb⟩
  | true =>
    refine .inr ⟨rfl, ?_⟩
    cases hf : fetchCommand s with
    | error e => exact .inl ⟨e, engineStep_error hb hf⟩
    | ok i =>
      by_cases hi : i = .endList
      · subst hi
        exact .inr (.inl ⟨rfl, engineStep_ok hb hf⟩)
      · rcases exec_cases i s with ⟨h, -⟩ | ⟨m, he, hw⟩
        · exact absurd h hi
        · rw [engineStep_ok hb hf, he]
          rcases s.attempt_cases i m with ⟨e, -, h⟩ | ⟨hv, h⟩
          · exact .inl ⟨e, by rw [h]⟩
          · exact .inr (.inr ⟨i, m, hi, rfl, hv, by rw [h], hw⟩)

/-- A turn of the ENGINE always answers a next state. -/
theorem engineStep_next (s : State) : ∃ t, engineStep s = .next t := by
  rcases engineStep_cases s with ⟨-, h⟩ | ⟨-, ⟨e, h⟩ | ⟨-, h⟩ | ⟨i, m, -, -, -, h, -⟩⟩ <;> exact ⟨_, h⟩

/-- The command in flight is the one the ENGINE would complete. -/
theorem completing_some {s : State} {i : Instr} :
    completing s = some i ↔
      s.busy = true ∧ fetchCommand s = .ok i ∧ i ≠ .endList ∧ validate i s.straps.memSize = none := by
  simp only [completing]
  cases hb : s.busy with
  | false => simp
  | true =>
    cases hf : fetchCommand s with
    | error e => simp
    | ok j =>
      simp only [if_true, true_and, Except.ok.injEq]
      split_ifs with h
      · simp only [Option.some.injEq]
        exact ⟨fun e => e ▸ ⟨rfl, h⟩, fun e => e.1⟩
      · simp only [false_iff, not_and]
        rintro rfl h1 h2
        exact h ⟨h1, h2⟩

/-! ## The moves still to come play no part in what the ENGINE finds -/

@[simp] theorem fetchError_moves (s : State) (ms : List Move) :
    fetchError { s with moves := ms } = fetchError s := by
  simp only [fetchError]

@[simp] theorem fetchCommand_moves (s : State) (ms : List Move) :
    fetchCommand { s with moves := ms } = fetchCommand s := by
  simp only [fetchCommand, fetchError_moves]

@[simp] theorem completing_moves (s : State) (ms : List Move) :
    completing { s with moves := ms } = completing s := by
  simp only [completing, fetchCommand_moves]

/-! ## The running list (20_memory.md R121, R122) -/

@[simp] theorem State.passOver_mem (s : State) : s.passOver.mem = s.mem := rfl
@[simp] theorem State.passOver_straps (s : State) : s.passOver.straps = s.straps := rfl
@[simp] theorem State.passOver_cmdPtr (s : State) : s.passOver.cmdPtr = s.cmdPtr + 128 := rfl

/-- Past a slot that lies in memory the address of the next one does not wrap (00_scope.md R12). -/
theorem State.passOver_cmdPtr_toNat {s : State} {n : Nat} (hm : s.straps.memSize ≤ 2 ^ 63)
    (h : s.cmdPtr.toNat + n ≤ s.straps.memSize) : s.passOver.cmdPtr.toNat = s.cmdPtr.toNat + 128 := by
  rw [State.passOver_cmdPtr, BitVec.toNat_add]
  change (s.cmdPtr.toNat + 128) % 2 ^ 64 = _
  omega

/-- The list reaches each slot of the memory that no END precedes. -/
theorem slotsFrom_slot {n k : Nat} {s : State} (hm : s.straps.memSize ≤ 2 ^ 63) (hk : k < n)
    (ha : s.cmdPtr.toNat % 8 = 0) (hr : s.cmdPtr.toNat + 128 * k + 128 ≤ s.straps.memSize)
    (he : ∀ j, j < k → decode (fetchWords s.mem (s.cmdPtr.toNat + 128 * j)) ≠ .ok .endList) :
    ∃ t ∈ slotsFrom n s, t.cmdPtr.toNat = s.cmdPtr.toNat + 128 * k ∧ t.mem = s.mem ∧ t.straps = s.straps := by
  induction k generalizing n s with
  | zero =>
    obtain ⟨n, rfl⟩ : ∃ m, n = m + 1 := ⟨n - 1, by omega⟩
    have hf : fetchError s = none := fetchError_none.2 ⟨ha, by omega⟩
    exact ⟨s, by simp [slotsFrom, hf], by simp, rfl, rfl⟩
  | succ k ih =>
    obtain ⟨n, rfl⟩ : ∃ m, n = m + 1 := ⟨n - 1, by omega⟩
    have hf : fetchError s = none := fetchError_none.2 ⟨ha, by omega⟩
    have hp := s.passOver_cmdPtr_toNat hm (n := 128 * (k + 1)) (by omega)
    obtain ⟨t, ht, h1, h2, h3⟩ := ih (n := n) (s := s.passOver) hm (by omega) (by omega)
      (by rw [State.passOver_straps]; omega)
      (fun j hj => by
        have := he (j + 1) (by omega)
        rw [State.passOver_mem, hp]
        rwa [show s.cmdPtr.toNat + 128 + 128 * j = s.cmdPtr.toNat + 128 * (j + 1) by ring])
    have h0 := he 0 (by omega)
    rw [Nat.mul_zero, Nat.add_zero] at h0
    exact ⟨t, by simp [slotsFrom, hf, h0, ht], by omega, h2, h3⟩

/-- The list to come of a running list begins where the ENGINE stands. -/
theorem listToCome_head {s : State} (hb : s.busy = true) : ∃ l, listToCome s = s :: l := by
  simp only [listToCome, comingStates, hb, if_true]
  exact ⟨_, rfl⟩

/-- Where the ENGINE's step completes no command the list to come is that one step. -/
theorem listToCome_of_not_completing {s : State} (hb : s.busy = true) (h : completing s = none) :
    listToCome s = [s] := by
  have hstop : ∀ n t, t.busy = false → comingStates n t = [] := by
    intro n t ht
    cases n <;> simp [comingStates, ht]
  rcases engineStep_cases s with ⟨h0, -⟩ | ⟨-, ⟨e, h1⟩ | ⟨-, h1⟩ | ⟨i, m, hi, hf, hv, -, -⟩⟩
  · rw [hb] at h0; cases h0
  · simp only [listToCome, comingStates, hb, if_true, h1, hstop _ (s.raise e) rfl]
  · simp only [listToCome, comingStates, hb, if_true, h1, hstop _ s.finish rfl]
  · rw [completing_some.2 ⟨hb, hf, hi, hv⟩] at h; cases h

/-- A slot that ends the list to come begins the slots that stand as the memory holds them. -/
theorem listSlots_of_not_completing {s : State} (hb : s.busy = true) (h : completing s = none) :
    listSlots s = slotsFrom (s.straps.memSize / 128 + 1) s := by
  simp [listSlots, listToCome_of_not_completing hb h]

/-- The slot at CMD_PTR is the list's. -/
theorem self_mem_listSlots {s : State} (hb : s.busy = true) (hf : fetchError s = none) : s ∈ listSlots s := by
  obtain ⟨l, hl⟩ := listToCome_head hb
  cases l with
  | nil => simp [listSlots, hl, slotsFrom, hf]
  | cons t l => simp [listSlots, hl]

/-- The running list uses the bytes of its slots. -/
theorem listUses_of_slot {s t : State} {a : Nat} (ht : t ∈ listSlots s) (h1 : t.cmdPtr.toNat ≤ a)
    (h2 : a < t.cmdPtr.toNat + 128) : listUses s a = true := by
  simp only [listUses, Bool.or_eq_true, List.any_eq_true, Bool.and_eq_true, decide_eq_true_eq]
  exact .inl ⟨t, ht, h1, h2⟩

/-- The running list uses the bytes of every span that one of its commands names. -/
theorem listUses_of_command {s : State} {i : Instr} {sp : Span} {a : Nat} (hi : i ∈ listCommands s)
    (hs : sp ∈ namedSpans i) (h1 : sp.lo ≤ a) (h2 : a < sp.hi) : listUses s a = true := by
  simp only [listUses, Bool.or_eq_true, List.any_eq_true, Bool.and_eq_true, decide_eq_true_eq]
  exact .inr ⟨i, hi, sp, hs, h1, h2⟩

/-- The command in a slot of the list is a command of the list. -/
theorem slotCommand_mem_listCommands {s t : State} {i : Instr} (ht : t ∈ listSlots s) (h : fetchCommand t = .ok i) :
    i ∈ listCommands s := by
  simp only [listCommands, List.mem_append, List.mem_filterMap]
  exact .inr ⟨t, ht, by simp [slotCommand, h]⟩

/-! ## Moves -/

/-- With no move to come the ENGINE takes its turn. -/
theorem step_engine {s : State} (h : s.moves = []) : step s = engineStep s := by
  simp [step, nextMove, h]

/-- The oldest move still to come is the next one. -/
theorem step_move {s : State} {mv : Move} {rest : List Move} (h : s.moves = mv :: rest) :
    step s = applyMove mv { s with moves := rest } := by
  simp [step, nextMove, h]

/-- What a write of a register can do: START, the flags, the enables, or a half of CMD_PTR. -/
theorem writeReg_cases (s : State) (offset : Nat) (d : Reg) :
    (s.busy = false ∧ s.writeReg offset d = s.start) ∨ s.writeReg offset d = s.writeStatus d ∨
      s.writeReg offset d = s.writeIer d ∨
      (s.busy = false ∧ ∃ p, s.writeReg offset d = { s with cmdPtr := p }) ∨ s.writeReg offset d = s := by
  simp only [State.writeReg]
  split
  · simp only [State.writeCtrl]
    split_ifs with h
    · simp only [Bool.and_eq_true, Bool.not_eq_true'] at h
      exact .inl ⟨h.2, rfl⟩
    · exact .inr (.inr (.inr (.inr rfl)))
  · exact .inr (.inl rfl)
  · exact .inr (.inr (.inl rfl))
  · simp only [State.writePtrLo]
    split_ifs with h
    · exact .inr (.inr (.inr (.inr rfl)))
    · exact .inr (.inr (.inr (.inl ⟨by simpa using h, _, rfl⟩)))
  · simp only [State.writePtrHi]
    split_ifs with h
    · exact .inr (.inr (.inr (.inr rfl)))
    · exact .inr (.inr (.inr (.inl ⟨by simpa using h, _, rfl⟩)))
  · exact .inr (.inr (.inr (.inr rfl)))

/-- A HOST write of the window is a register write or does nothing (10_state.md R66). -/
theorem hostRegWrite_cases (addr width : Nat) (d : Reg) (s : State) :
    (∃ offset, hostRegWrite addr width d s = s.writeReg offset d) ∨ hostRegWrite addr width d s = s := by
  simp only [hostRegWrite]
  split
  · simp only [State.windowWrite]
    split_ifs
    · exact .inl ⟨_, rfl⟩
    · exact .inr rfl
  · exact .inr rfl

/-- A HOST read of the window changes the reply only (10_state.md R65). -/
theorem hostRegRead_reply (addr width : Nat) (s : State) : ∃ r, hostRegRead addr width s = { s with reply := r } := by
  simp only [hostRegRead]
  split <;> exact ⟨_, rfl⟩

/-- An address of the register window has its offset. -/
theorem windowOffset_in {s : State} {offset : Nat} (h : offset < 0x100) :
    s.windowOffset (s.straps.mmioBase + offset) = some offset := by
  simp only [State.windowOffset]
  rw [if_pos ⟨by omega, by omega⟩]
  simp

/-- A free byte is written to every listed address. -/
theorem freeCells_keys (d : Nat) (as : List Nat) : (freeCells d as).map Prod.fst = as := by
  induction as generalizing d with
  | nil => rfl
  | cons a as ih => simp [freeCells, ih]

end Sys2Proof.Machine
end

