-- ==== Sys2Proof/Laws/Float.lean ====
section
/-! SUPPORT. The laws of the binary64 primitives (00_scope.md R21 to R28): a value is its sign and magnitude bits,
a value that binary64 holds is its own rounding, and what the classes of values are. -/

namespace Sys2Proof.Machine

/-! ## Sign and magnitude -/

theorem fmag_lt (v : F64) : fmag v < 2 ^ 63 := Nat.mod_lt _ (by norm_num)

/-- A value is its sign bit and its magnitude bits. -/
theorem packF_fields (v : F64) : packF (fsign v) (fmag v) = v := by
  have hv := v.isLt
  apply BitVec.eq_of_toNat_eq
  rw [packF, BitVec.toNat_ofNat, fmag, fsign, BitVec.getLsbD, Nat.testBit_eq_decide_div_mod_eq]
  by_cases h : v.toNat / 2 ^ 63 % 2 = 1
  · simp only [h, decide_true, if_true]; omega
  · simp only [h, decide_false, Bool.false_eq_true, if_false]; omega

theorem fsign_packF {s : Bool} {n : Nat} (h : n < 2 ^ 63) : fsign (packF s n) = s := by
  rw [packF, fsign, BitVec.getLsbD, BitVec.toNat_ofNat, Nat.testBit_eq_decide_div_mod_eq]
  cases s
  · simp only [Bool.false_eq_true, if_false, decide_eq_false_iff_not]; omega
  · simp only [if_true, decide_eq_true_eq]; omega

theorem fmag_packF {s : Bool} {n : Nat} (h : n < 2 ^ 63) : fmag (packF s n) = n := by
  rw [packF, fmag, BitVec.toNat_ofNat]
  cases s
  · simp only [Bool.false_eq_true, if_false]; omega
  · simp only [if_true]; omega

/-- Two values with the same sign and magnitude bits are the same. -/
theorem eq_of_fields {u v : F64} (hs : fsign u = fsign v) (hm : fmag u = fmag v) : u = v := by
  rw [← packF_fields u, ← packF_fields v, hs, hm]

theorem fsign_fneg (v : F64) : fsign (fneg v) = !fsign v := by
  have h : BitVec.getLsbD negZero 63 = true := by decide
  rw [fneg, fsign, BitVec.getLsbD_xor, h, fsign, Bool.xor_true]

theorem fmag_fneg (v : F64) : fmag (fneg v) = fmag v := by
  refine Nat.eq_of_testBit_eq fun k => ?_
  have hz : (BitVec.toNat negZero) = 2 ^ 63 := by decide
  rw [fneg, fmag, fmag, BitVec.toNat_xor, hz, Nat.testBit_mod_two_pow, Nat.testBit_mod_two_pow, Nat.testBit_xor,
    Nat.testBit_two_pow]
  by_cases hk : k < 63
  · have : 63 ≠ k := by omega
    simp [this]
  · simp [hk]

/-! ## Classes -/

theorem isNaN_eq_false_of_finite {v : F64} (h : isFinite v = true) : isNaN v = false := by
  simp only [isFinite, isNaN, decide_eq_true_eq, decide_eq_false_iff_not] at *
  omega

theorem isInf_eq_false_of_finite {v : F64} (h : isFinite v = true) : isInf v = false := by
  simp only [isFinite, isInf, decide_eq_true_eq, decide_eq_false_iff_not] at *
  omega

/-- The magnitude in units is zero for the zeros only. -/
theorem fixedMag_eq_zero {v : F64} : fixedMag v = 0 ↔ isZero v = true := by
  simp only [fixedMag, isZero, decide_eq_true_eq]
  split_ifs with h
  · omega
  · have : 0 < (fmag v % 2 ^ 52 + 2 ^ 52) * 2 ^ (fmag v / 2 ^ 52 - 1) := by positivity
    constructor
    · omega
    · intro h0; simp [h0] at h

/-- A finite value is zero in units exactly when it is a zero. -/
theorem fixed_eq_zero {v : F64} : fixed v = 0 ↔ isZero v = true := by
  rw [← fixedMag_eq_zero, fixed]
  split_ifs <;> omega

/-! ## Rounding -/

theorem divEven_one (n : Nat) : divEven n 1 = n := by simp [divEven, Nat.mod_one]

/-- Dividing an exact multiple rounds nothing. -/
theorem divEven_mul {n d : Nat} (hd : 0 < d) : divEven (n * d) d = n := by
  have h0 : n * d % d = 0 := Nat.mul_mod_left n d
  rw [divEven, Nat.mul_div_cancel _ hd, h0, if_neg]
  omega

/-- A number of units that binary64 holds is its own rounding. -/
theorem roundMag_fixedMag {v : F64} (h : isFinite v = true) : roundMag (fixedMag v) 1 = fmag v := by
  have h : fmag v < 0x7FF0000000000000 := of_decide_eq_true h
  simp only [roundMag, Nat.div_one, one_mul, infMag]
  by_cases he : fmag v / 2 ^ 52 = 0
  · have hlt : fmag v % 2 ^ 52 < 2 ^ 52 := Nat.mod_lt _ (by norm_num)
    have hz : (fmag v % 2 ^ 52).log2 + 1 - 53 = 0 := by
      rcases Nat.eq_zero_or_pos (fmag v % 2 ^ 52) with h0 | h0
      · rw [h0]; decide
      · have := (Nat.log2_lt h0.ne').2 hlt
        omega
    rw [fixedMag, if_pos he, hz, pow_zero, divEven_one]
    omega
  · obtain ⟨k, hk⟩ : ∃ k, fmag v / 2 ^ 52 = k + 1 := ⟨_, (Nat.succ_pred he).symm⟩
    have hf : fmag v % 2 ^ 52 < 2 ^ 52 := Nat.mod_lt _ (by norm_num)
    have hlog : ((fmag v % 2 ^ 52 + 2 ^ 52) * 2 ^ k).log2 = 52 + k := by
      have hne : (fmag v % 2 ^ 52 + 2 ^ 52) * 2 ^ k ≠ 0 := by positivity
      have hkpos : 0 < 2 ^ k := by positivity
      rw [Nat.log2_eq_iff hne]
      constructor
      · rw [pow_add]; exact Nat.mul_le_mul_right _ (by omega)
      · rw [show 52 + k + 1 = 53 + k by ring, pow_add]
        exact Nat.mul_lt_mul_of_pos_right (by omega) hkpos
    rw [fixedMag, if_neg he, hk, Nat.add_sub_cancel, hlog, show 52 + k + 1 - 53 = k by omega,
      divEven_mul (by positivity)]
    omega

/-- A finite value is its own rounding. -/
theorem roundRat_fixedMag {v : F64} (h : isFinite v = true) : roundRat (fsign v) (fixedMag v) 1 = v := by
  rw [roundRat, roundMag_fixedMag h, packF_fields]

theorem roundMag_le (n d : Nat) : roundMag n d ≤ infMag := Nat.min_le_right _ _

/-- Rounding never makes a NaN. -/
theorem roundRat_not_nan (s : Bool) (n d : Nat) : isNaN (roundRat s n d) = false := by
  have h : roundMag n d < 2 ^ 63 := lt_of_le_of_lt (roundMag_le n d) (by decide)
  simp only [roundRat, isNaN, fmag_packF h, decide_eq_false_iff_not, not_lt]
  exact roundMag_le n d

theorem roundMag_zero (d : Nat) : roundMag 0 d = 0 := by simp [roundMag, divEven]

/-! ## Sums -/

/-- The sum of two finite values is the rounding of the exact sum (00_scope.md R22, R26). -/
theorem fadd_finite {a b : F64} (ha : isFinite a = true) (hb : isFinite b = true) :
    fadd a b =
      if fixed a + fixed b = 0 then (if fsign a && fsign b then negZero else posZero)
      else roundRat (decide (fixed a + fixed b < 0)) (fixed a + fixed b).natAbs 1 := by
  simp [fadd, isNaN_eq_false_of_finite ha, isNaN_eq_false_of_finite hb, isInf_eq_false_of_finite ha,
    isInf_eq_false_of_finite hb]

/-- A NaN is a fixed point of no comparison and poisons every sum. -/
theorem fadd_nan {a b : F64} (h : isNaN a = true ∨ isNaN b = true) : fadd a b = canonNaN := by
  rcases h with h | h <;> simp [fadd, h]

/-- Adding +0 to a finite value changes nothing but -0, which becomes +0 (00_scope.md R26). -/
theorem fadd_posZero {v : F64} (h : isFinite v = true) : fadd posZero v = if isZero v then posZero else v := by
  have h0 : fixed posZero = 0 := by decide +kernel
  have hs : fsign posZero = false := by decide
  rw [fadd_finite (by decide) h, h0, zero_add, hs, Bool.false_and]
  by_cases hz : isZero v = true
  · simp [hz, fixed_eq_zero.2 hz]
  · have hne : fixed v ≠ 0 := fun e => hz (fixed_eq_zero.1 e)
    have hm : fixedMag v ≠ 0 := fun e => hz (fixedMag_eq_zero.1 e)
    rw [if_neg hne, if_neg hz]
    have hr := roundRat_fixedMag h
    cases hv : fsign v with
    | false =>
      have : fixed v = fixedMag v := by simp [fixed, hv]
      rw [hv] at hr
      rw [this, Int.natAbs_natCast, decide_eq_false (by omega), hr]
    | true =>
      have : fixed v = -(fixedMag v : Int) := by simp [fixed, hv]
      rw [hv] at hr
      rw [this, Int.natAbs_neg, Int.natAbs_natCast, decide_eq_true (by omega), hr]

/-! ## Written values -/

theorem canonical_of_not_nan {v : F64} (h : isNaN v = false) : canonical v = v := by simp [canonical, h]

end Sys2Proof.Machine
end

