-- ==== Sys2Proof/Laws/PerInstr.lean ====
section
/-! SUPPORT. One lemma per constructor of `Instr` about its encoding: the command word is the one its row of
spec/opcode_table.json gives (30_encoding.md R160), and its operand words fit the descriptor (R150, R170). -/

namespace Sys2Proof.Laws

open Sys2Proof

/-- The match value of a command's row of spec/opcode_table.json. -/
def rowMatch : Instr → Word
  | .endList => 0x00
  | .conv .. => 0x01
  | .gauss .. => 0x02
  | .grad .. => 0x03
  | .nms .. => 0x04
  | .dthr .. => 0x05
  | .link .. => 0x06
  | .hough .. => 0x07
  | .canny .. => 0x08

/-- The mask of a command's row: every bit but the flag bits the row defines. -/
def rowMask : Instr → Word
  | .endList => 0xFFFFFFFFFFFFFFFF
  | .conv .. => 0xFFFFFFFFFFFFFCFF
  | .gauss .. => 0xFFFFFFFFFFFFFFFF
  | .grad .. => 0xFFFFFFFFFFFFFFFF
  | .nms .. => 0xFFFFFFFFFFFFFFFF
  | .dthr .. => 0xFFFFFFFFFFFFFFFF
  | .link .. => 0xFFFFFFFFFFFFFEFF
  | .hough .. => 0xFFFFFFFFFFFFFEFF
  | .canny .. => 0xFFFFFFFFFFFFFCFF

namespace RowWord

/-- The encoding of a command has sixteen words, the first of them the command word, which meets the match and
mask of the command's row. -/
def Statement (i : Instr) : Prop :=
  (encode i).length = 16 ∧ wordAt (encode i) 0 = firstWord i ∧ firstWord i &&& rowMask i = rowMatch i

theorem endList : Statement .endList := ⟨rfl, rfl, rfl⟩

theorem conv (bnd : Boundary) (corr : Bool) (img ker out : Grid) : Statement (.conv bnd corr img ker out) :=
  ⟨rfl, rfl, by cases bnd <;> cases corr <;> simp [firstWord, commandWord, rowMask, rowMatch]⟩

theorem gauss (out : Grid) (size : Int) (sigma : F64) : Statement (.gauss out size sigma) :=
  ⟨rfl, rfl, by simp [firstWord, commandWord, rowMask, rowMatch]⟩

theorem grad (img mag dir : Grid) : Statement (.grad img mag dir) := ⟨rfl, rfl, by simp [firstWord, commandWord, rowMask, rowMatch]⟩

theorem nms (mag dir out : Grid) : Statement (.nms mag dir out) := ⟨rfl, rfl, by simp [firstWord, commandWord, rowMask, rowMatch]⟩

theorem dthr (img strong weak : Grid) (high low : F64) : Statement (.dthr img strong weak high low) :=
  ⟨rfl, rfl, by simp [firstWord, commandWord, rowMask, rowMatch]⟩

theorem link (full : Bool) (strong weak out : Grid) : Statement (.link full strong weak out) :=
  ⟨rfl, rfl, by cases full <;> simp [firstWord, commandWord, rowMask, rowMatch]⟩

theorem hough (trunc : Bool) (edges acc rhos thetas : Grid) : Statement (.hough trunc edges acc rhos thetas) :=
  ⟨rfl, rfl, by cases trunc <;> simp [firstWord, commandWord, rowMask, rowMatch]⟩

theorem canny (full : Bool) (img out : Grid) (scratch : Nat) (params : CannyParams) :
    Statement (.canny full img out scratch params) := by
  cases params <;> exact ⟨rfl, rfl, by cases full <;> simp [firstWord, commandWord, rowMask, rowMatch, CannyParams.isDefault]⟩

end RowWord

end Sys2Proof.Laws
end

