-- ==== Sys2Proof/Tests/Slice0.lean ====
section
/-! SUPPORT. The model's own tests: ill-formed commands, decoded words written out from 30_encoding.md, the spec's
examples on single operations and steps, and for every statement with hypotheses a witness that meets them. -/

namespace Sys2Proof.Tests

-- One theorem at a time: the kernel's evaluations below would else each hold a thread of their own.
set_option Elab.async false

open Sys2Proof Sys2Proof.Machine

/-! ## Small states -/

/-- An idle machine of 0x4000 bytes with the reference table of 47_hough.md R363. -/
def idle : State := { State.reset with straps := { memSize := 0x4000, mmioBase := 0x100, trig := referenceTrig } }

/-- The machine with a list running at the last slot but one. -/
def running : State := { idle with busy := true, cmdPtr := 0x3F00 }

/-- A list of bytes from an address on. -/
def bytesAt (a : Nat) (bs : List Byte) : List Host.Cell := (List.range' a bs.length).zip bs

/-- A memory that holds the descriptor of a command, some F64 values and some bytes. -/
def memoryFor (i : Instr) (values : List (Nat × F64)) (bytes : List Host.Cell) : Memory :=
  Memory.writeCells []
    (bytesAt 0x3F00 (bytesOfWords (encode i)) ++ (values.flatMap fun v => cellsLE v.1 8 v.2.toNat) ++ bytes)

/-- The machine about to run a command. -/
def about (i : Instr) (values : List (Nat × F64)) (bytes : List Host.Cell) : State :=
  { running with mem := memoryFor i values bytes }

/-- The machine with one move to come. -/
def moving (m : Move) (s : State) : State := { s with moves := [m] }

/-- What a property says of the next state, false where there is none. -/
def after (p : State → Bool) (s : State) : Bool :=
  match step s with
  | .next t => p t
  | .fault _ => false
  | .refused _ => false

/-- The rows of a grid of F64 values at an address, without padding. -/
def grid (base h w : Nat) : Grid := ⟨base, h, w, 8 * w⟩

/-- A grid of bytes at an address, without padding. -/
def mask (base h w : Nat) : Grid := ⟨base, h, w, w⟩

def z : Grid := ⟨0, 0, 0, 0⟩

theorem memoryFor_wf (i : Instr) (values : List (Nat × F64)) (bytes : List Host.Cell) :
    (memoryFor i values bytes).wf := by
  rw [memoryFor]
  exact Memory.writeCells_wf Memory.wf_nil _

theorem wf_about (i : Instr) (values : List (Nat × F64)) (bytes : List Host.Cell) :
    (about i values bytes).mem.wf := by
  simp only [about]
  exact memoryFor_wf i values bytes

/-! ## WellFormed refuses every ill-formed field (30_encoding.md R153, R154) -/

theorem test_wellFormed_accepts_extremes :
    (Instr.gauss ⟨2 ^ 64 - 1, 65535, 65535, 2 ^ 32 - 1⟩ (-(2 ^ 63)) 0).wellFormed = true ∧
      (Instr.canny true z z (2 ^ 64 - 1) (.given (2 ^ 63 - 1) 0 0 0)).wellFormed = true := by decide

theorem test_wellFormed_refuses_fields :
    (Instr.gauss ⟨2 ^ 64, 0, 0, 0⟩ 0 0).wellFormed = false ∧ (Instr.gauss ⟨0, 2 ^ 16, 0, 0⟩ 0 0).wellFormed = false ∧
      (Instr.gauss ⟨0, 0, 2 ^ 16, 0⟩ 0 0).wellFormed = false ∧
      (Instr.gauss ⟨0, 0, 0, 2 ^ 32⟩ 0 0).wellFormed = false ∧ (Instr.gauss z (2 ^ 63) 0).wellFormed = false ∧
      (Instr.gauss z (-(2 ^ 63) - 1) 0).wellFormed = false ∧
      (Instr.canny true z z (2 ^ 64) .defaults).wellFormed = false ∧
      (Instr.canny true z z 0 (.given (2 ^ 63) 0 0 0)).wellFormed = false := by decide

theorem test_wellFormed_refuses_operands :
    let b : Grid := ⟨2 ^ 64, 1, 1, 8⟩
    [Instr.conv .zero false b z z, .conv .zero false z b z, .conv .zero false z z b, .grad b z z, .grad z b z,
      .grad z z b, .nms b z z, .nms z b z, .nms z z b, .dthr b z z 0 0, .dthr z b z 0 0, .dthr z z b 0 0,
      .link true b z z, .link true z b z, .link true z z b, .hough true b z z z, .hough true z b z z,
      .hough true z z b z, .hough true z z z b, .canny true b z 0 .defaults, .canny true z b 0 .defaults].all
        (fun i => !i.wellFormed) = true := by decide

/-! ## Decoding words written out from 30_encoding.md R151 to R154, R160, R170 -/

/-- OPCODE 0x00, every other bit of the command word 0; the other words are ignored. -/
theorem test_decode_end : decode [0x0000000000000000, 0xFFFFFFFFFFFFFFFF] = .ok .endList := by decide

/-- R183: OPCODE 0x01, bit 8 BND; H in bits 15:0, W in 31:16, STRIDE in 63:32. -/
theorem test_decode_conv :
    decode [0x0000000000000101, 0x1000, 0x0000001800030003, 0x2000, 0x0000000800010001, 0x3000, 0x0000002000020003] =
      .ok (.conv .edgeReplicate false ⟨0x1000, 3, 3, 24⟩ ⟨0x2000, 1, 1, 8⟩ ⟨0x3000, 3, 2, 32⟩) := by decide

/-- OPCODE 0x01, bit 9 CORR. -/
theorem test_decode_corr :
    decode [0x0000000000000201, 0, 0, 0, 0, 0, 0] = .ok (.conv .zero true z z z) := by decide

/-- OPCODE 0x02, SIZE a two's-complement word, SIGMA the bits of 1.4. -/
theorem test_decode_gauss :
    decode [0x0000000000000002, 0x1000, 0x0000002800050005, 0xFFFFFFFFFFFFFFFF, 0x3FF6666666666666] =
      .ok (.gauss ⟨0x1000, 5, 5, 40⟩ (-1) 0x3FF6666666666666) := by decide

theorem test_decode_grad :
    decode [0x0000000000000003, 0x8000000000000000, 0x0000001000020001, 0x200, 0, 0x300, 0xFFFFFFFF00000000] =
      .ok (.grad ⟨0x8000000000000000, 1, 2, 16⟩ ⟨0x200, 0, 0, 0⟩ ⟨0x300, 0, 0, 0xFFFFFFFF⟩) := by decide

theorem test_decode_nms :
    decode [0x0000000000000004, 0x100, 0x00000000FFFF0000, 0x200, 0x000000000000FFFF, 0x300, 0] =
      .ok (.nms ⟨0x100, 0, 65535, 0⟩ ⟨0x200, 65535, 0, 0⟩ ⟨0x300, 0, 0, 0⟩) := by decide

/-- OPCODE 0x05, HIGH and LOW the bits of 20.0 and 15.0. -/
theorem test_decode_dthr :
    decode [0x0000000000000005, 1, 0, 2, 0, 3, 0, 0x4034000000000000, 0x402E000000000000] =
      .ok (.dthr ⟨1, 0, 0, 0⟩ ⟨2, 0, 0, 0⟩ ⟨3, 0, 0, 0⟩ 0x4034000000000000 0x402E000000000000) := by decide

/-- OPCODE 0x06, bit 8 TRANS. -/
theorem test_decode_link :
    decode [0x0000000000000106, 1, 0, 2, 0, 3, 0] =
      .ok (.link true ⟨1, 0, 0, 0⟩ ⟨2, 0, 0, 0⟩ ⟨3, 0, 0, 0⟩) := by decide

/-- OPCODE 0x07, bit 8 TRUNC. -/
theorem test_decode_hough :
    decode [0x0000000000000107, 1, 0, 2, 0, 3, 0, 4, 0] =
      .ok (.hough true ⟨1, 0, 0, 0⟩ ⟨2, 0, 0, 0⟩ ⟨3, 0, 0, 0⟩ ⟨4, 0, 0, 0⟩) := by decide

/-- OPCODE 0x08, bit 8 TRANS, bit 9 DEF; with DEF the words w6 to w9 are ignored. -/
theorem test_decode_canny :
    decode [0x0000000000000308, 1, 0, 2, 0, 0x2000, 7, 7, 7, 7] =
        .ok (.canny true ⟨1, 0, 0, 0⟩ ⟨2, 0, 0, 0⟩ 0x2000 .defaults) ∧
      decode [0x0000000000000008, 1, 0, 2, 0, 0x2000, 5, 6, 7, 8] =
        .ok (.canny false ⟨1, 0, 0, 0⟩ ⟨2, 0, 0, 0⟩ 0x2000 (.given 5 6 7 8)) := by decide

/-- Undefined opcodes, reserved bits and undefined flags (30_encoding.md R175); an undefined opcode comes first
(60_exceptions.md R505). -/
theorem test_decode_rejects :
    decode [0x09] = .error .opcode ∧ decode [0xFF] = .error .opcode ∧
      decode [0xFFFFFFFFFFFFFF09] = .error .opcode ∧ decode [0x100] = .error .reserved ∧
      decode [0x401] = .error .reserved ∧ decode [0x206] = .error .reserved ∧
      decode [0x8000000000000008] = .error .reserved ∧ decode [0x10001] = .error .reserved := by decide

/-- The table's own numbering: bit 0 is the least significant bit of the first word. -/
theorem test_decodeTableWord :
    decodeTableWord 64 0x106 = some (.link true z z z) ∧ decodeTableWord 64 0x0 = some .endList ∧
      decodeTableWord 64 0x9 = none := by decide

/-! ## A descriptor runs as the first command after reset -/

/-- CONV with zero operands: its kernel has an even height, but IN comes first (40_control.md R213). -/
theorem test_first_command_conv :
    after (fun t => t.err && decide (t.errCode = 0x04 ∧ t.errInfo = 1 ∧ t.cmdPtr = 0))
      (State.reset.withFetchWord 64 0x301) = true := by decide +kernel

theorem test_first_command_end :
    after (fun t => t.done && !t.busy) (State.reset.withFetchWord 64 0x0) = true := by decide +kernel

/-! ## Single operations and steps -/

/-- R204: the example of END. -/
theorem test_end : after (fun t => !t.busy && t.done && decide (t.cmdPtr = 0x3F00 ∧ t.cmdCount = 0)) running = true := by
  decide +kernel

/-- R230: the kernel coefficient 1 at (1, 0) brings the sample at the right, replicated at the border: the middle
row of the example's output is [5, 6, 6]. -/
theorem test_conv_example :
    let img := fun y x => f64 (3 * y + x + 1 : Nat)
    let ker := fun i j => if i = 1 ∧ j = 0 then fOne else posZero
    (List.range 3).map (convElem .edgeReplicate false ker 3 3 img 3 3 1) = [f64 5, f64 6, f64 6] := by
  decide +kernel

/-- R231, R235: with CORR the same coefficient brings the sample at the left, +0.0 outside under ZERO. -/
theorem test_corr_step :
    after (fun t => decide (rdF t.mem (grid 0x200 1 2) 0 0 = posZero ∧ rdF t.mem (grid 0x200 1 2) 0 1 = f64 7))
      (about (.conv .zero true (grid 0x100 1 2) (grid 0x180 1 3) (grid 0x200 1 2))
        [(0x100, f64 7), (0x108, f64 9), (0x180, fOne)] []) = true := by decide +kernel

/-- R263: the leading factor for SIGMA = 1.4. -/
theorem test_gauss_factor : gaussFactor 0x3FF6666666666666 = 0x3FB4C99F21A95472 := by decide +kernel

/-- R260: SIZE even fails at word 3. -/
theorem test_gauss_even_size :
    after (fun t => t.err && decide (t.errCode = 0x04 ∧ t.errInfo = 3))
      (about (.gauss (grid 0x100 2 2) 2 fOne) [] []) = true := by decide +kernel

/-- R280: on I[y, x] = x the magnitudes of a row are 0.5, 1, 0.5, and gy is +0. -/
theorem test_grad_example :
    (List.range 3).map (fun x => gradMag (gradX (fun _ x => f64 (x : Nat)) 3 3 1 x)
        (gradY (fun _ x => f64 (x : Nat)) 3 3 1 x)) = [fHalf, fOne, fHalf] ∧
      gradY (fun _ x => f64 (x : Nat)) 3 3 1 1 = posZero := by decide +kernel

/-- R284: a negative direction is reduced once, a tiny one becomes +0.0, and -0.0 becomes +0.0. -/
theorem test_deg360 :
    deg360 (fneg c45) = f64 315 ∧ deg360 0x8000000000000001 = posZero ∧ deg360 negZero = posZero ∧
      deg360 c22_5 = c22_5 := by decide +kernel

/-- R300: the example, direction 0 everywhere: the middle column survives. -/
theorem test_nms_step :
    after (fun t => decide ((List.range 3).map (rdF t.mem (grid 0x300 1 3) 0) = [posZero, f64 3, posZero]))
      (about (.nms (grid 0x100 1 3) (grid 0x200 1 3) (grid 0x300 1 3))
        [(0x100, fOne), (0x108, f64 3), (0x110, fOne)] []) = true := by decide +kernel

/-- R301: the bins at and just below a boundary. -/
theorem test_nms_bins :
    [c22_5, 0x40367FFFFFFFFFFF, 0x4050DFFFFFFFFFFF, 0x4063AFFFFFFFFFFF, f64 90, f64 (-45), f64 359].map directionBin =
      [1, 1, 1, 3, 2, 3, 0] := by decide +kernel

/-- R320: the example's values at the thresholds 20 and 15. -/
theorem test_dthr_example :
    [f64 (-1), f64 0, f64 15, 0x4033FFFFFFFFFFFF, f64 20, f64 25, canonNaN].map
        (fun v => (isStrong (f64 20) v, isWeak (f64 20) (f64 15) v)) =
      [(false, false), (false, false), (false, true), (false, true), (true, false), (true, false), (false, false)] := by
  decide +kernel

/-- R212: HIGH = LOW fails at word 7, before the zero height of the input (60_exceptions.md R505). -/
theorem test_dthr_equal_thresholds :
    after (fun t => t.err && decide (t.errCode = 0x04 ∧ t.errInfo = 7))
      (about (.dthr z z z fOne fOne) [] []) = true := by decide +kernel

/-- R340: the example with TRANS = 0. -/
theorem test_link_step :
    after (fun t => decide ((List.range 5).map (fun x => t.mem.read (0x300 + x)) = [1, 1, 0, 0, 0]))
      (about (.link false (mask 0x100 1 5) (mask 0x200 1 5) (mask 0x300 1 5)) []
        [(0x100, 1), (0x201, 1), (0x202, 0x80), (0x203, 1), (0x304, 0xFF)]) = true := by decide +kernel

/-- R340: the example with TRANS = 1. -/
theorem test_link_full_step :
    after (fun t => decide ((List.range 5).map (fun x => t.mem.read (0x300 + x)) = [1, 1, 1, 1, 0]))
      (about (.link true (mask 0x100 1 5) (mask 0x200 1 5) (mask 0x300 1 5)) []
        [(0x100, 1), (0x201, 1), (0x202, 0x80), (0x203, 1), (0x304, 0xFF)]) = true := by decide +kernel

/-- R360: the example [[1]]: D = 2, one vote in bin 2 for theta 0 and 179, none elsewhere. -/
theorem test_hough_counts :
    diagLen 1 1 = 2 ∧ (List.range 5).map (fun b => houghCount false referenceTrig (fun _ _ => true) 1 1 b 0) = [0, 0, 1, 0, 0] ∧
      houghCount true referenceTrig (fun _ _ => true) 1 1 2 179 = 1 ∧
      (List.range 5).map (houghRhoValue 1 1) = [f64 (-2), f64 (-1), posZero, fOne, fTwo] := by decide +kernel

/-- R362: the first, the middle and the last theta. -/
theorem test_hough_thetas :
    houghTheta 0 = 0xBFF921FB54442D18 ∧ houghTheta 90 = posZero ∧ houghTheta 179 = 0x3FF8DA7E39BAE2A3 := by
  decide +kernel

/-- R215: a SCRATCH that is no multiple of 8 is E_LAYOUT at word 5 with its address. -/
theorem test_canny_scratch_misaligned :
    after (fun t => t.err && decide (t.errCode = 0x06 ∧ t.errInfo = 5 ∧ t.errAddr = 0x2004))
      (about (.canny false (grid 0x100 1 1) (mask 0x200 1 1) 0x2004 .defaults) [] []) = true := by decide +kernel

/-- R217: OUT inside the scratch region is E_OVERLAP at word 5, the later operand. -/
theorem test_canny_overlap :
    after (fun t => t.err && decide (t.errCode = 0x08 ∧ t.errInfo = 5 ∧ t.errAddr = 0x2000))
      (about (.canny false (grid 0x100 1 1) (mask 0x20E9 1 1) 0x2000 .defaults) [] []) = true := by decide +kernel

/-- R22: 0.1 + 0.2, 0.1 · 3, 1 / 3, √2, an underflow and an overflow (IEEE 754 by hand). -/
theorem test_arithmetic :
    fadd 0x3FB999999999999A 0x3FC999999999999A = 0x3FD3333333333334 ∧
      fmul 0x3FB999999999999A 0x4008000000000000 = 0x3FD3333333333334 ∧
      fdiv fOne 0x4008000000000000 = 0x3FD5555555555555 ∧ fsqrt fTwo = 0x3FF6A09E667F3BCD ∧
      fmul 0x0000000000000001 fHalf = posZero ∧ fmul 0x7FEFFFFFFFFFFFFF fTwo = posInf := by decide +kernel

/-! ## Witnesses: encoding -/

theorem witness_DecodeOfEncode :
    (Instr.gauss ⟨2 ^ 64 - 1, 65535, 65535, 2 ^ 32 - 1⟩ (-(2 ^ 63)) 0).wellFormed = true := by decide

theorem witness_DecodeIsWellFormed : decode [0x308, 1, 0, 2, 0, 8] =
    .ok (.canny true ⟨1, 0, 0, 0⟩ ⟨2, 0, 0, 0⟩ 8 .defaults) := by decide

/-- Every command word of the statement, over words whose fields are all set. -/
theorem witness_DecodeReadsFields (w0 : Word) :
    ∃ (ws : List Word) (g : Nat → Grid),
      (∀ k, (g k).base = (wordAt ws k).toNat ∧ (g k).h = (wordAt ws (k + 1)).toNat % 2 ^ 16 ∧
        (g k).w = (wordAt ws (k + 1)).toNat / 2 ^ 16 % 2 ^ 16 ∧ (g k).stride = (wordAt ws (k + 1)).toNat / 2 ^ 32) ∧
      wordAt ws 0 = w0 ∧ wordAt ws 1 = 0xFFFFFFFFFFFFFFFF :=
  ⟨[w0, 0xFFFFFFFFFFFFFFFF, 0xFFFFFFFFFFFFFFFF],
    fun k => ⟨(wordAt [w0, 0xFFFFFFFFFFFFFFFF, 0xFFFFFFFFFFFFFFFF] k).toNat,
      (wordAt [w0, 0xFFFFFFFFFFFFFFFF, 0xFFFFFFFFFFFFFFFF] (k + 1)).toNat % 2 ^ 16,
      (wordAt [w0, 0xFFFFFFFFFFFFFFFF, 0xFFFFFFFFFFFFFFFF] (k + 1)).toNat / 2 ^ 16 % 2 ^ 16,
      (wordAt [w0, 0xFFFFFFFFFFFFFFFF, 0xFFFFFFFFFFFFFFFF] (k + 1)).toNat / 2 ^ 32⟩,
    fun _ => ⟨rfl, rfl, rfl, rfl⟩, rfl, rfl⟩

theorem witness_DecodeIgnoresUnusedWords :
    decode [0x208, 1, 0, 2, 0, 8] = .ok (.canny false ⟨1, 0, 0, 0⟩ ⟨2, 0, 0, 0⟩ 8 .defaults) ∧
      ∀ k, k ≤ 5 → wordAt [0x208, 1, 0, 2, 0, 8, 0xFFFFFFFFFFFFFFFF] k = wordAt [0x208, 1, 0, 2, 0, 8] k := by
  decide

/-! ## Witnesses: the ENGINE's step -/

theorem witness_StepRunsDecodedCommand :
    let s := about (.grad (grid 8 1 1) z z) [] []
    EngineNext s ∧ Fetchable s ∧ decode (fetchWords s.mem s.cmdPtr.toNat) = .ok (.grad (grid 8 1 1) z z) := by
  decide +kernel

theorem witness_StepRunsEncodedCommand :
    let i := Instr.dthr (grid 0x100 1 1) (mask 0x200 1 1) (mask 0x300 1 1) fTwo fOne
    let s := about i [] []
    EngineNext s ∧ Fetchable s ∧ i.wellFormed = true ∧
      ∀ k, k < 128 → s.mem.read (s.cmdPtr.toNat + k) = (bytesOfWords (encode i)).getD k 0 := by
  decide +kernel

/-- Both clauses, at the least misalignment and at the first aligned slot that does not fit; the slot before it
fits. -/
theorem witness_FetchChecks :
    let s := fun p : Word => { running with cmdPtr := p }
    EngineNext (s 1) ∧ (s 1).cmdPtr.toNat % 8 ≠ 0 ∧ (s 0x3F88).cmdPtr.toNat % 8 = 0 ∧
      (s 0x3F88).straps.memSize < (s 0x3F88).cmdPtr.toNat + 128 ∧ Fetchable (s 0x3F80) := by
  decide +kernel

/-- A word of its own at CMD_PTR. -/
def holding (w : Nat) : State := { running with mem := Memory.writeCells [] (cellsLE 0x3F00 8 w) }

theorem reservedBitSet_of {w : Word} (k : Nat) (h : 8 ≤ k ∧ k < 64 ∧ w.getLsbD k = true ∧ ¬ FlagDefined (w.toNat % 256) k) :
    ReservedBitSet w := ⟨k, h⟩

/-- OPCODE 0x09, the least that is undefined. -/
theorem witness_DecodeChecks_opcode :
    EngineNext (holding 0x109) ∧ Fetchable (holding 0x109) ∧
      9 ≤ (wordAt (fetchWords (holding 0x109).mem (holding 0x109).cmdPtr.toNat) 0).toNat % 256 := by decide +kernel

/-- OPCODE 0x08 with bit 10, the first flag it reserves. -/
theorem witness_DecodeChecks_reserved :
    EngineNext (holding 0x408) ∧ Fetchable (holding 0x408) ∧
      (wordAt (fetchWords (holding 0x408).mem (holding 0x408).cmdPtr.toNat) 0).toNat % 256 < 9 ∧
      ReservedBitSet (wordAt (fetchWords (holding 0x408).mem (holding 0x408).cmdPtr.toNat) 0) :=
  ⟨by decide +kernel, by decide +kernel, by decide +kernel, reservedBitSet_of 10 (by decide +kernel)⟩

/-- OPCODE 0x00 with no bit set. -/
theorem witness_DecodeChecks_end :
    EngineNext (holding 0) ∧ Fetchable (holding 0) ∧
      (wordAt (fetchWords (holding 0).mem (holding 0).cmdPtr.toNat) 0).toNat % 256 = 0 ∧
      ¬ ReservedBitSet (wordAt (fetchWords (holding 0).mem (holding 0).cmdPtr.toNat) 0) := by
  refine ⟨by decide +kernel, by decide +kernel, by decide +kernel, ?_⟩
  have h : wordAt (fetchWords (holding 0).mem (holding 0).cmdPtr.toNat) 0 = 0 := by decide +kernel
  rw [h]
  rintro ⟨k, -, -, hk, -⟩
  simp at hk

theorem witness_ErrorEntry_fetch :
    EngineNext (holding 9) ∧ fetchCommand (holding 9) = .error ⟨.opcode, 0, 0⟩ := by decide +kernel

theorem witness_ErrorEntry_operand :
    EngineNext (about (.grad z z z) [] []) ∧ fetchCommand (about (.grad z z z) [] []) = .ok (.grad z z z) ∧
      Instr.grad z z z ≠ .endList ∧ validate (.grad z z z) 0x4000 = some ⟨.invalidParameter, 1, 0⟩ := by
  decide +kernel

/-- An all-zero command word, and OPCODE 0x00 with its highest bit set. -/
theorem witness_EndEndsTheList :
    EngineNext running ∧ Fetchable running ∧ wordAt (fetchWords running.mem running.cmdPtr.toNat) 0 = 0 ∧
      EngineNext (holding (2 ^ 63)) ∧ Fetchable (holding (2 ^ 63)) ∧
      (wordAt (fetchWords (holding (2 ^ 63)).mem (holding (2 ^ 63)).cmdPtr.toNat) 0).toNat % 256 = 0 ∧
      wordAt (fetchWords (holding (2 ^ 63)).mem (holding (2 ^ 63)).cmdPtr.toNat) 0 ≠ 0 := by
  decide +kernel

theorem witness_EngineOutcomes :
    idle.moves = [] ∧ idle.busy = false ∧ running.moves = [] ∧ running.busy = true ∧ running.done = false ∧
      running.err = false := by decide

theorem witness_EveryListEnds : EngineNext running ∧ running.straps.memSize ≤ 2 ^ 63 := by decide

/-! ## Witnesses: validation -/

/-- Every clause of step B at boundary values: SIZE 0, 65536 and 2; SIGMA -0.0; HIGH = LOW; LOW the negative value
nearest zero; and scalars at the ends of their ranges that pass. -/
theorem witness_ScalarChecks :
    (¬ (1 ≤ (0 : Int) ∧ (0 : Int) ≤ 65535 ∧ (0 : Int) % 2 = 1)) ∧
      (¬ (1 ≤ (65537 : Int) ∧ (65537 : Int) ≤ 65535 ∧ (65537 : Int) % 2 = 1)) ∧
      (¬ (1 ≤ (2 : Int) ∧ (2 : Int) ≤ 65535 ∧ (2 : Int) % 2 = 1)) ∧
      (1 ≤ (65535 : Int) ∧ (65535 : Int) ≤ 65535 ∧ (65535 : Int) % 2 = 1) ∧ fgt negZero posZero = false ∧
      fgt fOne fOne = false ∧ fgt fOne 0x8000000000000001 = true ∧ flt 0x8000000000000001 posZero = true ∧
      GaussScalars 1 0x0000000000000001 ∧ GaussScalars 65535 posInf := by decide +kernel

/-- The kernel clause with an even kernel, the other clause with a zero-height image. -/
theorem witness_DimensionChecks :
    let i := Instr.conv .zero false (grid 0x100 1 1) (grid 0x200 2 1) z
    let j := Instr.nms ⟨0, 0, 1, 8⟩ z z
    ∃ kernel kernel' : Operand → Prop,
      (∀ b, kernel b ↔ (∃ bnd corr img ker out, i = .conv bnd corr img ker out) ∧ b.word = 3) ∧
      (∀ b, kernel' b ↔ (∃ bnd corr img ker out, j = .conv bnd corr img ker out) ∧ b.word = 3) ∧
      checkScalars i = none ∧ checkScalars j = none ∧
      operandsOf i = [⟨1, grid 0x100 1 1, 8, .input⟩] ++ ⟨3, grid 0x200 2 1, 8, .input⟩ :: [⟨5, z, 8, .output⟩] ∧
      operandsOf j = [] ++ ⟨1, ⟨0, 0, 1, 8⟩, 8, .input⟩ :: [⟨3, z, 8, .input⟩, ⟨5, z, 8, .output⟩] ∧
      kernel ⟨3, grid 0x200 2 1, 8, .input⟩ ∧ ¬ kernel ⟨1, grid 0x100 1 1, 8, .input⟩ ∧
      ¬ kernel' ⟨1, ⟨0, 0, 1, 8⟩, 8, .input⟩ :=
  ⟨_, _, fun _ => Iff.rfl, fun _ => Iff.rfl, rfl, rfl, rfl, rfl, ⟨⟨_, _, _, _, _, rfl⟩, rfl⟩,
    fun h => absurd h.2 (by decide), fun h => by obtain ⟨⟨_, _, _, _, _, h⟩, -⟩ := h; exact Instr.noConfusion h⟩

/-- An error of every code that an operand can raise. -/
theorem witness_OperandErrorRecords :
    validate (.conv .zero false (grid 0x100 1 1) (grid 0x200 2 1) z) 0x4000 = some ⟨.invalidKernel, 3, 0⟩ ∧
      validate (.gauss z 0 fOne) 0x4000 = some ⟨.invalidParameter, 3, 0⟩ ∧
      validate (.gauss (grid 0x100 2 3) 3 fOne) 0x4000 = some ⟨.shapeMismatch, 1, 0⟩ ∧
      validate (.gauss ⟨0x101, 1, 1, 8⟩ 1 fOne) 0x4000 = some ⟨.layout, 1, 0x101⟩ ∧
      validate (.gauss (grid 0x4000 1 1) 1 fOne) 0x4000 = some ⟨.range, 1, 0x4000⟩ ∧
      validate (.link false (mask 0x100 1 1) (mask 0x100 1 1) (mask 0x100 1 1)) 0x4000 = some ⟨.overlap, 5, 0x100⟩ := by
  decide +kernel

/-- What the statement about steps D to G asks of a command before step D. -/
abbrev PassesBC (i : Instr) : Prop :=
  (∀ k, ScalarHolds i k) ∧ ∀ o ∈ operandsOf i, DimensionsHold o.grid i o.word

theorem passesBC_gauss {g : Grid} (h : 1 ≤ g.h ∧ 1 ≤ g.w) : PassesBC (.gauss g 3 fOne) := by
  refine ⟨fun k => ?_, fun o ho => ?_⟩
  · match k with
    | 0 | 1 | 2 | n + 5 => trivial
    | 3 => exact ⟨by decide, by decide, by decide⟩
    | 4 => exact (by decide +kernel : fgt fOne posZero = true)
  · obtain rfl := List.mem_singleton.1 ho
    exact h

/-- Step D: a shape off by one column. -/
theorem witness_LaterChecksInOrder_shape :
    PassesBC (.gauss ⟨0, 3, 2, 24⟩ 3 fOne) ∧ ¬ ShapeHolds ⟨0, 3, 2, 24⟩ (.gauss ⟨0, 3, 2, 24⟩ 3 fOne) 1 :=
  ⟨passesBC_gauss (by decide), (by decide : ¬ (((3 : Nat) : Int) = 3 ∧ ((2 : Nat) : Int) = 3))⟩

/-- Step E: a stride of one byte too few. -/
theorem witness_LaterChecksInOrder_layout :
    PassesBC (.gauss ⟨0, 3, 3, 23⟩ 3 fOne) ∧ ShapeHolds ⟨0, 3, 3, 23⟩ (.gauss ⟨0, 3, 3, 23⟩ 3 fOne) 1 ∧
      ¬ LayoutHolds ⟨0, 3, 3, 23⟩ 8 :=
  ⟨passesBC_gauss (by decide), ⟨rfl, rfl⟩, by decide⟩

/-- Step F: in the least memory a span that ends eight bytes past it. -/
theorem witness_LaterChecksInOrder_range :
    PassesBC (.gauss ⟨64, 3, 3, 24⟩ 3 fOne) ∧ ShapeHolds ⟨64, 3, 3, 24⟩ (.gauss ⟨64, 3, 3, 24⟩ 3 fOne) 1 ∧
      LayoutHolds ⟨64, 3, 3, 24⟩ 8 ∧ ScratchAligned (.gauss ⟨64, 3, 3, 24⟩ 3 fOne) ∧
      spansOf (.gauss ⟨64, 3, 3, 24⟩ 3 fOne) = [] ++ ⟨1, 64, 136, .output⟩ :: [] ∧ 128 < 136 :=
  ⟨passesBC_gauss (by decide), ⟨rfl, rfl⟩, by decide, trivial, by decide, by decide⟩

/-- CANNY over one pixel, its scratch region at an address. -/
abbrev smallCanny (scratch : Nat) : Instr := .canny false (grid 0x100 1 1) (mask 0x108 1 1) scratch .defaults

/-- The end of step E with SCRATCH off by one, and step G with a mask whose one byte is the first of the scratch
region. -/
theorem witness_LaterChecksInOrder_scratch (scratch : Nat) :
    PassesBC (smallCanny scratch) ∧
      (∀ o ∈ operandsOf (smallCanny scratch), ShapeHolds o.grid (smallCanny scratch) o.word ∧ LayoutHolds o.grid o.es) ∧
      0x109 % 8 ≠ 0 ∧ ScratchAligned (smallCanny 0x108) ∧ (∀ sp ∈ spansOf (smallCanny 0x108), sp.hi ≤ 0x4000) ∧
      (spansOf (smallCanny 0x108) =
        [⟨1, 0x100, 0x108, .input⟩, ⟨3, 0x108, 0x109, .output⟩] ++ ⟨5, 0x108, 0x1F2, .output⟩ :: []) ∧
      ([⟨1, 0x100, 0x108, .input⟩, ⟨3, 0x108, 0x109, .output⟩] : List Span).Pairwise (fun a b => ¬ SpansMeet a b) ∧
      SpansMeet ⟨3, 0x108, 0x109, .output⟩ ⟨5, 0x108, 0x1F2, .output⟩ := by
  refine ⟨⟨fun k => trivial, fun o ho => ?_⟩, fun o ho => ?_, by decide, (by decide : 0x108 % 8 = 0), by decide,
    by decide, by decide, by decide⟩ <;>
  · simp only [operandsOf, List.mem_cons, List.not_mem_nil, or_false] at ho
    rcases ho with rfl | rfl <;>
      simp [DimensionsHold, ShapeHolds, SameShape, LayoutHolds, grid, mask]

/-! ## Witnesses: the commands, each at operands that end where memory or another operand begins -/

/-- The sample function of any image, as the statements about CONV and GRAD spell it. -/
theorem witness_ConvResult :
    ∃ (s : State) (bnd : Boundary) (corr : Bool) (img ker out : Grid) (S : Int → Int → F64),
      s.mem.wf ∧ Ready s.straps.memSize (.conv bnd corr img ker out) ∧
      ∀ sy sx : Int, S sy sx =
        if 0 ≤ sy ∧ sy < img.h ∧ 0 ≤ sx ∧ sx < img.w then rdF s.mem img sy.toNat sx.toNat
        else if bnd = .zero then 0x0000000000000000
        else rdF s.mem img (min (max sy 0) (img.h - 1)).toNat (min (max sx 0) (img.w - 1)).toNat :=
  ⟨running, .edgeReplicate, false, grid 0x100 3 3, grid 0x100 3 3, grid 0x3FB8 3 3, _, Memory.wf_nil,
    by decide +kernel, fun _ _ => rfl⟩

theorem witness_GaussResult :
    running.mem.wf ∧ Ready running.straps.memSize (.gauss (grid 0x3F38 5 5) 5 0x3FF6666666666666) :=
  ⟨Memory.wf_nil, by decide +kernel⟩

theorem witness_GradResult :
    ∃ (s : State) (img mag dir : Grid) (KX KY : Nat → Nat → F64),
      s.mem.wf ∧ Ready s.straps.memSize (.grad img mag dir) ∧
      (∀ i j, KX i j = if (i, j) = (1, 0) then fHalf else if (i, j) = (1, 2) then fNegHalf else posZero) ∧
      ∀ i j, KY i j = if (i, j) = (0, 1) then fHalf else if (i, j) = (2, 1) then fNegHalf else posZero :=
  ⟨running, grid 0x100 1 2, grid 0x110 1 2, grid 0x120 1 2, _, _, Memory.wf_nil, by decide +kernel,
    fun _ _ => rfl, fun _ _ => rfl⟩

theorem witness_NmsResult :
    ∃ (s : State) (mag dir out : Grid) (P : Int → Int → F64),
      s.mem.wf ∧ Ready s.straps.memSize (.nms mag dir out) ∧
      (∀ v u : Int, P v u =
        if 0 ≤ v ∧ v < mag.h ∧ 0 ≤ u ∧ u < mag.w then rdF s.mem mag v.toNat u.toNat else posZero) :=
  ⟨running, grid 0x100 2 2, grid 0x110 2 2, grid 0x200 2 2, _, Memory.wf_nil, by decide +kernel, fun _ _ => rfl⟩

/-- Both kinds of direction, and every bin with its neighbours. -/
theorem witness_NmsResult_directions :
    isFinite posInf = false ∧ isFinite posZero = true ∧
      [posZero, c45, f64 90, f64 135].map (fun th => floorInt (fdiv (fadd th c22_5) c45) % 4) = [0, 1, 2, 3] := by
  decide +kernel

theorem witness_DthrResult :
    running.mem.wf ∧ Ready running.straps.memSize
      (.dthr (grid 0x100 1 1) (mask 0x108 1 1) (mask 0x109 1 1) 0x0000000000000001 negZero) :=
  ⟨Memory.wf_nil, by decide +kernel⟩

theorem witness_LinkSingleHop :
    running.mem.wf ∧ Ready running.straps.memSize (.link false (mask 0x100 2 2) (mask 0x100 2 2) (mask 0x104 2 2)) :=
  ⟨Memory.wf_nil, by decide +kernel⟩

theorem witness_LinkFullIsPathForm :
    running.mem.wf ∧ Ready running.straps.memSize (.link true (mask 0x100 2 2) (mask 0x102 2 2) (mask 0x3FFC 2 2)) :=
  ⟨Memory.wf_nil, by decide +kernel⟩

/-- HOUGH of a 1 by 1 mask. -/
abbrev smallHough (trunc : Bool) : Instr :=
  .hough trunc (mask 0x100 1 1) ⟨0x1000, 5, 180, 720⟩ (grid 0x200 1 5) (grid 0x300 1 180)

theorem witness_HoughResult :
    ∃ (s : State) (r : Nat → Nat → Nat → Int),
      s.mem.wf ∧ Ready s.straps.memSize (smallHough false) ∧ (smallHough false).wellFormed = true ∧
      ∀ y x t, r y x t = roundEven
        (fadd (fmul (f64 x) (s.straps.trig.getD t (0, 0)).1) (fmul (f64 y) (s.straps.trig.getD t (0, 0)).2)) :=
  ⟨running, _, Memory.wf_nil, by decide +kernel, by decide +kernel, fun _ _ _ => rfl⟩

/-- With DEF = 1 and with the scalars at the ends of their ranges. -/
theorem witness_CannyIsTheComposition :
    Ready running.straps.memSize (.canny true (grid 0x100 2 2) (mask 0x120 2 2) 0x3EB0 .defaults) ∧
      Ready running.straps.memSize
        (.canny false (grid 0x100 1 1) (mask 0x108 1 1) 0x110 (.given 1 0x0000000000000001 fOne negZero)) := by
  decide +kernel

/-- An output with padding between its rows, beside an input. -/
theorem witness_InputsAndPaddingKept :
    ∃ (i : Instr) (s t : State), Ready s.straps.memSize i ∧ exec i s = .next t ∧
      ∃ o ∈ operandsOf i, o.role = .output ∧ 0 + 1 < o.grid.h ∧ o.grid.w * o.es < o.grid.stride :=
  ⟨.link true (mask 0x100 2 2) (mask 0x100 2 2) ⟨0x104, 2, 2, 3⟩, running, _, by decide +kernel, rfl,
    ⟨5, ⟨0x104, 2, 2, 3⟩, 1, .output⟩, by decide, rfl, by decide, by decide⟩

/-- A 1 by 1 kernel that holds 1.0, and a finite image of +0.0. -/
theorem witness_ConvUnitImpulse :
    ∃ (s : State) (img ker out : Grid), s.mem.wf ∧ Ready s.straps.memSize (.conv .zero false img ker out) ∧
      (∀ i j, i < ker.h → j < ker.w →
        rdF s.mem ker i j = if i = ker.h / 2 ∧ j = ker.w / 2 then fOne else posZero) ∧
      ∀ y x, y < img.h → x < img.w → isFinite (rdF s.mem img y x) = true := by
  refine ⟨about .endList [(0x200, fOne)] [], grid 0x100 1 1, grid 0x200 1 1, grid 0x300 1 1, wf_about _ _ _,
    by decide +kernel, ?_, ?_⟩ <;>
  · intro i j hi hj
    obtain rfl : i = 0 := Nat.lt_one_iff.1 hi
    obtain rfl : j = 0 := Nat.lt_one_iff.1 hj
    decide +kernel

/-- An infinite pixel and a finite one, three columns apart: both clauses are met. -/
theorem witness_GradFiniteWindow :
    ∃ (s : State) (img mag dir : Grid) (S : Int → Int → F64),
      s.mem.wf ∧ Ready s.straps.memSize (.grad img mag dir) ∧
      (∀ v u : Int, S v u =
        rdF s.mem img (min (max v 0) (img.h - 1)).toNat (min (max u 0) (img.w - 1)).toNat) ∧
      (∀ dy ∈ [-1, 0, 1], ∀ dx ∈ [-1, 0, 1], isFinite (S (0 + dy) (0 + dx)) = true) ∧
      isFinite (S (0 + 0) (3 + 0)) = false :=
  ⟨about .endList [(0x118, posInf)] [], grid 0x100 1 4, grid 0x200 1 4, grid 0x300 1 4, _, wf_about _ _ _,
    by decide +kernel, fun _ _ => rfl, by decide +kernel, by decide +kernel⟩

theorem witness_GradOfConstantImage :
    ∃ (s : State) (img mag dir : Grid) (c : F64), s.mem.wf ∧ Ready s.straps.memSize (.grad img mag dir) ∧
      isFinite c = true ∧ ∀ y x, y < img.h → x < img.w → rdF s.mem img y x = c := by
  refine ⟨about .endList [(0x100, negZero)] [], grid 0x100 1 1, grid 0x110 1 1, grid 0x120 1 1, negZero,
    wf_about _ _ _, by decide +kernel, by decide, ?_⟩
  intro i j hi hj
  obtain rfl : i = 0 := Nat.lt_one_iff.1 hi
  obtain rfl : j = 0 := Nat.lt_one_iff.1 hj
  decide +kernel

theorem witness_GaussSymmetry :
    running.mem.wf ∧ Ready running.straps.memSize (.gauss (grid 0x100 3 3) 3 fOne) ∧ ((3 : Nat) : Int) = 3 :=
  ⟨Memory.wf_nil, by decide +kernel, rfl⟩

theorem witness_GaussCentre :
    running.mem.wf ∧ Ready running.straps.memSize (.gauss (grid 0x100 5 5) 5 0x3FF6666666666666) ∧
      ((2 : Nat) : Int) = 5 / 2 ∧ isFinite (fmul fTwo (fmul 0x3FF6666666666666 0x3FF6666666666666)) = true ∧
      fgt (fmul fTwo (fmul 0x3FF6666666666666 0x3FF6666666666666)) posZero = true :=
  ⟨Memory.wf_nil, by decide +kernel, rfl, by decide +kernel, by decide +kernel⟩

/-- Every magnitude is +0.0, so no magnitude is below zero. -/
theorem witness_NmsThinsOnce :
    ∃ (s : State) (mag dir out again : Grid), s.mem.wf ∧ Ready s.straps.memSize (.nms mag dir out) ∧
      Ready s.straps.memSize (.nms out dir again) ∧
      ∀ y x, y < mag.h → x < mag.w → fge (rdF s.mem mag y x) posZero = true := by
  refine ⟨about .endList [(0x100, fOne)] [], grid 0x100 1 1, grid 0x110 1 1, grid 0x120 1 1, grid 0x100 1 1,
    wf_about _ _ _, by decide +kernel, by decide +kernel, ?_⟩
  intro i j hi hj
  obtain rfl : i = 0 := Nat.lt_one_iff.1 hi
  obtain rfl : j = 0 := Nat.lt_one_iff.1 hj
  decide +kernel

theorem witness_DthrPartition :
    running.mem.wf ∧ Ready running.straps.memSize
      (.dthr (grid 0x100 1 1) (mask 0x108 1 1) (mask 0x109 1 1) posInf posZero) :=
  ⟨Memory.wf_nil, by decide +kernel⟩

/-- A weak pixel next to a strong one, so that the last clause's hypothesis is met by more than strong pixels. -/
theorem witness_LinkBounds :
    ∃ (s : State) (strong weak out : Grid), s.mem.wf ∧ Ready s.straps.memSize (.link false strong weak out) ∧
      ∀ y x, y < out.h → x < out.w → rdM s.mem weak y x = true → rdM s.mem strong y x = true ∨
        ∃ y' x', y' < out.h ∧ x' < out.w ∧ Adjacent (y', x') (y, x) ∧ rdM s.mem strong y' x' = true := by
  refine ⟨about .endList [] [(0x100, 1), (0x201, 1)], mask 0x100 1 2, mask 0x200 1 2, mask 0x300 1 2,
    wf_about _ _ _, by decide +kernel, ?_⟩
  intro y x hy hx _
  obtain rfl : y = 0 := Nat.lt_one_iff.1 hy
  by_cases h : x = 0
  · subst h; exact .inl (by decide +kernel)
  · obtain rfl : x = 1 := by change x < 2 at hx; omega
    exact .inr ⟨0, 0, by decide, by decide, by decide, by decide +kernel⟩

theorem idle_legal : idle.straps.Legal := ⟨by decide, by decide, by decide, referenceTrig_admissible⟩

theorem witness_HoughOriginVotes :
    ∃ s : State, s.mem.wf ∧ s.straps.Legal ∧ Ready s.straps.memSize (smallHough true) ∧
      ∀ y x, y < 1 → x < 1 → (rdM s.mem (mask 0x100 1 1) y x = true ↔ y = 0 ∧ x = 0) := by
  refine ⟨about .endList [] [(0x100, 2)], wf_about _ _ _, idle_legal, by decide +kernel, ?_⟩
  intro y x hy hx
  obtain rfl : y = 0 := Nat.lt_one_iff.1 hy
  obtain rfl : x = 0 := Nat.lt_one_iff.1 hx
  decide +kernel

theorem witness_HoughTotalVotes :
    ∃ s : State, s.mem.wf ∧ s.straps.Legal ∧ Ready s.straps.memSize (smallHough false) ∧
      (smallHough false).wellFormed = true :=
  ⟨running, Memory.wf_nil, idle_legal, by decide +kernel, by decide +kernel⟩

/-- A mask at the shape limit: D = 32767. -/
theorem witness_DiagLenIsLeast : 1 ≤ 32766 ∧ 1 ≤ 1 ∧ 2 * diagLen 32766 1 + 1 ≤ 65535 := by decide +kernel

/-! ## Witnesses: numeric primitives -/

theorem witness_OrderedComparisons :
    isNaN canonNaN = true ∧ isFinite 0x7FEFFFFFFFFFFFFF = true ∧ isFinite 0x0000000000000001 = true ∧
      isNaN posInf = false ∧ isNaN negInf = false ∧ isNaN 0x7FEFFFFFFFFFFFFF = false := by decide

/-- An integer at the end of the range, and finite values at and on either side of a tie. -/
theorem witness_IntegerConversions :
    (2 ^ 53 - 1 : Int).natAbs < 2 ^ 53 ∧ isFinite fHalf = true ∧ roundEven fHalf = 0 ∧ roundEven 0x3FF8000000000000 = 2 ∧
      truncInt fNegHalf = 0 ∧ floorInt fNegHalf = -1 := by decide +kernel

theorem witness_ArithmeticIsNearest :
    isFinite fOne = true ∧ isFinite 0x3CA0000000000000 = true ∧ isFinite (fadd fOne 0x3CA0000000000000) = true ∧
      isFinite (fmul fOne 0x3CA0000000000000) = true ∧ isZero 0x3CA0000000000000 = false ∧
      isFinite (fdiv fOne 0x3CA0000000000000) = true := by decide +kernel

/-- The largest value and half its last place overflow, a little less does not; a product and a quotient overflow. -/
theorem witness_ArithmeticIsNearest_overflow :
    isFinite 0x7FEFFFFFFFFFFFFF = true ∧ isFinite 0x7C90000000000000 = true ∧
      isFinite (fadd 0x7FEFFFFFFFFFFFFF 0x7C90000000000000) = false ∧
      isFinite (fadd 0x7FEFFFFFFFFFFFFF 0x7C8FFFFFFFFFFFFF) = true ∧
      isFinite (fmul 0x7FEFFFFFFFFFFFFF 0xC000000000000000) = false ∧ isZero 0x8000000000000001 = false ∧
      isFinite (fdiv fOne 0x8000000000000001) = false := by decide +kernel

theorem witness_SquareRootIsNearest :
    isFinite 0x0000000000000001 = true ∧ isZero 0x0000000000000001 = false ∧ fsign 0x0000000000000001 = false := by
  decide

theorem witness_ArithmeticSpecialCases :
    isFinite 0x8000000000000001 = true ∧ isZero 0x8000000000000001 = false ∧ isZero negZero = true ∧
      isInf negInf = true ∧ isNaN negInf = false ∧ isNaN canonNaN = true ∧ fixed fOne + fixed 0xBFF0000000000000 = 0 ∧
      fmag negZero = fmag posZero ∧ fsign negZero = !fsign posZero ∧ flt 0x8000000000000001 posZero = true := by
  decide +kernel

/-! ## Witnesses: registers, HOST and reset -/

theorem witness_StartLaunchesTheList :
    (moving (.regWrite 0x108 4 1) idle).moves = .regWrite (idle.straps.mmioBase + 0x008) 4 1 :: [] ∧
      (1 : Reg).getLsbD 0 = true ∧ idle.busy = false ∧ after (fun t => t.busy) (moving (.regWrite 0x108 4 1) idle) = true := by
  decide +kernel

theorem witness_FlagAndEnableWrites :
    (moving (.regWrite 0x10C 4 6) idle).moves = .regWrite (idle.straps.mmioBase + 0x00C) 4 6 :: [] ∧
      (moving (.regWrite 0x110 4 6) idle).moves = .regWrite (idle.straps.mmioBase + 0x010) 4 6 :: [] := by decide

/-- Either half, idle and running. -/
theorem witness_PointerWrites :
    (moving (.regWrite 0x118 4 0xFFFFFFFF) idle).moves = .regWrite (idle.straps.mmioBase + 0x018) 4 0xFFFFFFFF :: [] ∧
      (moving (.regWrite 0x11C 4 1) running).moves = .regWrite (running.straps.mmioBase + 0x01C) 4 1 :: [] ∧
      idle.busy = false ∧ running.busy = true := by decide

/-- Each alternative of the statement at a boundary offset. -/
theorem witness_IgnoredWrites :
    (moving (.regWrite 0x1FF 1 0) idle).moves = .regWrite (idle.straps.mmioBase + 0x0FF) 1 0 :: [] ∧ 0x0FF < 0x100 ∧
      (0x014 : Nat) ∈ [0x000, 0x004, 0x014] ∧ 0x020 ≤ 0x0FC ∧ (0 : Reg).getLsbD 0 = false ∧ 0x009 % 4 ≠ 0 := by
  decide

theorem witness_RegisterReads :
    (moving (.regRead 0x1FF 8) idle).moves = .regRead (idle.straps.mmioBase + 0x0FF) 8 :: [] ∧
      (moving (.regRead 0x134 4) idle).moves = .regRead (idle.straps.mmioBase + 0x034) 4 :: [] ∧ 0x034 % 4 = 0 := by
  decide

/-- A list that reaches END with its interrupt enabled, one that fails with it, and a START. -/
theorem witness_InterruptFollowsTheFlags :
    EngineNext running ∧ running.done = false ∧ running.err = false ∧
      after (fun t => !t.busy && t.done) running = true ∧ after (fun t => !t.busy && t.err) (holding 9) = true ∧
      after (fun _ => true) (moving (.regWrite 0x108 4 1) idle) = true := by decide +kernel

theorem witness_HostMemoryWhileIdle :
    idle.mem.wf ∧ (moving (.memWrite 0x3FFF 1) idle).moves = .memWrite 0x3FFF 1 :: [] ∧
      (moving (.memRead 0x3FFF) idle).moves = .memRead 0x3FFF :: [] ∧ idle.busy = false ∧ 0x3FFF < idle.straps.memSize ∧
      (moving (.memRead 0x4000) idle).moves = .memRead 0x4000 :: [] ∧ idle.straps.memSize ≤ 0x4000 := by
  decide

/-- The running list is one END at 0x3F00: its first byte is used, the byte before it is not, and no byte is
written; the list that links into 0x300 writes that byte. -/
theorem witness_HostMemoryWhileBusy :
    running.mem.wf ∧ running.busy = true ∧ 0x3F00 < running.straps.memSize ∧ listUses running 0x3F00 = true ∧
      listUses running 0x3EFF = false ∧ listWrites running 0x3F00 = false ∧
      (let s := about (.link false (mask 0x100 1 1) (mask 0x100 1 1) (mask 0x300 1 1)) [] [];
        listWrites s 0x300 = true ∧ listWrites s 0x100 = false ∧ listUses s 0x100 = true) := by
  decide +kernel

/-- A command that fails, whose strong mask has no row: the list uses the span of its output, writes none of it, and
uses the slot that follows it to its last byte. -/
theorem test_failing_command_is_protected :
    let s := about (.link false ⟨0x100, 0, 1, 1⟩ (mask 0x180 1 1) (mask 0x300 1 1)) [] []
    completing s = none ∧ listUses s 0x100 = false ∧ listUses s 0x300 = true ∧ listUses s 0x301 = false ∧
      listWrites s 0x300 = false ∧ listUses s 0x3FFF = true ∧
      after (fun _ => true) (moving (.memWrite 0x300 1) s) = false := by
  decide +kernel

/-- The slot at CMD_PTR and, behind a command that fails, the one after it; an operand of the failing command. -/
theorem witness_HostMemoryWhileBusy_slots :
    let s := holding 9
    let u := about (.gauss (grid 0x300 1 1) 0 fOne) [] []
    s.busy = true ∧ s.straps.memSize ≤ 2 ^ 63 ∧ SlotOfList s 0x3F00 ∧ SlotOfList s 0x3F80 ∧
      u.busy = true ∧ SlotOfList u 0x3F00 ∧
      decode (fetchWords u.mem 0x3F00) = .ok (.gauss (grid 0x300 1 1) 0 fOne) ∧
      InOperand (.gauss (grid 0x300 1 1) 0 fOne) 0x307 ∧ InOperand (.canny true z z 8 .defaults) 8 := by
  refine ⟨by decide, by decide, ⟨0, by decide, by decide, by decide, .inl rfl, fun j h => absurd h (by omega)⟩,
    ⟨1, by decide, by decide, by decide, .inr (by decide +kernel), fun j h => ?_⟩, by decide,
    ⟨0, by decide, by decide, by decide, .inl rfl, fun j h => absurd h (by omega)⟩, by decide +kernel,
    .inl ⟨_, List.mem_singleton_self _, by decide, by decide, by decide, by decide⟩,
    .inr ⟨_, _, _, _, _, rfl, by decide, by decide⟩⟩
  obtain rfl : j = 0 := by omega
  decide +kernel

theorem witness_ResetMove : (moving .reset running).moves = .reset :: [] := rfl

/-- A reset while idle, over a failing descriptor, at END, and with a command in flight. -/
theorem witness_ResetKeepsMemory :
    (moving .reset idle).mem.wf ∧ (∃ t, step (moving .reset idle) = .next t) ∧ idle.busy = false ∧
      fetchCommand (holding 9) = .error ⟨.opcode, 0, 0⟩ ∧ fetchCommand (holding 0) = .ok .endList ∧
      completing (about (.gauss (grid 0x100 1 1) 1 fOne) [] []) = some (.gauss (grid 0x100 1 1) 1 fOne) :=
  ⟨Memory.wf_nil, ⟨_, rfl⟩, rfl, by decide +kernel, by decide +kernel, by decide +kernel⟩

/-- A byte at each end of the least memory. -/
theorem witness_ResetHasInvariant :
    Memory.wf [(0, 1), (127, 0xFF)] ∧ ∀ c ∈ ([(0, 1), (127, 0xFF)] : Memory), c.1 < Config.memSize := by
  have h := Config.memSize_bounds.1
  refine ⟨by decide, fun c hc => ?_⟩
  rcases List.mem_cons.1 hc with rfl | hc
  · exact lt_of_lt_of_le (by decide : 0 < 128) h
  · obtain rfl := List.mem_singleton.1 hc
    exact lt_of_lt_of_le (by decide : 127 < 128) h

/-- A sound state that takes a step: the machine running, with legal straps. -/
theorem witness_StepKeepsInvariant : running.Inv ∧ ∃ t, step running = .next t where
  left :=
    { mem_wf := Memory.wf_nil
      mem_inside := by intro c hc; cases hc
      straps_legal := idle_legal
      busy_alone := by decide
      done_or_err := by decide
      code_known := by decide
      err_has_code := by decide
      no_code_while_running := by decide
      clean_report := by decide
      idle_ran := by decide
      count_ran := by decide
      ran_valid := by intro i hi; cases hi
      pointer_inside := by intro h; exact absurd rfl h }
  right := ⟨_, rfl⟩

end Sys2Proof.Tests
end

section
/-! SUPPORT. The rounding of binary64 as a nearest point (00_scope.md R22): the units that magnitude bits stand for
grow with the bits, a rounded quotient is a whole number of steps of its last place, and no other magnitude is
nearer. Sums, products and quotients are then instances of one statement about `roundRat`. -/

namespace Sys2Proof.Machine

/-! ## The units of magnitude bits -/

/-- The units of 2^-1074 that magnitude bits stand for; those of an infinity stand for 2^1024. -/
def magUnits (m : Nat) : Nat :=
  if m / 2 ^ 52 = 0 then m % 2 ^ 52 else (m % 2 ^ 52 + 2 ^ 52) * 2 ^ (m / 2 ^ 52 - 1)

theorem fixedMag_eq_magUnits (v : F64) : fixedMag v = magUnits (fmag v) := rfl

/-- `q` steps of size 2^e are the magnitude bits e·2^52 + q, a carry out of the 53 bits included. -/
theorem magUnits_steps {e q : Nat} (hq : q ≤ 2 ^ 53) (he : e = 0 ∨ 2 ^ 52 ≤ q) :
    magUnits (e * 2 ^ 52 + q) = q * 2 ^ e := by
  by_cases hlow : q < 2 ^ 52
  · obtain rfl : e = 0 := by omega
    rw [magUnits, if_pos (by omega), pow_zero]
    omega
  · rw [magUnits, if_neg (by omega)]
    rcases hq.eq_or_lt with rfl | hq
    · rw [show (e * 2 ^ 52 + 2 ^ 53) / 2 ^ 52 - 1 = e + 1 by omega, show (e * 2 ^ 52 + 2 ^ 53) % 2 ^ 52 = 0 by omega,
        pow_succ]
      ring
    · rw [show (e * 2 ^ 52 + q) / 2 ^ 52 - 1 = e by omega, show (e * 2 ^ 52 + q) % 2 ^ 52 + 2 ^ 52 = q by omega]

/-- Every magnitude is a number of at most 53 bits, in steps of a power of two. -/
theorem exists_steps (m : Nat) : ∃ e q, q < 2 ^ 53 ∧ (e = 0 ∨ 2 ^ 52 ≤ q) ∧ m = e * 2 ^ 52 + q := by
  by_cases h : m < 2 ^ 52
  · exact ⟨0, m, by omega, .inl rfl, by omega⟩
  · exact ⟨m / 2 ^ 52 - 1, m % 2 ^ 52 + 2 ^ 52, by omega, by omega, by omega⟩

/-- More magnitude bits are more units. -/
theorem magUnits_strictMono : StrictMono magUnits := by
  refine strictMono_nat_of_lt_succ fun m => ?_
  obtain ⟨e, q, hq, he, rfl⟩ := exists_steps m
  rw [add_assoc, magUnits_steps hq.le he, magUnits_steps hq (by omega)]
  exact Nat.mul_lt_mul_of_pos_right q.lt_succ_self (by positivity)

/-- Magnitude bits stand for a multiple of 2^e units, or for fewer than 2^52 steps of that size. -/
theorem dvd_magUnits_or_lt (e m : Nat) : 2 ^ e ∣ magUnits m ∨ magUnits m < 2 ^ 52 * 2 ^ e := by
  obtain ⟨k, q, hq, hk, rfl⟩ := exists_steps m
  rw [magUnits_steps hq.le hk]
  by_cases hke : e ≤ k
  · exact .inl (Dvd.dvd.mul_left (pow_dvd_pow 2 hke) q)
  · right
    calc q * 2 ^ k < 2 ^ 53 * 2 ^ k := Nat.mul_lt_mul_of_pos_right hq (by positivity)
      _ = 2 ^ 52 * 2 ^ (k + 1) := by ring
      _ ≤ 2 ^ 52 * 2 ^ e := Nat.mul_le_mul_left _ (Nat.pow_le_pow_right (by norm_num) (by omega))

/-! ## The nearest magnitude -/

/-- Of all multiples of a step, the one at most half a step away is nearest; at a tie it is half a step away. -/
theorem multiple_nearest {x δ : ℝ} {q k : Nat} (hδ : 0 < δ) (hq : 2 * |q * δ - x| ≤ δ) (hk : k ≠ q) :
    |q * δ - x| ≤ |k * δ - x| ∧ (|q * δ - x| = |k * δ - x| → 2 * |q * δ - x| = δ) := by
  have hstep : (1 : ℝ) ≤ |(k : ℝ) - q| := by
    exact_mod_cast Int.one_le_abs (sub_ne_zero.2 (Nat.cast_injective.ne hk) : (k : ℤ) - q ≠ 0)
  have hfar : δ ≤ |k * δ - x| + |q * δ - x| :=
    calc δ ≤ |(k : ℝ) - q| * δ := le_mul_of_one_le_left hδ.le hstep
      _ = |(k * δ - x) - (q * δ - x)| := by rw [sub_sub_sub_cancel_right, ← sub_mul, abs_mul, abs_of_pos hδ]
      _ ≤ |k * δ - x| + |q * δ - x| := abs_sub _ _
  constructor
  · linarith
  · intro h; linarith

/-- A number of last-place steps at most half a step from `x` is nearer to `x` than any other magnitude, where `x`
has no fewer than 53 bits above the last place; another is equally near only half a step away. -/
theorem magUnits_nearest {x : ℝ} {e q : Nat} (hx : e = 0 ∨ (2 : ℝ) ^ 52 * 2 ^ e ≤ x)
    (hq : 2 * |q * 2 ^ e - x| ≤ 2 ^ e) (m : Nat) :
    |q * 2 ^ e - x| ≤ |magUnits m - x| ∧
      (|q * 2 ^ e - x| = |magUnits m - x| → magUnits m ≠ q * 2 ^ e → 2 * |q * 2 ^ e - x| = 2 ^ e) := by
  by_cases hdvd : 2 ^ e ∣ magUnits m
  · obtain ⟨k, hk⟩ := hdvd
    rw [mul_comm] at hk
    have hcast : (magUnits m : ℝ) = k * 2 ^ e := by rw [hk]; push_cast; rfl
    by_cases hkq : k = q
    · exact ⟨by rw [hcast, hkq], fun _ hne => absurd (by rw [hk, hkq]) hne⟩
    · obtain ⟨hle, htie⟩ := multiple_nearest (by positivity) hq hkq
      rw [hcast]
      exact ⟨hle, fun h _ => htie h⟩
  · have hlow : (magUnits m : ℝ) < 2 ^ 52 * 2 ^ e := by
      exact_mod_cast (dvd_magUnits_or_lt e m).resolve_left hdvd
    have hx : (2 : ℝ) ^ 52 * 2 ^ e ≤ x := hx.resolve_left (by rintro rfl; exact hdvd (one_dvd _))
    have hpower : |q * 2 ^ e - x| ≤ x - 2 ^ 52 * 2 ^ e := by
      by_cases hq52 : q = 2 ^ 52
      · rw [hq52, abs_of_nonpos] <;> push_cast <;> linarith
      · have h := (multiple_nearest (by positivity) hq (Ne.symm hq52)).1
        rw [Nat.cast_pow, Nat.cast_ofNat] at h
        rwa [abs_of_nonpos (by linarith : (2 : ℝ) ^ 52 * 2 ^ e - x ≤ 0), neg_sub] at h
    have hfar : x - magUnits m = |magUnits m - x| := by rw [abs_of_nonpos] <;> linarith
    exact ⟨by linarith, fun h => by linarith⟩

/-! ## The integer quotient -/

/-- `divEven` is at most half away from the quotient, and even where it is half away. -/
theorem divEven_spec (n : Nat) {d : Nat} (hd : 0 < d) :
    2 * (divEven n d * d) ≤ 2 * n + d ∧ 2 * n ≤ 2 * (divEven n d * d) + d ∧
      (2 * (divEven n d * d) = 2 * n + d ∨ 2 * n = 2 * (divEven n d * d) + d → divEven n d % 2 = 0) := by
  have hn := Nat.div_add_mod n d
  have hr := Nat.mod_lt n hd
  rw [mul_comm] at hn
  rw [divEven]
  split_ifs with h
  · rw [add_mul, one_mul]
    omega
  · omega

theorem le_divEven {n d k : Nat} (hd : 0 < d) (h : k * d ≤ n) : k ≤ divEven n d := by
  have hk := (Nat.le_div_iff_mul_le hd).2 h
  rw [divEven]
  split_ifs <;> omega

theorem divEven_le {n d k : Nat} (hd : 0 < d) (h : n ≤ k * d) : divEven n d ≤ k := by
  obtain ⟨hlow, -, -⟩ := divEven_spec n hd
  by_contra hk
  have : (k + 1) * d ≤ divEven n d * d := Nat.mul_le_mul_right d (by omega)
  rw [add_mul, one_mul] at this
  omega

/-! ## The rounded magnitude -/

/-- The exponent of the last place of `n / d` units. -/
def lastPlace (n d : Nat) : Nat := (n / d).log2 + 1 - 53

/-- How many steps of its last place `n / d` units are rounded to. -/
def significand (n d : Nat) : Nat := divEven n (d * 2 ^ lastPlace n d)

theorem roundMag_eq (n d : Nat) :
    roundMag n d = min (lastPlace n d * 2 ^ 52 + significand n d) infMag := rfl

theorem lt_of_lastPlace {n d : Nat} (hd : 0 < d) : n < 2 ^ 53 * (d * 2 ^ lastPlace n d) := by
  have h : n / d < 2 ^ (53 + lastPlace n d) :=
    lt_of_lt_of_le Nat.lt_log2_self (Nat.pow_le_pow_right (by norm_num) (by rw [lastPlace]; omega))
  rw [Nat.div_lt_iff_lt_mul hd, pow_add] at h
  calc n < 2 ^ 53 * 2 ^ lastPlace n d * d := h
    _ = 2 ^ 53 * (d * 2 ^ lastPlace n d) := by ring

theorem le_of_lastPlace {n d : Nat} (hd : 0 < d) :
    lastPlace n d = 0 ∨ 2 ^ 52 * (d * 2 ^ lastPlace n d) ≤ n := by
  by_cases h0 : lastPlace n d = 0
  · exact .inl h0
  · right
    have hlog : (n / d).log2 = 52 + lastPlace n d := by rw [lastPlace] at *; omega
    have hne : n / d ≠ 0 := by intro h; rw [h, Nat.log2_zero] at hlog; omega
    have h := Nat.log2_self_le hne
    rw [hlog, Nat.le_div_iff_mul_le hd, pow_add] at h
    calc 2 ^ 52 * (d * 2 ^ lastPlace n d) = 2 ^ 52 * 2 ^ lastPlace n d * d := by ring
      _ ≤ n := h

theorem lastPlace_le {n d e : Nat} (hd : 0 < d) (hn : n < 2 ^ 53 * (d * 2 ^ e)) : lastPlace n d ≤ e := by
  have hquot : n / d < 2 ^ (53 + e) := by
    rw [Nat.div_lt_iff_lt_mul hd, pow_add]
    calc n < 2 ^ 53 * (d * 2 ^ e) := hn
      _ = 2 ^ 53 * 2 ^ e * d := by ring
  rw [lastPlace]
  by_cases h0 : n / d = 0
  · simp [h0]
  · have := (Nat.log2_lt h0).2 hquot
    omega

theorem significand_le {n d : Nat} (hd : 0 < d) : significand n d ≤ 2 ^ 53 :=
  divEven_le (by positivity) (lt_of_lastPlace hd).le

theorem significand_normal {n d : Nat} (hd : 0 < d) : lastPlace n d = 0 ∨ 2 ^ 52 ≤ significand n d :=
  (le_of_lastPlace hd).imp_right (le_divEven (by positivity))

/-- The rounded magnitude, before the clamp to infinity, in units. -/
theorem magUnits_significand {n d : Nat} (hd : 0 < d) :
    magUnits (lastPlace n d * 2 ^ 52 + significand n d) = significand n d * 2 ^ lastPlace n d :=
  magUnits_steps (significand_le hd) (significand_normal hd)

theorem roundMag_of_finite {n d : Nat} (h : roundMag n d < infMag) :
    roundMag n d = lastPlace n d * 2 ^ 52 + significand n d := by
  rw [roundMag_eq] at *
  omega

theorem magUnits_roundMag {n d : Nat} (hd : 0 < d) (h : roundMag n d < infMag) :
    magUnits (roundMag n d) = significand n d * 2 ^ lastPlace n d := by
  rw [roundMag_of_finite h, magUnits_significand hd]

/-- The significand is the quotient in steps of the last place, rounded to nearest, ties to even. -/
theorem significand_spec (n : Nat) {d : Nat} (hd : 0 < d) :
    2 * (significand n d * (d * 2 ^ lastPlace n d)) ≤ 2 * n + d * 2 ^ lastPlace n d ∧
      2 * n ≤ 2 * (significand n d * (d * 2 ^ lastPlace n d)) + d * 2 ^ lastPlace n d ∧
      (2 * (significand n d * (d * 2 ^ lastPlace n d)) = 2 * n + d * 2 ^ lastPlace n d ∨
        2 * n = 2 * (significand n d * (d * 2 ^ lastPlace n d)) + d * 2 ^ lastPlace n d →
          significand n d % 2 = 0) :=
  divEven_spec n (by positivity)

/-- The exact quotient is at most half a last place away from its rounding. -/
theorem significand_half_step {n d : Nat} (hd : 0 < d) :
    2 * |(significand n d : ℝ) * 2 ^ lastPlace n d - n / d| ≤ 2 ^ lastPlace n d := by
  obtain ⟨hlow, hhigh, -⟩ := significand_spec n hd
  have hlow : (2 : ℝ) * (significand n d * (d * 2 ^ lastPlace n d)) ≤ 2 * n + d * 2 ^ lastPlace n d := by
    exact_mod_cast hlow
  have hhigh : (2 : ℝ) * n ≤ 2 * (significand n d * (d * 2 ^ lastPlace n d)) + d * 2 ^ lastPlace n d := by
    exact_mod_cast hhigh
  have hd' : (0 : ℝ) < d := by exact_mod_cast hd
  have hx : (n : ℝ) = n / d * d := (div_mul_cancel₀ _ hd'.ne').symm
  rw [← abs_two (α := ℝ), ← abs_mul, abs_le]
  rw [hx] at hlow hhigh
  constructor <;> refine le_of_mul_le_mul_right ?_ hd' <;> linarith

/-- A quotient half a last place away from its rounding was rounded to the even neighbour. -/
theorem significand_even {n d : Nat} (hd : 0 < d)
    (h : 2 * |(significand n d : ℝ) * 2 ^ lastPlace n d - n / d| = 2 ^ lastPlace n d) :
    significand n d % 2 = 0 := by
  obtain ⟨-, -, heven⟩ := significand_spec n hd
  refine heven ?_
  have hd' : (0 : ℝ) < d := by exact_mod_cast hd
  have hx : (n : ℝ) = n / d * d := (div_mul_cancel₀ _ hd'.ne').symm
  rw [← abs_two (α := ℝ), ← abs_mul, abs_eq (by positivity)] at h
  refine h.imp (fun h => ?_) fun h => ?_
  · have h : (2 : ℝ) * (significand n d * (d * 2 ^ lastPlace n d)) = 2 * n + d * 2 ^ lastPlace n d := by
      rw [hx]; linear_combination (d : ℝ) * h
    exact_mod_cast h
  · have h : (2 : ℝ) * n = 2 * (significand n d * (d * 2 ^ lastPlace n d)) + d * 2 ^ lastPlace n d := by
      rw [hx]; linear_combination (-d : ℝ) * h
    exact_mod_cast h

/-- No magnitude is nearer to `n / d` units than the rounded one; another is equally near only to an even one. -/
theorem roundMag_nearest {n d : Nat} (hd : 0 < d) (hfin : roundMag n d < infMag) (m : Nat) :
    |(magUnits (roundMag n d) : ℝ) - n / d| ≤ |(magUnits m : ℝ) - n / d| ∧
      (|(magUnits (roundMag n d) : ℝ) - n / d| = |(magUnits m : ℝ) - n / d| → magUnits m ≠ magUnits (roundMag n d) →
        roundMag n d % 2 = 0) := by
  have hd' : (0 : ℝ) < d := by exact_mod_cast hd
  have hx : lastPlace n d = 0 ∨ (2 : ℝ) ^ 52 * 2 ^ lastPlace n d ≤ n / d := by
    refine (le_of_lastPlace hd).imp_right fun h => (le_div_iff₀ hd').2 ?_
    have h : (2 : ℝ) ^ 52 * (d * 2 ^ lastPlace n d) ≤ n := by exact_mod_cast h
    linarith
  obtain ⟨hle, htie⟩ := magUnits_nearest hx (significand_half_step hd) m
  rw [magUnits_roundMag hd hfin, Nat.cast_mul, Nat.cast_pow, Nat.cast_ofNat]
  refine ⟨hle, fun h hne => ?_⟩
  have := significand_even hd (htie h hne)
  rw [roundMag_of_finite hfin]
  omega

theorem mul_two_pow_le (d : Nat) {e k : Nat} (h : e ≤ k) : d * 2 ^ e ≤ d * 2 ^ k :=
  Nat.mul_le_mul_left d (Nat.pow_le_pow_right (by norm_num) h)

theorem two_mul_two_pow (d e : Nat) : 2 * (d * 2 ^ e) = d * 2 ^ (e + 1) := by ring

/-- Rounding stays finite below (2^54 - 1)·2^970, halfway between the largest finite value and 2^1024. -/
theorem roundMag_finite_iff {n d : Nat} (hd : 0 < d) :
    roundMag n d < infMag ↔ n < (2 ^ 54 - 1) * 2 ^ 970 * fixedOne * d := by
  have hround : roundMag n d < infMag ↔ lastPlace n d * 2 ^ 52 + significand n d < 2047 * 2 ^ 52 := by
    rw [roundMag_eq, infMag]
    omega
  have hthreshold : (2 ^ 54 - 1) * 2 ^ 970 * fixedOne * d = (2 ^ 54 - 1) * (d * 2 ^ 2044) := by
    rw [fixedOne, mul_assoc _ (2 ^ 970), ← pow_add, mul_assoc, mul_comm d]
  have hpos : 0 < d * 2 ^ 2044 := by positivity
  have hlow := le_of_lastPlace (n := n) hd
  have hhigh := lt_of_lastPlace (n := n) hd
  have hq := significand_le (n := n) hd
  have hnormal := significand_normal (n := n) hd
  obtain ⟨hbelow, habove, heven⟩ := significand_spec n hd
  rw [hround, hthreshold]
  rcases lt_trichotomy (lastPlace n d) 2045 with he | he | he
  · have hstep : d * 2 ^ lastPlace n d ≤ d * 2 ^ 2044 := mul_two_pow_le d (Nat.le_of_lt_succ he)
    generalize d * 2 ^ 2044 = u at *
    omega
  · have hstep : d * 2 ^ lastPlace n d = 2 * (d * 2 ^ 2044) := by rw [he, two_mul_two_pow]
    rw [hstep] at hbelow habove heven
    generalize d * 2 ^ 2044 = u at *
    constructor
    · intro hfin
      have hmul : significand n d * (2 * u) ≤ (2 ^ 53 - 1) * (2 * u) := Nat.mul_le_mul_right _ (by omega)
      by_contra hn
      have hodd : significand n d ≠ 2 ^ 53 - 1 := fun h => by omega
      have hmul : significand n d * (2 * u) ≤ (2 ^ 53 - 2) * (2 * u) := Nat.mul_le_mul_right _ (by omega)
      omega
    · intro hn
      by_contra hge
      rw [show significand n d = 2 ^ 53 by omega] at hbelow
      omega
  · have hstep : 2 * (2 * (d * 2 ^ 2044)) ≤ d * 2 ^ lastPlace n d := by
      rw [two_mul_two_pow, two_mul_two_pow]
      exact mul_two_pow_le d he
    generalize d * 2 ^ 2044 = u at *
    omega

end Sys2Proof.Machine
end

section
/-! SUPPORT. Signed values (00_scope.md R21, R22): the value of a sign and magnitude bits, which classes a rounding
falls in, and that a finite rounding of `N / d` units is the nearest binary64 value with ties to even. -/

namespace Sys2Proof.Machine

/-! ## Signs -/

/-- The factor -1 or 1 of a sign bit. -/
def signOf (s : Bool) : Int := if s then -1 else 1

theorem signOf_mul (s : Bool) (z : Int) : signOf s * z = if s then -z else z := by cases s <;> simp [signOf]

theorem fixed_eq_signOf (v : F64) : fixed v = signOf (fsign v) * fixedMag v := (signOf_mul _ _).symm

theorem signOf_xor (a b : Bool) : signOf (a != b) = signOf a * signOf b := by
  cases a <;> cases b <;> rfl

theorem signOf_mul_self (s : Bool) : signOf s * signOf s = 1 := by cases s <;> rfl

theorem natAbs_signOf_mul (s : Bool) (z : Int) : (signOf s * z).natAbs = z.natAbs := by
  cases s <;> simp [signOf]

theorem signOf_mul_neg_iff {s : Bool} {n : Nat} (hn : n ≠ 0) : signOf s * (n : Int) < 0 ↔ s = true := by
  cases s
  · simp [signOf]
  · simp [signOf]
    omega

/-- A value is its units with either sign. -/
theorem fixed_signOf_or (s : Bool) (v : F64) :
    fixed v = signOf s * fixedMag v ∨ fixed v = signOf s * -(fixedMag v : Int) := by
  rw [fixed_eq_signOf]
  cases s <;> cases fsign v <;> simp [signOf]

theorem natAbs_fixed (v : F64) : (fixed v).natAbs = fixedMag v := by
  rw [fixed_eq_signOf, natAbs_signOf_mul, Int.natAbs_natCast]

/-! ## The fields and the class of a rounding -/

theorem roundMag_lt (n d : Nat) : roundMag n d < 2 ^ 63 := lt_of_le_of_lt (roundMag_le n d) (by decide)

theorem fsign_roundRat (s : Bool) (n d : Nat) : fsign (roundRat s n d) = s := fsign_packF (roundMag_lt n d)

theorem fmag_roundRat (s : Bool) (n d : Nat) : fmag (roundRat s n d) = roundMag n d := fmag_packF (roundMag_lt n d)

theorem fixed_roundRat (s : Bool) (n d : Nat) : fixed (roundRat s n d) = signOf s * magUnits (roundMag n d) := by
  rw [fixed_eq_signOf, fsign_roundRat, fixedMag_eq_magUnits, fmag_roundRat]

theorem isFinite_roundRat {s : Bool} {n d : Nat} : isFinite (roundRat s n d) = true ↔ roundMag n d < infMag := by
  rw [isFinite, fmag_roundRat, decide_eq_true_iff]

theorem isFinite_roundRat_iff {s : Bool} {n d : Nat} (hd : 0 < d) :
    isFinite (roundRat s n d) = true ↔ n < (2 ^ 54 - 1) * 2 ^ 970 * fixedOne * d :=
  isFinite_roundRat.trans (roundMag_finite_iff hd)

/-- A rounding that is not finite is an infinity, and the exact value is not zero. -/
theorem roundRat_overflow {s : Bool} {n d : Nat} (h : isFinite (roundRat s n d) = false) :
    isInf (roundRat s n d) = true ∧ n ≠ 0 := by
  have hge : ¬ roundMag n d < infMag := fun hlt => by simp [isFinite_roundRat.2 hlt] at h
  refine ⟨?_, ?_⟩
  · have hle := roundMag_le n d
    rw [isInf, fmag_roundRat, decide_eq_true_iff]
    omega
  · rintro rfl
    exact hge (by rw [roundMag_zero]; decide)

/-- A rounding has the sign of the exact value, where that is not zero. -/
theorem fsign_roundRat_iff {s : Bool} {n d k : Nat} (hk : k ≠ 0) :
    fsign (roundRat s n d) = true ↔ signOf s * (k : Int) < 0 := by
  rw [fsign_roundRat, signOf_mul_neg_iff hk]

/-! ## The nearest value -/

theorem roundMag_nearest_nat {n d : Nat} (hd : 0 < d) (hfin : roundMag n d < infMag) (m : Nat) :
    ((magUnits (roundMag n d) : Int) * d - n).natAbs ≤ ((magUnits m : Int) * d - n).natAbs ∧
      (((magUnits (roundMag n d) : Int) * d - n).natAbs = ((magUnits m : Int) * d - n).natAbs →
        magUnits m ≠ magUnits (roundMag n d) → roundMag n d % 2 = 0) := by
  have hd' : (0 : ℝ) < d := by exact_mod_cast hd
  have hscale (u : Nat) : (((u : Int) * d - n).natAbs : ℝ) = |(u : ℝ) - n / d| * d := by
    rw [Nat.cast_natAbs, Int.cast_abs, ← abs_of_pos hd', ← abs_mul, abs_of_pos hd', sub_mul,
      div_mul_cancel₀ _ hd'.ne']
    push_cast
    rfl
  obtain ⟨hle, htie⟩ := roundMag_nearest hd hfin m
  constructor
  · rw [← Nat.cast_le (α := ℝ), hscale, hscale]
    exact mul_le_mul_of_nonneg_right hle hd'.le
  · intro h
    rw [← Nat.cast_inj (R := ℝ), hscale, hscale] at h
    exact htie (mul_right_cancel₀ hd'.ne' h)

/-- Subtracting is as far as adding only where there is nothing to subtract or to subtract from. -/
theorem natAbs_sub_eq_add {p n : Nat} (h : ((p : Int) - n).natAbs = p + n) : p = 0 ∨ n = 0 := by omega

/-- A finite rounding of plus or minus `n / d` units is at least as near as every value, and even where another
value is equally near. -/
theorem roundRat_nearest {s : Bool} {n d : Nat} (hd : 0 < d) (hfin : isFinite (roundRat s n d) = true) {N : Int}
    (hN : N = signOf s * n) (v : F64) :
    (fixed (roundRat s n d) * d - N).natAbs ≤ (fixed v * d - N).natAbs ∧
      ((fixed (roundRat s n d) * d - N).natAbs = (fixed v * d - N).natAbs →
        fixed v ≠ fixed (roundRat s n d) → fmag (roundRat s n d) % 2 = 0) := by
  obtain ⟨hle, htie⟩ := roundMag_nearest_nat hd (isFinite_roundRat.1 hfin) (fmag v)
  have hself : (fixed (roundRat s n d) * d - N).natAbs = ((magUnits (roundMag n d) : Int) * d - n).natAbs := by
    rw [fixed_roundRat, hN, mul_assoc, ← mul_sub, natAbs_signOf_mul]
  rcases fixed_signOf_or s v with hv | hv
  · have hother : (fixed v * d - N).natAbs = ((magUnits (fmag v) : Int) * d - n).natAbs := by
      rw [hv, hN, mul_assoc, ← mul_sub, natAbs_signOf_mul, fixedMag_eq_magUnits]
    rw [hself, hother, fmag_roundRat]
    refine ⟨hle, fun h hne => htie h fun he => hne ?_⟩
    rw [hv, fixed_roundRat, fixedMag_eq_magUnits, he]
  · have hother : (fixed v * d - N).natAbs = magUnits (fmag v) * d + n := by
      rw [hv, hN, mul_assoc, ← mul_sub, natAbs_signOf_mul, fixedMag_eq_magUnits, neg_mul]
      omega
    rw [hself, hother, fmag_roundRat]
    have hfold : ((magUnits (fmag v) : Int) * d - n).natAbs ≤ magUnits (fmag v) * d + n := by
      exact_mod_cast Int.natAbs_sub_le ((magUnits (fmag v) : Int) * d) n
    refine ⟨hle.trans hfold, fun h hne => ?_⟩
    by_cases he : magUnits (fmag v) = magUnits (roundMag n d)
    · have hzero : magUnits (roundMag n d) = 0 := by
        rw [he] at h
        rcases natAbs_sub_eq_add (by exact_mod_cast h) with h0 | h0
        · exact (Nat.mul_eq_zero.1 h0).resolve_right hd.ne'
        · rw [h0, roundMag_zero]
          rfl
      refine absurd ?_ hne
      rw [hv, fixed_roundRat, fixedMag_eq_magUnits, he, hzero, Nat.cast_zero, neg_zero]
    · exact htie (le_antisymm hle (h ▸ hfold)) he

end Sys2Proof.Machine
end

section
/-! SUPPORT. The sums, products, quotients and roots of finite values as one rounding each (00_scope.md R22), and
what the rounding statements say of them. -/

namespace Sys2Proof.Machine

theorem fixedOne_pos : 0 < fixedOne := by
  unfold fixedOne
  positivity

theorem fixedMag_pos {v : F64} (h : isZero v = false) : 0 < fixedMag v := by
  rw [Nat.pos_iff_ne_zero, Ne, fixedMag_eq_zero, h]
  decide

/-! ## One rounding each -/

/-- A sum of finite values is one rounding, of either sign where it is zero. -/
theorem fadd_eq_roundRat {a b : F64} (ha : isFinite a = true) (hb : isFinite b = true) :
    ∃ s, fadd a b = roundRat s (fixed a + fixed b).natAbs 1 ∧
      fixed a + fixed b = signOf s * ((fixed a + fixed b).natAbs : Int) := by
  rw [fadd_finite ha hb]
  by_cases h0 : fixed a + fixed b = 0
  · refine ⟨fsign a && fsign b, ?_, by rw [h0]; simp⟩
    rw [if_pos h0, h0, Int.natAbs_zero, roundRat, roundMag_zero]
    cases fsign a && fsign b <;> decide
  · refine ⟨decide (fixed a + fixed b < 0), if_neg h0, ?_⟩
    by_cases hneg : fixed a + fixed b < 0
    · rw [decide_eq_true hneg, Int.natCast_natAbs, abs_of_neg hneg, signOf, if_pos rfl, neg_one_mul, neg_neg]
    · rw [decide_eq_false hneg, Int.natCast_natAbs, abs_of_nonneg (not_lt.1 hneg), signOf,
        if_neg Bool.false_ne_true, one_mul]

theorem fmul_eq_roundRat {a b : F64} (ha : isFinite a = true) (hb : isFinite b = true) :
    fmul a b = roundRat (fsign a != fsign b) (fixedMag a * fixedMag b) fixedOne := by
  simp [fmul, isNaN_eq_false_of_finite ha, isNaN_eq_false_of_finite hb, isInf_eq_false_of_finite ha,
    isInf_eq_false_of_finite hb]

theorem fdiv_eq_roundRat {a b : F64} (ha : isFinite a = true) (hb : isFinite b = true) (hz : isZero b = false) :
    fdiv a b = roundRat (fsign a != fsign b) (fixedMag a * fixedOne) (fixedMag b) := by
  simp [fdiv, isNaN_eq_false_of_finite ha, isNaN_eq_false_of_finite hb, isInf_eq_false_of_finite ha,
    isInf_eq_false_of_finite hb, hz]

/-- The exact product in signed units. -/
theorem fixed_mul_fixed (a b : F64) :
    fixed a * fixed b = signOf (fsign a != fsign b) * ((fixedMag a * fixedMag b : Nat) : Int) := by
  rw [fixed_eq_signOf a, fixed_eq_signOf b, signOf_xor]
  push_cast
  ring

/-- The exact remainder of a quotient `x`, with the sign of the divisor taken out. -/
theorem remainder_eq_signOf (x : Int) (a b : F64) :
    x * fixed b - fixed a * fixedOne = signOf (fsign b) *
      (x * (fixedMag b : Int) - signOf (fsign a != fsign b) * ((fixedMag a * fixedOne : Nat) : Int)) := by
  have hb := signOf_mul_self (fsign b)
  rw [fixed_eq_signOf a, fixed_eq_signOf b, signOf_xor]
  push_cast
  linear_combination (signOf (fsign a) * fixedMag a * fixedOne) * hb

/-! ## Overflow -/

theorem fadd_overflow {a b : F64} (ha : isFinite a = true) (hb : isFinite b = true) :
    (isFinite (fadd a b) = true ↔ (fixed a + fixed b).natAbs < (2 ^ 54 - 1) * 2 ^ 970 * fixedOne) ∧
      (isFinite (fadd a b) = false →
        isInf (fadd a b) = true ∧ (fsign (fadd a b) = true ↔ fixed a + fixed b < 0)) := by
  obtain ⟨s, hs, hN⟩ := fadd_eq_roundRat ha hb
  rw [hs]
  refine ⟨?_, fun h => ?_⟩
  · rw [isFinite_roundRat_iff one_pos, mul_one]
  · obtain ⟨hinf, hne⟩ := roundRat_overflow h
    have hsign := fsign_roundRat_iff (s := s) (n := (fixed a + fixed b).natAbs) (d := 1) hne
    rw [← hN] at hsign
    exact ⟨hinf, hsign⟩

theorem fmul_overflow {a b : F64} (ha : isFinite a = true) (hb : isFinite b = true) :
    (isFinite (fmul a b) = true ↔ (fixed a * fixed b).natAbs < (2 ^ 54 - 1) * 2 ^ 970 * fixedOne * fixedOne) ∧
      (isFinite (fmul a b) = false →
        isInf (fmul a b) = true ∧ (fsign (fmul a b) = true ↔ fixed a * fixed b < 0)) := by
  rw [fmul_eq_roundRat ha hb]
  refine ⟨?_, fun h => ?_⟩
  · rw [isFinite_roundRat_iff fixedOne_pos, Int.natAbs_mul, natAbs_fixed, natAbs_fixed]
  · obtain ⟨hinf, hne⟩ := roundRat_overflow h
    rw [fixed_mul_fixed]
    exact ⟨hinf, fsign_roundRat_iff hne⟩

theorem fdiv_overflow {a b : F64} (ha : isFinite a = true) (hb : isFinite b = true) (hz : isZero b = false) :
    (isFinite (fdiv a b) = true ↔ (fixed a).natAbs < (2 ^ 54 - 1) * 2 ^ 970 * (fixed b).natAbs) ∧
      (isFinite (fdiv a b) = false →
        isInf (fdiv a b) = true ∧ (fsign (fdiv a b) = true ↔ fixed a * fixed b < 0)) := by
  rw [fdiv_eq_roundRat ha hb hz]
  have hb0 := fixedMag_pos hz
  refine ⟨?_, fun h => ?_⟩
  · rw [isFinite_roundRat_iff hb0, mul_right_comm, Nat.mul_lt_mul_right fixedOne_pos, natAbs_fixed, natAbs_fixed]
  · obtain ⟨hinf, hne⟩ := roundRat_overflow h
    rw [fixed_mul_fixed]
    exact ⟨hinf, fsign_roundRat_iff (Nat.mul_ne_zero (Nat.ne_zero_of_mul_ne_zero_left hne) hb0.ne')⟩

/-! ## Nearness -/

theorem fadd_nearest {a b : F64} (v : F64) (ha : isFinite a = true) (hb : isFinite b = true)
    (hfin : isFinite (fadd a b) = true) :
    (fixed (fadd a b) - (fixed a + fixed b)).natAbs ≤ (fixed v - (fixed a + fixed b)).natAbs ∧
      ((fixed (fadd a b) - (fixed a + fixed b)).natAbs = (fixed v - (fixed a + fixed b)).natAbs →
        fixed v ≠ fixed (fadd a b) → fmag (fadd a b) % 2 = 0) := by
  obtain ⟨s, hs, hN⟩ := fadd_eq_roundRat ha hb
  rw [hs] at hfin ⊢
  simpa only [Nat.cast_one, mul_one] using roundRat_nearest one_pos hfin hN v

theorem fmul_nearest {a b : F64} (v : F64) (ha : isFinite a = true) (hb : isFinite b = true)
    (hfin : isFinite (fmul a b) = true) :
    (fixed (fmul a b) * fixedOne - fixed a * fixed b).natAbs ≤ (fixed v * fixedOne - fixed a * fixed b).natAbs ∧
      ((fixed (fmul a b) * fixedOne - fixed a * fixed b).natAbs = (fixed v * fixedOne - fixed a * fixed b).natAbs →
        fixed v ≠ fixed (fmul a b) → fmag (fmul a b) % 2 = 0) := by
  rw [fmul_eq_roundRat ha hb] at hfin ⊢
  exact roundRat_nearest fixedOne_pos hfin (fixed_mul_fixed a b) v

theorem fdiv_nearest {a b : F64} (v : F64) (ha : isFinite a = true) (hb : isFinite b = true)
    (hz : isZero b = false) (hfin : isFinite (fdiv a b) = true) :
    (fixed (fdiv a b) * fixed b - fixed a * fixedOne).natAbs ≤ (fixed v * fixed b - fixed a * fixedOne).natAbs ∧
      ((fixed (fdiv a b) * fixed b - fixed a * fixedOne).natAbs = (fixed v * fixed b - fixed a * fixedOne).natAbs →
        fixed v ≠ fixed (fdiv a b) → fmag (fdiv a b) % 2 = 0) := by
  rw [fdiv_eq_roundRat ha hb hz] at hfin ⊢
  simp only [remainder_eq_signOf, natAbs_signOf_mul]
  exact roundRat_nearest (fixedMag_pos hz) hfin rfl v

end Sys2Proof.Machine

namespace Sys2Proof

open Sys2Proof.Machine

/-- Settles O43: each operation is one rounding of its exact result. -/
theorem arithmeticIsNearest : Obligations.ArithmeticIsNearest :=
  ⟨fun _ _ ha hb =>
    have hadd := fadd_overflow ha hb
    have hmul := fmul_overflow ha hb
    ⟨hadd.1, hadd.2, hmul.1, hmul.2, fdiv_overflow ha hb⟩,
  fun _ _ v ha hb _ => ⟨fadd_nearest v ha hb, fmul_nearest v ha hb, fdiv_nearest v ha hb⟩⟩

end Sys2Proof
end

section
/-! SUPPORT. The comparisons and the conversions (00_scope.md R23, R24): the order of the bit patterns is the order
of the exact values, and an integer of at most 53 bits is its own rounding. -/

namespace Sys2Proof.Machine

/-! ## The order of values -/

/-- Among finite values the order of the bit patterns is the order of the exact values. -/
theorem fixed_lt_fixed_iff {a b : F64} : fixed a < fixed b ↔ orderKey a < orderKey b := by
  have hlt := magUnits_strictMono.lt_iff_lt (a := fmag a) (b := fmag b)
  have hgt := magUnits_strictMono.lt_iff_lt (a := fmag b) (b := fmag a)
  have hmono (m : Nat) : magUnits m = 0 ↔ m = 0 := magUnits_strictMono.injective.eq_iff (b := 0)
  have ha := hmono (fmag a)
  have hb := hmono (fmag b)
  simp only [fixed, orderKey, fixedMag_eq_magUnits]
  generalize magUnits (fmag a) = ua at *
  generalize magUnits (fmag b) = ub at *
  split_ifs <;> omega

theorem fge_iff {a b : F64} (ha : isNaN a = false) (hb : isNaN b = false) :
    fge a b = true ↔ orderKey b ≤ orderKey a := by simp [fge, ha, hb]

theorem fgt_iff {a b : F64} (ha : isNaN a = false) (hb : isNaN b = false) :
    fgt a b = true ↔ orderKey b < orderKey a := by simp [fgt, ha, hb]

theorem flt_iff {a b : F64} (ha : isNaN a = false) (hb : isNaN b = false) :
    flt a b = true ↔ orderKey a < orderKey b := fgt_iff hb ha

theorem compare_nan {a b : F64} (h : isNaN a = true ∨ isNaN b = true) :
    fge a b = false ∧ fgt a b = false ∧ flt a b = false := by
  rcases h with h | h <;> simp [fge, fgt, flt, h]

theorem compare_finite {a b : F64} (ha : isFinite a = true) (hb : isFinite b = true) :
    (fge a b = true ↔ fixed b ≤ fixed a) ∧ (fgt a b = true ↔ fixed b < fixed a) ∧
      (flt a b = true ↔ fixed a < fixed b) := by
  have ha := isNaN_eq_false_of_finite ha
  have hb := isNaN_eq_false_of_finite hb
  refine ⟨?_, ?_, ?_⟩
  · rw [fge_iff ha hb, ← not_lt, ← not_lt, fixed_lt_fixed_iff]
  · rw [fgt_iff ha hb, fixed_lt_fixed_iff]
  · rw [flt_iff ha hb, fixed_lt_fixed_iff]

theorem orderKey_posInf : orderKey posInf = infMag := by decide +kernel

theorem orderKey_negInf : orderKey negInf = -(infMag : Int) := by decide +kernel

/-- No value but a NaN lies beyond the infinities. -/
theorem orderKey_bounds {v : F64} (h : isNaN v = false) : -(infMag : Int) ≤ orderKey v ∧ orderKey v ≤ infMag := by
  have h : fmag v ≤ infMag := by simpa [isNaN] using h
  rw [orderKey]
  split_ifs <;> omega

theorem eq_posInf_iff {v : F64} : v = posInf ↔ orderKey v = infMag := by
  refine ⟨fun h => h ▸ orderKey_posInf, fun h => ?_⟩
  have hpos : 0 < infMag := by decide
  have hs : fsign v = false := by
    by_contra hs
    rw [orderKey, if_pos (by simpa using hs)] at h
    omega
  refine eq_of_fields (hs.trans (by decide)) ?_
  rw [orderKey, hs, if_neg Bool.false_ne_true] at h
  exact (Int.ofNat_inj.1 h).trans (by decide)

theorem eq_negInf_iff {v : F64} : v = negInf ↔ orderKey v = -(infMag : Int) := by
  refine ⟨fun h => h ▸ orderKey_negInf, fun h => ?_⟩
  have hpos : 0 < infMag := by decide
  have hs : fsign v = true := by
    by_contra hs
    rw [orderKey, if_neg hs] at h
    omega
  refine eq_of_fields (hs.trans (by decide)) ?_
  rw [orderKey, hs, if_pos rfl, neg_inj] at h
  exact (Int.ofNat_inj.1 h).trans (by decide)

/-- Every value but a NaN compares with +inf as one at or below it. -/
theorem compare_posInf {v : F64} (h : isNaN v = false) :
    (fge posInf v = true ∧ flt posInf v = false ∧ (fgt posInf v = true ↔ v ≠ posInf)) ∧
      (fgt v posInf = false ∧ (fge v posInf = true ↔ v = posInf) ∧ (flt v posInf = true ↔ v ≠ posInf)) := by
  have hinf : isNaN posInf = false := by decide
  have hv := orderKey_bounds h
  simp only [← Bool.not_eq_true, fge_iff, fgt_iff, flt_iff, h, hinf, orderKey_posInf, eq_posInf_iff, Ne]
  omega

/-- Every value but a NaN compares with -inf as one at or above it. -/
theorem compare_negInf {v : F64} (h : isNaN v = false) :
    (fgt negInf v = false ∧ (fge negInf v = true ↔ v = negInf) ∧ (flt negInf v = true ↔ v ≠ negInf)) ∧
      (fge v negInf = true ∧ flt v negInf = false ∧ (fgt v negInf = true ↔ v ≠ negInf)) := by
  have hinf : isNaN negInf = false := by decide
  have hv := orderKey_bounds h
  simp only [← Bool.not_eq_true, fge_iff, fgt_iff, flt_iff, h, hinf, orderKey_negInf, eq_negInf_iff, Ne]
  omega

/-! ## Classes by fields -/

theorem isFinite_iff_exponent {v : F64} : isFinite v = true ↔ v.toNat / 2 ^ 52 % 2 ^ 11 ≠ 0x7FF := by
  rw [isFinite, fmag, infMag, decide_eq_true_iff]
  generalize v.toNat = n
  omega

theorem isNaN_iff_exponent {v : F64} :
    isNaN v = true ↔ v.toNat / 2 ^ 52 % 2 ^ 11 = 0x7FF ∧ v.toNat % 2 ^ 52 ≠ 0 := by
  rw [isNaN, fmag, infMag, decide_eq_true_iff]
  generalize v.toNat = n
  omega

/-! ## From integers -/

/-- A number of at most 53 bits in steps of a power of two is its own rounding. -/
theorem magUnits_roundMag_exact {n e : Nat} (hn : n < 2 ^ 53 * 2 ^ e) (hdvd : 2 ^ e ∣ n)
    (hfin : roundMag n 1 < infMag) : magUnits (roundMag n 1) = n := by
  have hplace : lastPlace n 1 ≤ e := lastPlace_le one_pos (by rwa [one_mul])
  obtain ⟨k, hk⟩ := (pow_dvd_pow 2 hplace).trans hdvd
  have hsig : significand n 1 = k := by
    rw [significand, one_mul]
    conv_lhs => enter [1]; rw [hk, mul_comm]
    exact divEven_mul (by positivity)
  rw [magUnits_roundMag one_pos hfin, hsig, mul_comm, ← hk]

theorem roundMag_integer {k : Nat} (hk : k < 2 ^ 53) :
    roundMag (k * fixedOne) 1 < infMag ∧ magUnits (roundMag (k * fixedOne) 1) = k * fixedOne := by
  have hfin : roundMag (k * fixedOne) 1 < infMag := by
    rw [roundMag_finite_iff one_pos, mul_one]
    have hlt : k < (2 ^ 54 - 1) * 2 ^ 970 :=
      lt_of_lt_of_le (show k < 2 ^ 54 - 1 by omega) (Nat.le_mul_of_pos_right _ (by positivity))
    exact Nat.mul_lt_mul_of_pos_right hlt fixedOne_pos
  refine ⟨hfin, magUnits_roundMag_exact (e := 1074) ?_ ?_ hfin⟩
  · rw [← fixedOne]
    exact Nat.mul_lt_mul_of_pos_right hk fixedOne_pos
  · rw [← fixedOne]
    exact Nat.dvd_mul_left fixedOne k

/-- `f64` is exact below 2^53. -/
theorem f64_exact {n : Int} (hn : n.natAbs < 2 ^ 53) :
    isFinite (f64 n) = true ∧ fixed (f64 n) = n * fixedOne := by
  obtain ⟨hfin, hexact⟩ := roundMag_integer hn
  refine ⟨isFinite_roundRat.2 hfin, ?_⟩
  have hsign : signOf (decide (n < 0)) * (n.natAbs : Int) = n := by
    by_cases h : n < 0
    · rw [decide_eq_true h, signOf_mul, if_pos rfl]
      omega
    · rw [decide_eq_false h, signOf_mul, if_neg Bool.false_ne_true]
      omega
  rw [f64, fixed_roundRat, hexact, Nat.cast_mul, ← mul_assoc, hsign]

/-! ## To integers -/

theorem floorInt_spec (v : F64) :
    floorInt v * fixedOne ≤ fixed v ∧ fixed v < (floorInt v + 1) * fixedOne := by
  have hpos : (0 : Int) < fixedOne := by exact_mod_cast fixedOne_pos
  exact ⟨Int.ediv_mul_le _ hpos.ne', Int.lt_ediv_add_one_mul_self _ hpos⟩

theorem truncInt_eq_signOf (v : F64) : truncInt v = signOf (fsign v) * ((fixedMag v / fixedOne : Nat) : Int) :=
  (signOf_mul _ _).symm

theorem roundEven_eq_signOf (v : F64) : roundEven v = signOf (fsign v) * (divEven (fixedMag v) fixedOne : Int) :=
  (signOf_mul _ _).symm

theorem truncInt_of_nonneg {v : F64} (h : 0 ≤ fixed v) : truncInt v = floorInt v := by
  have hv : fixed v = fixedMag v := by rw [← natAbs_fixed, Int.natAbs_of_nonneg h]
  rw [floorInt, hv, truncInt_eq_signOf, ← Int.natCast_ediv]
  cases hs : fsign v
  · rw [signOf, if_neg Bool.false_ne_true, one_mul]
  · have h0 : fixedMag v = 0 := by
      rw [fixed_eq_signOf, hs, signOf, if_pos rfl] at h
      omega
    rw [h0, Nat.zero_div, Nat.cast_zero, mul_zero]

theorem truncInt_of_neg {v : F64} (h : fixed v < 0) :
    (truncInt v - 1) * fixedOne < fixed v ∧ fixed v ≤ truncInt v * fixedOne := by
  have hs : fsign v = true := by
    by_contra hs
    rw [fixed, if_neg hs] at h
    omega
  have hdiv := Nat.div_add_mod (fixedMag v) fixedOne
  have hmod := Nat.mod_lt (fixedMag v) fixedOne_pos
  have hrem := Nat.zero_le (fixedMag v % fixedOne)
  rw [truncInt_eq_signOf, fixed_eq_signOf, hs, signOf_mul, signOf_mul, if_pos rfl, if_pos rfl]
  generalize fixedOne = one at *
  zify at hdiv hmod hrem
  constructor <;> push_cast <;> nlinarith

/-- `roundEven` is at most half away, and even where it is half away. -/
theorem roundEven_spec (v : F64) :
    2 * (fixed v - roundEven v * fixedOne).natAbs ≤ fixedOne ∧
      (2 * (fixed v - roundEven v * fixedOne).natAbs = fixedOne → roundEven v % 2 = 0) := by
  obtain ⟨hlow, hhigh, heven⟩ := divEven_spec (fixedMag v) fixedOne_pos
  have habs : (fixed v - roundEven v * fixedOne).natAbs =
      ((fixedMag v : Int) - (divEven (fixedMag v) fixedOne * fixedOne : Nat)).natAbs := by
    rw [fixed_eq_signOf, roundEven_eq_signOf, mul_assoc, ← mul_sub, natAbs_signOf_mul, Nat.cast_mul]
  have hparity : divEven (fixedMag v) fixedOne % 2 = 0 → roundEven v % 2 = 0 := by
    rw [roundEven]
    split_ifs <;> omega
  rw [habs]
  refine ⟨by omega, fun h => hparity (heven (by omega))⟩

end Sys2Proof.Machine

namespace Sys2Proof

open Sys2Proof.Machine

/-- Settles O41: a comparison is that of the order keys, which follow the exact values and end at the infinities. -/
theorem orderedComparisons : Obligations.OrderedComparisons := fun _ _ =>
  ⟨compare_nan, compare_finite,
    fun ha => ⟨(compare_posInf ha).1, (compare_posInf ha).2, (compare_negInf ha).1, (compare_negInf ha).2⟩,
    by decide⟩

/-- Settles O42: integers below 2^53 are exact roundings, and the way back is an integer division. -/
theorem integerConversions : Obligations.IntegerConversions :=
  ⟨fun _ => ⟨isFinite_iff_exponent, isNaN_iff_exponent⟩, fun _ => f64_exact, by decide +kernel,
    fun v _ => ⟨floorInt_spec v, truncInt_of_nonneg, truncInt_of_neg, roundEven_spec v⟩⟩

end Sys2Proof
end

section
/-! SUPPORT. The special results of the arithmetic (00_scope.md R22, R26), by the classes of the operands. -/

namespace Sys2Proof.Machine

/-! ## Classes -/

theorem isNaN_eq_false_of_inf {v : F64} (h : isInf v = true) : isNaN v = false := by
  rw [isInf, decide_eq_true_iff] at h
  rw [isNaN, h, decide_eq_false (lt_irrefl _)]

theorem isZero_eq_false_of_inf {v : F64} (h : isInf v = true) : isZero v = false := by
  rw [isInf, decide_eq_true_iff] at h
  rw [isZero, h]
  rfl

theorem isFinite_of_zero {v : F64} (h : isZero v = true) : isFinite v = true := by
  rw [isZero, decide_eq_true_iff] at h
  rw [isFinite, h]
  rfl

theorem isNaN_fneg (v : F64) : isNaN (fneg v) = isNaN v := by rw [isNaN, fmag_fneg, isNaN]

theorem isFinite_fneg (v : F64) : isFinite (fneg v) = isFinite v := by rw [isFinite, fmag_fneg, isFinite]

theorem isInf_packF (s : Bool) : isInf (packF s infMag) = true := by cases s <;> decide

theorem isZero_packF (s : Bool) : isZero (packF s 0) = true := by cases s <;> decide

theorem isZero_roundRat_zero (s : Bool) (d : Nat) : isZero (roundRat s 0 d) = true := by
  rw [roundRat, roundMag_zero, isZero_packF]

/-! ## NaN operands -/

theorem arithmetic_nan {a b : F64} (h : isNaN a = true ∨ isNaN b = true) :
    isNaN (fadd a b) = true ∧ isNaN (fsub a b) = true ∧ isNaN (fmul a b) = true ∧ isNaN (fdiv a b) = true := by
  have hor : (isNaN a || isNaN b) = true := by simpa using h
  refine ⟨?_, ?_, ?_, ?_⟩
  · rw [fadd_nan h, isNaN_canonNaN]
  · rw [fsub, fadd_nan (by rwa [isNaN_fneg]), isNaN_canonNaN]
  · rw [fmul, if_pos hor, isNaN_canonNaN]
  · rw [fdiv, if_pos hor, isNaN_canonNaN]

/-! ## Infinities -/

theorem fadd_inf_finite {a b : F64} (ha : isInf a = true) (hb : isFinite b = true) : fadd a b = a ∧ fadd b a = a := by
  simp [fadd, ha, isNaN_eq_false_of_inf ha, isNaN_eq_false_of_finite hb, isInf_eq_false_of_finite hb]

theorem fadd_inf_inf {a b : F64} (ha : isInf a = true) (hb : isInf b = true) :
    fadd a b = if fsign a = fsign b then a else canonNaN := by
  by_cases h : fsign a = fsign b <;>
    simp [fadd, ha, hb, isNaN_eq_false_of_inf ha, isNaN_eq_false_of_inf hb, h]

theorem fmul_inf {a b : F64} (ha : isInf a = true) (hb : isNaN b = false) :
    fmul a b = (if isZero b then canonNaN else packF (fsign a != fsign b) infMag) ∧
      fmul b a = (if isZero b then canonNaN else packF (fsign b != fsign a) infMag) := by
  simp [fmul, ha, hb, isNaN_eq_false_of_inf ha, isZero_eq_false_of_inf ha]

theorem fdiv_inf_finite {a b : F64} (ha : isInf a = true) (hb : isFinite b = true) :
    fdiv a b = packF (fsign a != fsign b) infMag ∧ fdiv b a = packF (fsign b != fsign a) 0 := by
  simp [fdiv, ha, isNaN_eq_false_of_inf ha, isNaN_eq_false_of_finite hb, isInf_eq_false_of_finite hb]

theorem fdiv_inf_inf {a b : F64} (ha : isInf a = true) (hb : isInf b = true) : fdiv a b = canonNaN := by
  simp [fdiv, ha, hb]

/-- What an infinite operand makes of a sum, a product and a quotient. -/
theorem arithmetic_inf {a b : F64} (ha : isInf a = true) (hb : isNaN b = false) :
    (isFinite b = true → fadd a b = a ∧ fadd b a = a) ∧
    (isInf b = true → fsign a = fsign b → fadd a b = a) ∧
    (isInf b = true → fsign a ≠ fsign b → isNaN (fadd a b) = true) ∧
    (isZero b = false → isInf (fmul a b) = true ∧ isInf (fmul b a) = true) ∧
    (isZero b = true → isNaN (fmul a b) = true ∧ isNaN (fmul b a) = true) ∧
    (isFinite b = true → isInf (fdiv a b) = true ∧ isZero (fdiv b a) = true) ∧
    (isInf b = true → isNaN (fdiv a b) = true) := by
  obtain ⟨hmul, hmul'⟩ := fmul_inf ha hb
  refine ⟨fadd_inf_finite ha, fun hb hs => ?_, fun hb hs => ?_, fun hz => ?_, fun hz => ?_, fun hb => ?_, fun hb => ?_⟩
  · rw [fadd_inf_inf ha hb, if_pos hs]
  · rw [fadd_inf_inf ha hb, if_neg hs, isNaN_canonNaN]
  · simp [hmul, hmul', hz, isInf_packF]
  · simp [hmul, hmul', hz, isNaN_canonNaN]
  · obtain ⟨hdiv, hdiv'⟩ := fdiv_inf_finite ha hb
    exact ⟨hdiv ▸ isInf_packF _, hdiv' ▸ isZero_packF _⟩
  · rw [fdiv_inf_inf ha hb, isNaN_canonNaN]

/-! ## Zeros -/

theorem fdiv_zero {a b : F64} (ha : isFinite a = true) (hb : isZero b = true) :
    fdiv a b = if isZero a then canonNaN else packF (fsign a != fsign b) infMag := by
  have hfin := isFinite_of_zero hb
  simp [fdiv, hb, isNaN_eq_false_of_finite ha, isInf_eq_false_of_finite ha, isNaN_eq_false_of_finite hfin,
    isInf_eq_false_of_finite hfin]

/-- What a zero operand makes of a product and a quotient of finite values. -/
theorem arithmetic_zero {a b : F64} (ha : isFinite a = true) (hb : isZero b = true) :
    (isZero a = false → isInf (fdiv a b) = true ∧ isZero (fdiv b a) = true) ∧
    (isZero a = true → isNaN (fdiv a b) = true) ∧ isZero (fmul a b) = true ∧ isZero (fmul b a) = true := by
  have hfin := isFinite_of_zero hb
  have h0 := fixedMag_eq_zero.2 hb
  refine ⟨fun hz => ⟨?_, ?_⟩, fun hz => ?_, ?_, ?_⟩
  · simp [fdiv_zero ha hb, hz, isInf_packF]
  · rw [fdiv_eq_roundRat hfin ha hz, h0, zero_mul, isZero_roundRat_zero]
  · simp [fdiv_zero ha hb, hz, isNaN_canonNaN]
  · rw [fmul_eq_roundRat ha hfin, h0, mul_zero, isZero_roundRat_zero]
  · rw [fmul_eq_roundRat hfin ha, h0, zero_mul, isZero_roundRat_zero]

theorem eq_negZero_iff {v : F64} : v = negZero ↔ isZero v = true ∧ fsign v = true := by
  constructor
  · rintro rfl
    decide
  · rintro ⟨hz, hs⟩
    exact eq_of_fields (hs.trans (by decide)) ((of_decide_eq_true hz).trans (by decide))

/-- An exact zero sum is -0 for two -0 only. -/
theorem fadd_zero_sum {a b : F64} (ha : isFinite a = true) (hb : isFinite b = true) (h0 : fixed a + fixed b = 0) :
    fadd a b = if a = negZero ∧ b = negZero then negZero else posZero := by
  rw [fadd_finite ha hb, if_pos h0]
  refine if_congr ?_ rfl rfl
  rw [Bool.and_eq_true, eq_negZero_iff, eq_negZero_iff]
  constructor
  · rintro ⟨hsa, hsb⟩
    have hmag : fixedMag a = 0 ∧ fixedMag b = 0 := by
      rw [fixed, fixed, if_pos hsa, if_pos hsb] at h0
      omega
    exact ⟨⟨fixedMag_eq_zero.1 hmag.1, hsa⟩, fixedMag_eq_zero.1 hmag.2, hsb⟩
  · rintro ⟨⟨-, hsa⟩, -, hsb⟩
    exact ⟨hsa, hsb⟩

theorem fixed_fneg (v : F64) : fixed (fneg v) = -fixed v := by
  rw [fixed, fixed, fsign_fneg, fixedMag_eq_magUnits, fixedMag_eq_magUnits, fmag_fneg]
  cases fsign v <;> simp

theorem fsub_self {x : F64} (hx : isFinite x = true) : fsub x x = posZero := by
  rw [fsub, fadd_finite hx (by rwa [isFinite_fneg]), fixed_fneg, if_pos (add_neg_cancel _), fsign_fneg]
  cases fsign x <;> rfl

/-! ## Signs -/

theorem fsign_fmul {a b : F64} (h : isNaN (fmul a b) = false) : fsign (fmul a b) = (fsign a != fsign b) := by
  rw [fmul] at h ⊢
  split_ifs at h ⊢ with hnan hinf hz
  · exact absurd h (by decide)
  · exact absurd h (by decide)
  · exact fsign_packF (by decide)
  · exact fsign_roundRat _ _ _

theorem fsign_fdiv {a b : F64} (h : isNaN (fdiv a b) = false) : fsign (fdiv a b) = (fsign a != fsign b) := by
  rw [fdiv] at h ⊢
  split_ifs at h ⊢ with hnan hinfa hinfb hinfb hzb hza
  · exact absurd h (by decide)
  · exact absurd h (by decide)
  · exact fsign_packF (by decide)
  · exact fsign_packF (by decide)
  · exact absurd h (by decide)
  · exact fsign_packF (by decide)
  · exact fsign_roundRat _ _ _

/-! ## Roots -/

theorem fsqrt_nan {a : F64} (h : isNaN a = true) : fsqrt a = canonNaN := if_pos h

theorem fsqrt_zero {a : F64} (h : isZero a = true) : fsqrt a = a := by
  rw [fsqrt, isNaN_eq_false_of_finite (isFinite_of_zero h), if_neg Bool.false_ne_true, if_pos h]

theorem fsqrt_negative {a : F64} (h : flt a posZero = true) : fsqrt a = canonNaN := by
  have hnan : isNaN a = false := by
    by_contra hnan
    rw [(compare_nan (.inl (by simpa using hnan))).2.2] at h
    exact Bool.false_ne_true h
  rw [flt_iff hnan isNaN_posZero, show orderKey posZero = 0 by decide +kernel] at h
  have hs : fsign a = true := by
    by_contra hs
    rw [orderKey, if_neg hs] at h
    omega
  have hz : ¬ isZero a = true := fun hz => by
    rw [orderKey, of_decide_eq_true hz] at h
    simp at h
  rw [fsqrt, hnan, if_neg Bool.false_ne_true, if_neg hz, if_pos hs]

end Sys2Proof.Machine

namespace Sys2Proof

open Sys2Proof.Machine

/-- Settles O45, class by class of the operands. -/
theorem arithmeticSpecialCases : Obligations.ArithmeticSpecialCases :=
  ⟨fun _ _ => arithmetic_nan, fun _ _ => arithmetic_inf, fun _ _ => arithmetic_zero,
    fun _ _ => ⟨fsign_fmul, fsign_fdiv⟩, fun _ _ => fadd_zero_sum, fun _ => fsub_self,
    fun a b c hmag hsign => by
      rw [fsub, eq_of_fields (u := c) (v := fneg b) (hsign.trans (fsign_fneg b).symm) (hmag.trans (fmag_fneg b).symm)],
    fun a => ⟨fun h => by rw [fsqrt_nan h, isNaN_canonNaN], fsqrt_zero,
      fun h => by rw [fsqrt_negative h, isNaN_canonNaN]⟩,
    by decide⟩

end Sys2Proof
end

section
/-! SUPPORT. The named constants (00_scope.md R25) and the machine at power-up (70_reset_and_hazards.md R601). -/

namespace Sys2Proof

open Sys2Proof.Machine

/-- Settles O46: the constants by evaluation. -/
theorem namedConstants : Obligations.NamedConstants := by
  refine ⟨rfl, rfl, ?_, rfl, ?_, rfl, ?_, rfl, rfl, rfl, rfl, rfl, rfl, ?_⟩
  all_goals decide +kernel

/-- The state at power-up is idle, with nothing recorded and nothing run, over whatever memory there is. -/
theorem inv_powerUp {m : Memory} (hm : m.wf) (hin : ∀ c ∈ m, c.1 < Config.memSize) : (State.powerUp m).Inv where
  mem_wf := hm
  mem_inside := hin
  straps_legal :=
    { size_low := Config.memSize_bounds.1
      size_high := Config.memSize_bounds.2
      base_aligned := Nat.mul_mod_left _ _
      trig_ok := Config.houghTrig_admissible }
  busy_alone h := absurd h Bool.false_ne_true
  done_or_err _ := rfl
  code_known := Nat.zero_le 8
  err_has_code h := absurd h Bool.false_ne_true
  no_code_while_running _ := rfl
  clean_report _ := ⟨rfl, rfl⟩
  idle_ran _ := rfl
  count_ran h := absurd h Bool.false_ne_true
  ran_valid _ h := absurd h List.not_mem_nil
  pointer_inside h := absurd rfl h

/-- Settles O58: reset is power-up over the memory that lists nothing. -/
theorem resetHasInvariant : Obligations.ResetHasInvariant :=
  ⟨inv_powerUp Memory.wf_nil fun _ h => absurd h List.not_mem_nil, fun _ => inv_powerUp⟩

end Sys2Proof
end

section
/-! SUPPORT. The square root (00_scope.md R22): `isqrt` is the integer square root, and twice it with the sticky bit
lies on the same side of every even number as twice the real root, so both round alike. -/

namespace Sys2Proof.Machine

/-! ## The integer root -/

/-- The digit search ends at the root when the root lies within the bits left. -/
theorem isqrtBits_eq_sqrt {b n r : Nat} (hlow : r * r ≤ n) (hhigh : n < (r + 2 ^ b) * (r + 2 ^ b)) :
    isqrtBits b n r = n.sqrt := by
  induction b generalizing r with
  | zero => exact Nat.eq_sqrt.2 ⟨hlow, hhigh⟩
  | succ b ih =>
    rw [isqrtBits]
    split_ifs with hbit
    · exact ih hbit (by rwa [add_assoc, ← two_mul, ← pow_succ'])
    · exact ih hlow (not_le.1 hbit)

theorem isqrt_eq_sqrt (n : Nat) : isqrt n = n.sqrt := by
  refine isqrtBits_eq_sqrt (Nat.zero_le n) ?_
  rw [zero_add, ← pow_add]
  exact lt_of_lt_of_le Nat.lt_log2_self (Nat.pow_le_pow_right (by norm_num) (by omega))

/-! ## The root with its sticky bit -/

/-- Twice the integer root, plus one where the root is not exact. -/
def stickyRoot (n : Nat) : Nat := 2 * isqrt n + if isqrt n * isqrt n = n then 0 else 1

theorem fsqrt_eq_roundRat {a : F64} (hfin : isFinite a = true) (hz : isZero a = false) (hs : fsign a = false) :
    fsqrt a = roundRat false (stickyRoot (fixedMag a * fixedOne)) 2 := by
  simp [fsqrt, stickyRoot, isNaN_eq_false_of_finite hfin, isInf_eq_false_of_finite hfin, hz, hs]

/-- No even number lies between twice the root and the sticky number. -/
theorem stickyRoot_side (n : Nat) (j : Int) :
    ((stickyRoot n : Int) ≤ 2 * j ↔ √(n : ℝ) ≤ j) ∧ (2 * j ≤ (stickyRoot n : Int) ↔ (j : ℝ) ≤ √(n : ℝ)) := by
  rw [stickyRoot, isqrt_eq_sqrt]
  split_ifs with hexact
  · have hroot : √(n : ℝ) = ((n.sqrt : Int) : ℝ) := by
      rw [Real.sqrt_eq_iff_mul_self_eq (by positivity) (by positivity)]
      exact_mod_cast hexact.symm
    rw [hroot, Int.cast_le, Int.cast_le]
    omega
  · have hbelow : ((n.sqrt : Int) : ℝ) < √(n : ℝ) := by
      refine Real.lt_sqrt_of_sq_lt ?_
      have := lt_of_le_of_ne (Nat.sqrt_le n) hexact
      rw [sq]
      exact_mod_cast this
    have habove : √(n : ℝ) < ((n.sqrt + 1 : Int) : ℝ) := by
      exact_mod_cast Real.real_sqrt_lt_nat_sqrt_succ
    refine ⟨⟨fun h => ?_, fun h => ?_⟩, fun h => ?_, fun h => ?_⟩
    · exact habove.le.trans (Int.cast_le.2 (by omega))
    · have := Int.cast_lt.1 (hbelow.trans_le h)
      omega
    · exact (Int.cast_le.2 (by omega)).trans hbelow.le
    · have := Int.cast_lt.1 (h.trans_lt habove)
      omega

theorem stickyRoot_le (n : Nat) : stickyRoot n ≤ 2 * n.sqrt + 1 := by
  rw [stickyRoot, isqrt_eq_sqrt]
  split_ifs <;> omega

/-- A root of 54 bits or more has its last place above the sticky bit. -/
theorem lastPlace_stickyRoot {n : Nat} (hn : 2 ^ 53 * 2 ^ 53 ≤ n) : lastPlace (stickyRoot n) 2 ≠ 0 := by
  intro h0
  have hroot : 2 ^ 53 ≤ n.sqrt := Nat.le_sqrt.2 hn
  have hsticky : 2 * n.sqrt ≤ stickyRoot n := by
    rw [stickyRoot, isqrt_eq_sqrt]
    omega
  have := lt_of_lastPlace (n := stickyRoot n) two_pos
  rw [h0] at this
  omega

/-- The rounding of the sticky number is the rounding of the real root: no magnitude is nearer to it. -/
theorem roundMag_stickyRoot_nearest {n : Nat} (hn : 2 ^ 53 * 2 ^ 53 ≤ n)
    (hfin : roundMag (stickyRoot n) 2 < infMag) (m : Nat) :
    |(magUnits (roundMag (stickyRoot n) 2) : ℝ) - √(n : ℝ)| ≤ |(magUnits m : ℝ) - √(n : ℝ)| := by
  obtain ⟨e, he⟩ := Nat.exists_eq_succ_of_ne_zero (lastPlace_stickyRoot hn)
  have hnormal := (le_of_lastPlace (n := stickyRoot n) two_pos).resolve_left (lastPlace_stickyRoot hn)
  obtain ⟨hbelow, habove, -⟩ := significand_spec (stickyRoot n) two_pos
  have hstep : 2 ^ lastPlace (stickyRoot n) 2 = 2 * 2 ^ e := by rw [he, pow_succ']
  have hstep' : (2 : ℝ) ^ lastPlace (stickyRoot n) 2 = 2 * 2 ^ e := by rw [he, pow_succ']
  rw [hstep] at hnormal hbelow habove
  have hx : ((2 ^ 52 * (2 * 2 ^ e) : Int) : ℝ) ≤ √(n : ℝ) := (stickyRoot_side n _).2.1 (by zify at hnormal; linarith)
  have hlow : ((significand (stickyRoot n) 2 * (2 * 2 ^ e) - 2 ^ e : Int) : ℝ) ≤ √(n : ℝ) :=
    (stickyRoot_side n _).2.1 (by zify at hbelow; linarith)
  have hhigh : √(n : ℝ) ≤ ((significand (stickyRoot n) 2 * (2 * 2 ^ e) + 2 ^ e : Int) : ℝ) :=
    (stickyRoot_side n _).1.1 (by zify at habove; linarith)
  push_cast at hx hlow hhigh
  rw [magUnits_roundMag two_pos hfin, Nat.cast_mul, Nat.cast_pow, Nat.cast_ofNat]
  refine (magUnits_nearest (.inr ?_) ?_ m).1
  · rw [hstep']
    linarith
  · rw [hstep', ← abs_two (α := ℝ), ← abs_mul, abs_two, abs_le]
    constructor <;> linarith

/-! ## The root of a finite positive value -/

theorem fixedMag_lt {v : F64} (h : isFinite v = true) : fixedMag v < (2 ^ 54 - 1) * 2 ^ 970 * fixedOne := by
  have hfin : roundMag (fixedMag v) 1 < infMag := by
    rw [roundMag_fixedMag h]
    exact of_decide_eq_true h
  simpa only [mul_one] using (roundMag_finite_iff one_pos).1 hfin

/-- The root of a finite value does not overflow. -/
theorem roundMag_stickyRoot_lt {u : Nat} (hu : u < (2 ^ 54 - 1) * 2 ^ 970 * fixedOne) :
    roundMag (stickyRoot (u * fixedOne)) 2 < infMag := by
  rw [roundMag_finite_iff two_pos]
  have hone := fixedOne_pos
  have hbound : fixedOne ≤ (2 ^ 54 - 1) * 2 ^ 970 * fixedOne := Nat.le_mul_of_pos_left _ (by positivity)
  generalize (2 ^ 54 - 1) * 2 ^ 970 * fixedOne = t at *
  have hroot : (u * fixedOne).sqrt < t :=
    Nat.sqrt_lt.2 (lt_of_lt_of_le (Nat.mul_lt_mul_of_pos_right hu hone) (Nat.mul_le_mul_left t hbound))
  have := stickyRoot_le (u * fixedOne)
  omega

theorem radicand_le {u : Nat} (hu : 0 < u) : 2 ^ 53 * 2 ^ 53 ≤ u * fixedOne := by
  refine le_trans ?_ (Nat.le_mul_of_pos_left fixedOne hu)
  rw [fixedOne, ← pow_add]
  gcongr <;> norm_num

theorem fixed_of_positive {v : F64} (hs : fsign v = false) : fixed v = fixedMag v := by
  rw [fixed, hs, if_neg Bool.false_ne_true]

/-- The root of a finite positive value is finite and positive. -/
theorem fsqrt_positive {a : F64} (hfin : isFinite a = true) (hz : isZero a = false) (hs : fsign a = false) :
    isFinite (fsqrt a) = true ∧ fsign (fsqrt a) = false ∧ isZero (fsqrt a) = false := by
  have hround := roundMag_stickyRoot_lt (fixedMag_lt hfin)
  rw [fsqrt_eq_roundRat hfin hz hs]
  refine ⟨isFinite_roundRat.2 hround, fsign_roundRat _ _ _, ?_⟩
  have := lastPlace_stickyRoot (radicand_le (fixedMag_pos hz))
  rw [isZero, fmag_roundRat, roundMag_of_finite hround, decide_eq_false_iff_not]
  omega

/-- No value is nearer to the real root. -/
theorem fsqrt_nearest {a : F64} (hfin : isFinite a = true) (hz : isZero a = false) (hs : fsign a = false) (v : F64) :
    |(fixed (fsqrt a) : ℝ) - √((fixed a : ℝ) * (fixedOne : ℝ))| ≤
      |(fixed v : ℝ) - √((fixed a : ℝ) * (fixedOne : ℝ))| := by
  have hroot : √((fixed a : ℝ) * (fixedOne : ℝ)) = √((fixedMag a * fixedOne : Nat) : ℝ) := by
    rw [fixed_of_positive hs, Nat.cast_mul, Int.cast_natCast]
  have hresult : (fixed (fsqrt a) : ℝ) = magUnits (roundMag (stickyRoot (fixedMag a * fixedOne)) 2) := by
    rw [fsqrt_eq_roundRat hfin hz hs, fixed_of_positive (fsign_roundRat _ _ _), fixedMag_eq_magUnits, fmag_roundRat,
      Int.cast_natCast]
  have hv : (magUnits (fmag v) : ℝ) = |(fixed v : ℝ)| := by
    rw [← fixedMag_eq_magUnits, ← natAbs_fixed, Nat.cast_natAbs, Int.cast_abs]
  rw [hroot, hresult]
  refine (roundMag_stickyRoot_nearest (radicand_le (fixedMag_pos hz)) (roundMag_stickyRoot_lt (fixedMag_lt hfin))
    (fmag v)).trans ?_
  rw [hv]
  conv_lhs => rw [← abs_of_nonneg (Real.sqrt_nonneg ((fixedMag a * fixedOne : Nat) : ℝ))]
  exact abs_abs_sub_abs_le _ _

end Sys2Proof.Machine

namespace Sys2Proof

open Sys2Proof.Machine

/-- Settles O44: the sticky number rounds as the real root. -/
theorem squareRootIsNearest : Obligations.SquareRootIsNearest := fun _ v hfin hz hs _ =>
  have hpos := fsqrt_positive hfin hz hs
  ⟨hpos.1, hpos.2.1, hpos.2.2, fsqrt_nearest hfin hz hs v⟩

end Sys2Proof
end

section
/-! SUPPORT. How far a vote of HOUGH can lie from the middle (47_hough.md R361, R364 to R366): rho is the exact
x·c + y·s but for three roundings, each far below a bin, and the exact value is at most D - 1 by Cauchy-Schwarz. -/

namespace Sys2Proof.Machine

/-! ## Values as reals -/

/-- A finite value as a real number. -/
noncomputable def realOf (v : F64) : ℝ := fixed v / fixedOne

theorem fixedOne_real_pos : (0 : ℝ) < fixedOne := by exact_mod_cast fixedOne_pos

theorem fixed_eq_realOf (v : F64) : (fixed v : ℝ) = realOf v * fixedOne :=
  (div_mul_cancel₀ _ fixedOne_real_pos.ne').symm

theorem abs_realOf (v : F64) : |realOf v| = fixedMag v / fixedOne := by
  rw [realOf, abs_div, abs_of_pos fixedOne_real_pos, ← Int.cast_abs, Int.abs_eq_natAbs, natAbs_fixed, Int.cast_natCast]

theorem realOf_f64 {n : Int} (hn : n.natAbs < 2 ^ 53) : realOf (f64 n) = n := by
  rw [realOf, (f64_exact hn).2, Int.cast_mul, Int.cast_natCast, mul_div_cancel_right₀ _ fixedOne_real_pos.ne']

theorem abs_signOf_mul (s : Bool) (x : ℝ) : |(signOf s : ℝ) * x| = |x| := by
  cases s <;> simp [signOf]

/-- 2^1040 units, the step of the last place just below 2^19. -/
theorem fixedOne_eq_steps : fixedOne = 2 ^ 34 * 2 ^ 1040 := by rw [fixedOne, ← pow_add]

/-- A rounding of a value `x` below 2^19 in magnitude is finite and no more than 2^-35 away. -/
theorem roundRat_error {s : Bool} {n d : Nat} (hd : 0 < d) {x : ℝ} (hx : x * fixedOne = signOf s * (n / d))
    (hsmall : |x| < 2 ^ 19) :
    isFinite (roundRat s n d) = true ∧ |realOf (roundRat s n d) - x| ≤ 1 / 2 ^ 35 := by
  have hd' : (0 : ℝ) < d := by exact_mod_cast hd
  have hone := fixedOne_real_pos
  have hquot : (n : ℝ) / d = |x| * fixedOne :=
    calc (n : ℝ) / d = |signOf s * ((n : ℝ) / d)| := by
          rw [abs_signOf_mul, abs_of_nonneg (div_nonneg n.cast_nonneg hd'.le)]
      _ = |x| * fixedOne := by rw [← hx, abs_mul, abs_of_pos hone]
  have hplace : lastPlace n d ≤ 1040 := by
    refine lastPlace_le hd ?_
    have hreal : (n : ℝ) < 2 ^ 19 * fixedOne * d := by
      rw [← div_lt_iff₀ hd', hquot]
      exact mul_lt_mul_of_pos_right hsmall hone
    have hnat : n < 2 ^ 19 * fixedOne * d := by exact_mod_cast hreal
    calc n < 2 ^ 19 * fixedOne * d := hnat
      _ = 2 ^ 19 * 2 ^ 34 * (d * 2 ^ 1040) := by rw [fixedOne_eq_steps]; generalize 2 ^ 1040 = u; ring
      _ = 2 ^ 53 * (d * 2 ^ 1040) := by rw [← pow_add]
  have hsig := significand_le (n := n) hd
  have hfin : roundMag n d < infMag := by
    rw [roundMag_eq, infMag]
    omega
  refine ⟨isFinite_roundRat.2 hfin, ?_⟩
  have hhalf := significand_half_step (n := n) hd
  have hstep : (2 : ℝ) ^ lastPlace n d * 2 ^ 34 ≤ fixedOne := by
    have : 2 ^ lastPlace n d * 2 ^ 34 ≤ fixedOne := by
      rw [fixedOne_eq_steps, mul_comm]
      exact mul_two_pow_le _ hplace
    exact_mod_cast this
  have hdiff : (realOf (roundRat s n d) - x) * fixedOne =
      signOf s * ((significand n d : ℝ) * 2 ^ lastPlace n d - n / d) := by
    rw [sub_mul, ← fixed_eq_realOf, hx, fixed_roundRat, magUnits_roundMag hd hfin]
    push_cast
    ring
  have habs : |realOf (roundRat s n d) - x| * fixedOne = |(significand n d : ℝ) * 2 ^ lastPlace n d - n / d| :=
    calc |realOf (roundRat s n d) - x| * fixedOne = |(realOf (roundRat s n d) - x) * fixedOne| := by
          rw [abs_mul, abs_of_pos hone]
      _ = |(significand n d : ℝ) * 2 ^ lastPlace n d - n / d| := by rw [hdiff, abs_signOf_mul]
  refine le_of_mul_le_mul_right ?_ hone
  rw [habs]
  linarith

theorem fmul_error {a b : F64} (ha : isFinite a = true) (hb : isFinite b = true)
    (h : |realOf a * realOf b| < 2 ^ 19) :
    isFinite (fmul a b) = true ∧ |realOf (fmul a b) - realOf a * realOf b| ≤ 1 / 2 ^ 35 := by
  rw [fmul_eq_roundRat ha hb]
  refine roundRat_error fixedOne_pos ?_ h
  have hprod : (fixed a : ℝ) * fixed b = signOf (fsign a != fsign b) * (fixedMag a * fixedMag b : Nat) := by
    exact_mod_cast fixed_mul_fixed a b
  rw [← mul_div_assoc, ← hprod, fixed_eq_realOf, fixed_eq_realOf, eq_div_iff fixedOne_real_pos.ne']
  ring

theorem fadd_error {a b : F64} (ha : isFinite a = true) (hb : isFinite b = true)
    (h : |realOf a + realOf b| < 2 ^ 19) :
    isFinite (fadd a b) = true ∧ |realOf (fadd a b) - (realOf a + realOf b)| ≤ 1 / 2 ^ 35 := by
  obtain ⟨s, hs, hN⟩ := fadd_eq_roundRat ha hb
  rw [hs]
  refine roundRat_error one_pos ?_ h
  have hsum := congrArg (Int.cast : Int → ℝ) hN
  rw [Int.cast_add, Int.cast_mul, Int.cast_natCast] at hsum
  rw [Nat.cast_one, div_one, ← hsum, add_mul, ← fixed_eq_realOf, ← fixed_eq_realOf]

/-! ## The exact vote -/

/-- HOUGH_TRIG's pairs as reals (00_scope.md R32). -/
theorem trigAt_bounds {trig : List (F64 × F64)} (h : trigAdmissible trig = true) (t : Nat) :
    isFinite (trigAt trig t).1 = true ∧ isFinite (trigAt trig t).2 = true ∧
      |realOf (trigAt trig t).1| ≤ 1 ∧ |realOf (trigAt trig t).2| ≤ 1 ∧
      realOf (trigAt trig t).1 ^ 2 + realOf (trigAt trig t).2 ^ 2 ≤ 1 + 1 / 2 ^ 40 := by
  have hpair : trigPairOk (trigAt trig t) = true := by
    rw [trigAt, List.getD_eq_getElem?_getD]
    cases ht : trig[t]? with
    | none => decide +kernel
    | some p =>
      simp only [trigAdmissible, Bool.and_eq_true, List.all_eq_true] at h
      exact h.2 p (List.mem_of_getElem? ht)
  generalize trigAt trig t = p at *
  simp only [trigPairOk, Bool.and_eq_true, decide_eq_true_eq, and_assoc] at hpair
  obtain ⟨hc, hs, hcle, hsle, hsq⟩ := hpair
  have hone := fixedOne_real_pos
  have hunit {v : F64} (hv : fixedMag v ≤ fixedOne) : |realOf v| ≤ 1 := by
    rw [abs_realOf, div_le_one hone]
    exact_mod_cast hv
  refine ⟨hc, hs, hunit hcle, hunit hsle, ?_⟩
  have hsq := Nat.cast_le (α := ℝ).2 hsq
  simp only [Nat.cast_mul, Nat.cast_add, Nat.cast_pow, Nat.cast_ofNat, Nat.cast_one] at hsq
  rw [← sq_abs, ← sq_abs (realOf p.2), abs_realOf, abs_realOf, div_pow, div_pow, ← add_div,
    div_le_iff₀ (pow_pos hone 2)]
  linarith

theorem le_sq_diagLen (h w : Nat) : w ^ 2 + h ^ 2 ≤ diagLen h w ^ 2 := by
  rw [diagLen, isqrt_eq_sqrt]
  split_ifs with hexact
  · rw [sq (Nat.sqrt _), hexact]
  · rw [sq (Nat.sqrt _ + 1)]
    exact (Nat.lt_succ_sqrt _).le

/-- An edge pixel is at least one bin nearer to the origin than the diagonal is long. -/
theorem sq_add_sq_le {h w d y x : Nat} (hd : w ^ 2 + h ^ 2 ≤ d ^ 2) (hx : x < w) (hy : y < h) :
    1 ≤ d ∧ x ^ 2 + y ^ 2 ≤ (d - 1) ^ 2 := by
  obtain ⟨w, rfl⟩ : ∃ k, w = k + 1 := ⟨w - 1, by omega⟩
  obtain ⟨h, rfl⟩ : ∃ k, h = k + 1 := ⟨h - 1, by omega⟩
  obtain ⟨d, rfl⟩ : ∃ k, d = k + 1 := ⟨d - 1, by
    have : d ≠ 0 := by rintro rfl; nlinarith
    omega⟩
  have hx2 : x ^ 2 ≤ w ^ 2 := Nat.pow_le_pow_left (by omega) 2
  have hy2 : y ^ 2 ≤ h ^ 2 := Nat.pow_le_pow_left (by omega) 2
  refine ⟨by omega, ?_⟩
  rw [Nat.add_sub_cancel]
  by_cases hcorner : w + h ≤ d
  · nlinarith [Nat.pow_le_pow_left hcorner 2]
  · nlinarith

/-- Cauchy-Schwarz for a vote: the exact rho is at most D - 1 but for the slack of the table. -/
theorem abs_rho_le {x y c s d : ℝ} (hd0 : 0 ≤ d) (hd : d ≤ 2 ^ 15) (hxy : x ^ 2 + y ^ 2 ≤ d ^ 2)
    (hcs : c ^ 2 + s ^ 2 ≤ 1 + 1 / 2 ^ 40) : |x * c + y * s| ≤ d + 1 / 8 := by
  refine abs_le_of_sq_le_sq ?_ (by linarith)
  calc (x * c + y * s) ^ 2 ≤ (x ^ 2 + y ^ 2) * (c ^ 2 + s ^ 2) := by linarith [sq_nonneg (x * s - y * c)]
    _ ≤ d ^ 2 * (1 + 1 / 2 ^ 40) := mul_le_mul hxy hcs (by positivity) (by positivity)
    _ ≤ (d + 1 / 8) ^ 2 := by nlinarith

/-- A coordinate times a factor of HOUGH_TRIG is finite and next to the exact product. -/
theorem fmul_coordinate {k : Nat} {v : F64} (hk : k ≤ 2 ^ 15) (hv : isFinite v = true) (hle : |realOf v| ≤ 1) :
    isFinite (fmul (f64 k) v) = true ∧ |realOf (fmul (f64 k) v) - k * realOf v| ≤ 1 / 2 ^ 35 ∧
      |k * realOf v| ≤ 2 ^ 15 := by
  have hk53 : (k : Int).natAbs < 2 ^ 53 := by omega
  have hcast : realOf (f64 k) = k := by rw [realOf_f64 hk53, Int.cast_natCast]
  have hkreal : (k : ℝ) ≤ 2 ^ 15 := by exact_mod_cast hk
  have hbound : |k * realOf v| ≤ 2 ^ 15 := by
    rw [abs_mul, abs_of_nonneg k.cast_nonneg]
    calc (k : ℝ) * |realOf v| ≤ 2 ^ 15 * 1 := mul_le_mul hkreal hle (abs_nonneg _) (by positivity)
      _ = 2 ^ 15 := mul_one _
  have herr := fmul_error (f64_exact hk53).1 hv (by rw [hcast]; linarith)
  rw [hcast] at herr
  exact ⟨herr.1, herr.2, hbound⟩

/-- The computed rho lies within a quarter of a bin beyond D - 1. -/
theorem abs_houghRho_le {trig : List (F64 × F64)} (htrig : trigAdmissible trig = true) {h w y x : Nat} (t : Nat)
    (hd : diagLen h w ≤ 32767) (hx : x < w) (hy : y < h) :
    |realOf (houghRho trig t y x)| ≤ diagLen h w - 1 + 1 / 4 := by
  obtain ⟨hd1, hsq⟩ := sq_add_sq_le (le_sq_diagLen h w) hx hy
  have hxd : x ≤ diagLen h w - 1 := by
    rw [← Nat.pow_le_pow_iff_left two_ne_zero]
    omega
  have hyd : y ≤ diagLen h w - 1 := by
    rw [← Nat.pow_le_pow_iff_left two_ne_zero]
    omega
  obtain ⟨hc, hs, hcle, hsle, hcs⟩ := trigAt_bounds htrig t
  rw [houghRho]
  generalize trigAt trig t = p at *
  have hreal : ((x : ℝ)) ^ 2 + (y : ℝ) ^ 2 ≤ ((diagLen h w : ℝ) - 1) ^ 2 := by
    rw [← Nat.cast_one, ← Nat.cast_sub hd1]
    exact_mod_cast hsq
  obtain ⟨hfx, hex, hbx⟩ := fmul_coordinate (k := x) (by omega) hc hcle
  obtain ⟨hfy, hey, hby⟩ := fmul_coordinate (k := y) (by omega) hs hsle
  have hdreal : (diagLen h w : ℝ) ≤ 32767 := by exact_mod_cast hd
  have hd1real : (1 : ℝ) ≤ diagLen h w := by exact_mod_cast hd1
  have hexact := abs_rho_le (by linarith) (by linarith) hreal hcs
  generalize fmul (f64 x) p.1 = u at *
  generalize fmul (f64 y) p.2 = v at *
  rw [abs_le] at hex hey hbx hby hexact
  have hsum : |realOf u + realOf v| < 2 ^ 19 := by
    rw [abs_lt]
    constructor <;> linarith
  obtain ⟨-, herr⟩ := fadd_error hfx hfy hsum
  rw [abs_le] at herr ⊢
  constructor <;> linarith

/-! ## The bin of a vote -/

theorem abs_roundEven_le (v : F64) : |(roundEven v : ℝ)| ≤ |realOf v| + 1 / 2 := by
  have hone := fixedOne_real_pos
  have hnear : 2 * |(realOf v - roundEven v) * fixedOne| ≤ fixedOne := by
    have h := Nat.cast_le (α := ℝ).2 (roundEven_spec v).1
    rw [Nat.cast_mul, Nat.cast_natAbs, Int.cast_abs, Int.cast_sub, Int.cast_mul, Int.cast_natCast, Nat.cast_ofNat,
      fixed_eq_realOf] at h
    rwa [sub_mul]
  rw [abs_mul, abs_of_pos hone] at hnear
  have hhalf : |realOf v - roundEven v| ≤ 1 / 2 := by
    refine le_of_mul_le_mul_right ?_ hone
    linarith
  have := abs_sub_abs_le_abs_sub (roundEven v : ℝ) (realOf v)
  rw [abs_sub_comm] at this
  linarith

theorem abs_truncInt_le (v : F64) : |(truncInt v : ℝ)| ≤ |realOf v| := by
  rw [truncInt_eq_signOf, Int.cast_mul, abs_signOf_mul, abs_realOf, Int.cast_natCast, abs_of_nonneg (Nat.cast_nonneg _)]
  exact Nat.cast_div_le

/-- A vote lies within D - 1 of the middle under both values of TRUNC. -/
theorem natAbs_houghOffset_lt {trig : List (F64 × F64)} (htrig : trigAdmissible trig = true) {h w y x : Nat}
    (trunc : Bool) (t : Nat) (hd : diagLen h w ≤ 32767) (hx : x < w) (hy : y < h) :
    (houghOffset trunc trig t y x).natAbs < diagLen h w := by
  have hrho := abs_houghRho_le htrig t hd hx hy
  have hround := abs_roundEven_le (houghRho trig t y x)
  have htrunc := abs_truncInt_le (houghRho trig t y x)
  have hreal : |(houghOffset trunc trig t y x : ℝ)| < diagLen h w := by
    rw [houghOffset]
    split_ifs <;> linarith
  rw [← Nat.cast_lt (α := ℝ), Nat.cast_natAbs, Int.cast_abs]
  exact hreal

end Sys2Proof.Machine
end

section
/-! SUPPORT. HOUGH's votes in the accumulator (47_hough.md R360, R368): what a ready HOUGH leaves in ACC, and the
sum of the counts over the bins. -/

namespace Sys2Proof.Machine

/-! ## A ready HOUGH completes -/

theorem validate_hough {memSize : Nat} {trunc : Bool} {edges acc rhos thetas : Grid}
    (h : Ready memSize (.hough trunc edges acc rhos thetas)) :
    validate (.hough trunc edges acc rhos thetas) memSize = none := by
  obtain ⟨⟨hacch, haccw, hrhosh, hrhosw, hthetash, hthetasw⟩, ⟨heh, hew, hebase, hestride, herow, heend⟩,
    ⟨hah, haw, habase, hastride, harow, haend⟩, ⟨hrh, hrw, hrbase, hrstride, hrrow, hrend⟩,
    ⟨hth, htw, htbase, htstride, htrow, htend⟩, hea, her, het, har, hat, hrt⟩ := h
  refine validate_none.2 ⟨rfl, ?_, ?_, ⟨?_, rfl⟩, ?_, ?_⟩
  · simp only [operandsOf, List.forall_mem_cons, checkDim_none]
    exact ⟨⟨heh, hew⟩, ⟨hah, haw⟩, ⟨hrh, hrw⟩, ⟨hth, htw⟩, List.forall_mem_nil _⟩
  · simp [operandsOf, checkShape_none, expectedShape, hacch, haccw, hrhosh, hrhosw, hthetash, hthetasw]
  · simp only [operandsOf, List.forall_mem_cons, checkOperandLayout_none]
    exact ⟨⟨hebase, hestride, herow⟩, ⟨habase, hastride, harow⟩, ⟨hrbase, hrstride, hrrow⟩,
      ⟨htbase, htstride, htrow⟩, List.forall_mem_nil _⟩
  · simp only [spansOf, scratchSpans, operandsOf, List.append_nil, List.forall_mem_map, List.forall_mem_cons]
    exact ⟨heend, haend, hrend, htend, List.forall_mem_nil _⟩
  · simp [spansOf, scratchSpans, operandsOf, operandSpan, spansClash_false, hea, her, het, har, hat, hrt]

theorem exec_hough {s : State} {trunc : Bool} {edges acc rhos thetas : Grid}
    (h : Ready s.straps.memSize (.hough trunc edges acc rhos thetas)) :
    exec (.hough trunc edges acc rhos thetas) s =
      .next (s.complete (.hough trunc edges acc rhos thetas)
        (s.mem.writeCells (houghCells trunc s.straps.trig edges acc rhos thetas s.mem))) := by
  rw [← State.attempt_of_none (validate_hough h)]
  rfl

/-- ACC after HOUGH holds the counts modulo 2^32. -/
theorem rdU32_houghCells {m : Memory} (hm : m.wf) {memSize : Nat} {trunc : Bool} {trig : List (F64 × F64)}
    {edges acc rhos thetas : Grid} (h : Ready memSize (.hough trunc edges acc rhos thetas)) {b k : Nat}
    (hb : b < acc.h) (hk : k < acc.w) :
    rdU32 (m.writeCells (houghCells trunc trig edges acc rhos thetas m)) acc b k =
      houghCount trunc trig (rdM m edges) edges.h edges.w b k % 2 ^ 32 := by
  obtain ⟨-, -, ⟨-, -, -, -, harow, -⟩, -⟩ := h
  rw [houghCells, Memory.writeCells_append, rdU32_cellsU32 (Memory.writeCells_wf hm _) _ harow hb hk]

/-! ## The number of votes -/

theorem edgePixels_nodup (edges : Nat → Nat → Bool) (h w : Nat) : (edgePixels edges h w).Nodup :=
  (pixels_nodup h w).filter _

theorem edgePixels_length_le (edges : Nat → Nat → Bool) (h w : Nat) : (edgePixels edges h w).length ≤ h * w :=
  (List.length_filter_le _ _).trans (pixels_length h w).le

theorem mem_edgePixels {edges : Nat → Nat → Bool} {h w : Nat} {p : Nat × Nat} :
    p ∈ edgePixels edges h w ↔ (p.1 < h ∧ p.2 < w) ∧ edges p.1 p.2 = true := by
  rw [edgePixels, List.mem_filter, mem_pixels]

theorem edgePixels_length (edges : Nat → Nat → Bool) (h w : Nat) :
    (edgePixels edges h w).length =
      ((Finset.range h ×ˢ Finset.range w).filter fun p => edges p.1 p.2 = true).card := by
  rw [← List.toFinset_card_of_nodup (edgePixels_nodup edges h w)]
  congr 1
  ext p
  simp [mem_edgePixels]

/-- A list whose values all lie in the first `n` bins is counted once over these bins. -/
theorem sum_countP_bins {α : Type} (l : List α) (f : α → Int) {n : Nat} (hf : ∀ a ∈ l, 0 ≤ f a ∧ f a < n) :
    ∑ b ∈ Finset.range n, l.countP (fun a => f a = (b : Int)) = l.length := by
  induction l with
  | nil => simp
  | cons a l ih =>
    obtain ⟨hlow, hhigh⟩ := hf a List.mem_cons_self
    obtain ⟨c, hc⟩ := Int.eq_ofNat_of_zero_le hlow
    have hcn : c < n := by omega
    have hone : ∑ b ∈ Finset.range n, (if f a = (b : Int) then 1 else 0) = 1 := by
      simp [hc, hcn]
    simp only [List.countP_cons, decide_eq_true_eq, Finset.sum_add_distrib, hone, List.length_cons,
      ih fun a ha => hf a (List.mem_cons_of_mem _ ha)]

/-- Every vote of a legal table falls in a bin between the first and the last. -/
theorem houghBin_inside {trig : List (F64 × F64)} (htrig : trigAdmissible trig = true) {edges : Nat → Nat → Bool}
    {h w : Nat} (trunc : Bool) (t : Nat) (hd : diagLen h w ≤ 32767) {p : Nat × Nat} (hp : p ∈ edgePixels edges h w) :
    0 < houghOffset trunc trig t p.1 p.2 + (diagLen h w : Int) ∧
      houghOffset trunc trig t p.1 p.2 + (diagLen h w : Int) < 2 * diagLen h w := by
  obtain ⟨⟨hy, hx⟩, -⟩ := mem_edgePixels.1 hp
  have := natAbs_houghOffset_lt htrig trunc t hd hx hy
  omega

/-- One theta counts every edge pixel once. -/
theorem sum_houghCount {trig : List (F64 × F64)} (htrig : trigAdmissible trig = true) (edges : Nat → Nat → Bool)
    {h w : Nat} (trunc : Bool) (t : Nat) (hd : diagLen h w ≤ 32767) :
    ∑ b ∈ Finset.range (2 * diagLen h w + 1), houghCount trunc trig edges h w b t = (edgePixels edges h w).length :=
  sum_countP_bins _ _ fun p hp => by
    have := houghBin_inside htrig trunc t hd hp
    omega

/-- The first and the last bin receive no vote. -/
theorem houghCount_end {trig : List (F64 × F64)} (htrig : trigAdmissible trig = true) (edges : Nat → Nat → Bool)
    {h w b : Nat} (trunc : Bool) (t : Nat) (hd : diagLen h w ≤ 32767) (hb : b = 0 ∨ b = 2 * diagLen h w) :
    houghCount trunc trig edges h w b t = 0 := by
  refine List.countP_eq_zero.2 fun p hp => ?_
  have := houghBin_inside htrig trunc t hd hp
  rw [decide_eq_true_iff]
  omega

/-- A mask whose diagonal fits has fewer than 2^32 pixels, so no count wraps. -/
theorem houghCount_lt (trunc : Bool) (trig : List (F64 × F64)) (edges : Nat → Nat → Bool) {h w : Nat} (b t : Nat)
    (hd : diagLen h w ≤ 32767) : houghCount trunc trig edges h w b t < 2 ^ 32 := by
  have hcount : houghCount trunc trig edges h w b t ≤ h * w := List.countP_le_length.trans (edgePixels_length_le _ _ _)
  have hsq : w ^ 2 + h ^ 2 ≤ 32767 ^ 2 := (le_sq_diagLen h w).trans (Nat.pow_le_pow_left hd 2)
  nlinarith [sq_nonneg ((h : Int) - w)]

end Sys2Proof.Machine

namespace Sys2Proof

open Sys2Proof.Machine

/-- Settles O39: each theta counts every edge pixel once, between the end bins. -/
theorem houghTotalVotes : Obligations.HoughTotalVotes := by
  intro s trunc edges acc rhos thetas hwf hlegal hready hformed
  have ⟨⟨hacch, haccw, _⟩, _⟩ := hready
  have hd : diagLen edges.h edges.w ≤ 32767 := by
    simp only [Instr.wellFormed, Grid.wellFormed, Bool.and_eq_true, decide_eq_true_eq] at hformed
    omega
  have hread {b k : Nat} (hb : b < acc.h) (hk : k < acc.w) :
      rdU32 (s.mem.writeCells (houghCells trunc s.straps.trig edges acc rhos thetas s.mem)) acc b k =
        houghCount trunc s.straps.trig (rdM s.mem edges) edges.h edges.w b k := by
    rw [rdU32_houghCells hwf hready hb hk, Nat.mod_eq_of_lt (houghCount_lt _ _ _ _ _ hd)]
  refine ⟨_, exec_hough hready, ?_, fun k hk => ⟨?_, ?_⟩⟩
  · have htheta : ∀ k ∈ Finset.range acc.w, ∑ b ∈ Finset.range acc.h,
        rdU32 (s.mem.writeCells (houghCells trunc s.straps.trig edges acc rhos thetas s.mem)) acc b k =
          (edgePixels (rdM s.mem edges) edges.h edges.w).length := fun k hk => by
      rw [← sum_houghCount hlegal.trig_ok (rdM s.mem edges) trunc k hd, ← hacch]
      exact Finset.sum_congr rfl fun b hb => hread (Finset.mem_range.1 hb) (Finset.mem_range.1 hk)
    rw [State.complete_mem, Finset.sum_comm, Finset.sum_congr rfl htheta, Finset.sum_const, Finset.card_range, haccw,
      smul_eq_mul, edgePixels_length]
  · rw [State.complete_mem, hread (by omega) hk, houghCount_end hlegal.trig_ok _ _ _ hd (.inl rfl)]
  · rw [State.complete_mem, hread (by omega) hk, houghCount_end hlegal.trig_ok _ _ _ hd (.inr rfl)]

end Sys2Proof
end

section
/-! SUPPORT. All that one step can do (70_reset_and_hazards.md R621) and the invariant, kept by each of these. -/

namespace Sys2Proof.Machine

/-! ## All that one step can do -/

/-- A reset sets the registers, and only the bytes that a command in flight writes may change (70_reset_and_hazards.md
R601, R602). -/
theorem resetMove_eq (s : State) :
    ∃ m n, resetMove s = ({ s with mem := m, draws := n }).resetRegisters ∧
      Memory.Within (fun a => ∃ i, completing s = some i ∧ a ∈ writtenBytes i) s.mem m := by
  cases h : completing s with
  | none => exact ⟨s.mem, s.draws, by simp only [resetMove, h], Memory.within_refl _ _⟩
  | some i =>
    refine ⟨_, _, by simp only [resetMove, h]; rfl, Memory.writeCells_within _ fun a ha => ⟨i, rfl, ?_⟩⟩
    rwa [freeCells_keys] at ha

/-- All that a HOST read of a byte of memory can do: its answer changes the reply and the count of free bytes. -/
theorem hostMemRead_next {addr : Nat} {s t : State} (h : hostMemRead addr s = .next t) :
    ∃ r n, t = { s with reply := r, draws := n } := by
  simp only [hostMemRead] at h
  split_ifs at h
  · cases h
    exact ⟨_, _, rfl⟩
  · cases h
    exact ⟨_, s.draws, rfl⟩

/-- All that a HOST write of a byte of memory can do: it stores a byte that the memory has. -/
theorem hostMemWrite_next {addr : Nat} {v : Byte} {s t : State} (h : hostMemWrite addr v s = .next t) :
    addr < s.straps.memSize ∧ t = { s with mem := s.mem.write addr v } := by
  simp only [hostMemWrite] at h
  split_ifs at h with hmem
  cases h
  exact ⟨not_le.1 hmem, rfl⟩

/-- The state once the move it takes is no longer to come. -/
def State.nextTaken (s : State) : State := { s with moves := s.moves.tail }

/-- All that one step can do: a turn of the ENGINE, a read, a write of the window, a write of memory, a reset. -/
theorem step_cases {s t : State} (h : step s = .next t) :
    engineStep s.nextTaken = .next t ∨
      (∃ r n, t = { s.nextTaken with reply := r, draws := n }) ∨
      (∃ addr width d rest, s.moves = .regWrite addr width d :: rest ∧ t = hostRegWrite addr width d s.nextTaken) ∨
      (∃ addr v, addr < s.straps.memSize ∧ t = { s.nextTaken with mem := s.mem.write addr v }) ∨
      t = resetMove s.nextTaken := by
  cases hm : s.moves with
  | nil =>
    rw [step_engine hm] at h
    rw [State.nextTaken, hm, List.tail_nil, ← hm]
    exact .inl h
  | cons mv rest =>
    have hs : s.nextTaken = { s with moves := rest } := by rw [State.nextTaken, hm, List.tail_cons]
    rw [step_move hm, ← hs] at h
    cases mv with
    | engine => exact .inl h
    | regRead addr width =>
      obtain ⟨r, hr⟩ := hostRegRead_reply addr width s.nextTaken
      cases h
      exact .inr (.inl ⟨r, s.draws, hr⟩)
    | regWrite addr width d =>
      cases h
      exact .inr (.inr (.inl ⟨addr, width, d, rest, rfl, rfl⟩))
    | memRead addr => exact .inr (.inl (hostMemRead_next h))
    | memWrite addr v => exact .inr (.inr (.inr (.inl ⟨addr, v, hostMemWrite_next h⟩)))
    | reset =>
      cases h
      exact .inr (.inr (.inr (.inr rfl)))

/-! ## The invariant under each update -/

variable {s : State}

/-- The invariant does not speak of the moves to come, the reply, the free bytes and the enables. -/
theorem State.Inv.unseen (h : s.Inv) (ms : List Move) (r : List Byte) (n : Nat) (d e : Bool) :
    ({ s with moves := ms, reply := r, draws := n, doneIE := d, errIE := e }).Inv := { h with }

/-- Memory may change within its size and its canonical form. -/
theorem State.Inv.memory (h : s.Inv) {m : Memory} (hwf : m.wf) (hin : ∀ c ∈ m, c.1 < s.straps.memSize) :
    ({ s with mem := m }).Inv := { h with mem_wf := hwf, mem_inside := hin }

/-- A change within the bytes that the memory has keeps every listed byte inside it. -/
theorem State.Inv.mem_inside_of_within (h : s.Inv) {P : Nat → Prop} {m : Memory} (hw : Memory.Within P s.mem m)
    (hP : ∀ a, P a → a < s.straps.memSize) : ∀ c ∈ m, c.1 < s.straps.memSize := fun c hc =>
  (hw.listed c hc).elim (h.mem_inside c) (hP c.1)

/-- While no list runs any CMD_PTR is sound. -/
theorem State.Inv.pointer (h : s.Inv) (hb : s.busy = false) (p : Word) : ({ s with cmdPtr := p }).Inv :=
  { h with pointer_inside := fun hran => absurd (h.idle_ran hb) hran }

/-- A block that goes idle is sound if its flags agree with its report (10_state.md R55, R59, R62). -/
theorem State.Inv.of_idle {t : State} (h : s.Inv) (hmem : t.mem = s.mem) (hstraps : t.straps = s.straps)
    (hb : t.busy = false) (hran : t.ran = []) (hdone : t.done = true → t.err = false ∧ t.errCode = 0)
    (hcode : t.errCode.toNat ≤ 8) (herr : t.err = true → t.errCode ≠ 0)
    (hclean : t.errCode = 0 → t.errInfo = 0 ∧ t.errAddr = 0) : t.Inv where
  mem_wf := hmem ▸ h.mem_wf
  mem_inside := by rw [hmem, hstraps]; exact h.mem_inside
  straps_legal := hstraps ▸ h.straps_legal
  busy_alone := by simp [hb]
  done_or_err hd := (hdone hd).1
  code_known := hcode
  err_has_code := herr
  no_code_while_running := by simpa [hb] using fun hd => (hdone hd).2
  clean_report := hclean
  idle_ran _ := hran
  count_ran := by simp [hb]
  ran_valid := by simp [hran]
  pointer_inside := by simp [hran]

/-- An error entry ends a running list, which had neither flag set. -/
theorem State.Inv.raise (h : s.Inv) (hb : s.busy = true) (e : BlockError) : (s.raise e).Inv :=
  h.of_idle rfl rfl rfl rfl (fun hd => by simp [(h.busy_alone hb).1] at hd) e.code.number_range.2
    (fun _ => e.code.number_range.1) fun h0 => absurd h0 e.code.number_range.1

/-- The end of a list comes with no error recorded. -/
theorem State.Inv.finish (h : s.Inv) (hb : s.busy = true) : s.finish.Inv :=
  h.of_idle rfl rfl rfl rfl (fun _ => ⟨(h.busy_alone hb).2, h.no_code_while_running (.inl hb)⟩) h.code_known
    (by simp [(h.busy_alone hb).2]) h.clean_report

theorem State.Inv.resetRegisters (h : s.Inv) : s.resetRegisters.Inv :=
  h.of_idle rfl rfl rfl rfl (fun _ => ⟨rfl, rfl⟩) (Nat.zero_le 8) (by simp) fun _ => ⟨rfl, rfl⟩

/-- START clears the flags, the report and the record of the list. -/
theorem State.Inv.start (h : s.Inv) : s.start.Inv :=
  { h with
    busy_alone := fun _ => ⟨rfl, rfl⟩
    done_or_err := fun _ => rfl
    code_known := Nat.zero_le 8
    err_has_code := by simp
    no_code_while_running := fun _ => rfl
    clean_report := fun _ => ⟨rfl, rfl⟩
    idle_ran := fun _ => rfl
    count_ran := fun _ => rfl
    ran_valid := fun _ hi => absurd hi List.not_mem_nil
    pointer_inside := fun hran => absurd rfl hran }

/-- A write of STATUS can only clear flags. -/
theorem State.Inv.writeStatus (h : s.Inv) (d : Reg) : (s.writeStatus d).Inv :=
  { h with
    busy_alone := fun hb => by simp [h.busy_alone hb]
    done_or_err := fun hd => by simp [h.done_or_err (Bool.and_elim_left hd)]
    err_has_code := fun he => h.err_has_code (Bool.and_elim_left he)
    no_code_while_running := fun hf => h.no_code_while_running (hf.imp_right Bool.and_elim_left) }

/-- A completion moves CMD_PTR to the end of a descriptor that lies in memory (40_control.md R201, R203). -/
theorem State.Inv.complete (h : s.Inv) (hb : s.busy = true) {i : Instr} {m : Memory} (hi : i ≠ .endList)
    (hf : fetchError s = none) (hv : validate i s.straps.memSize = none) (hm : ({ s with mem := m }).Inv) :
    (s.complete i m).Inv :=
  { hm with
    idle_ran := by simp [hb]
    count_ran := fun _ => by
      rw [State.complete_cmdCount, State.complete_ran, h.count_ran hb, List.length_append, List.length_singleton,
        BitVec.ofNat_add]
      rfl
    ran_valid := fun j hj => (List.mem_append.1 hj).elim (h.ran_valid j) fun hj => by
      rw [List.mem_singleton.1 hj]
      exact ⟨hi, hv⟩
    pointer_inside := fun _ => by
      obtain ⟨haligned, hroom⟩ := fetchError_none.1 hf
      have hnext : (s.complete i m).cmdPtr.toNat = s.cmdPtr.toNat + 128 :=
        State.passOver_cmdPtr_toNat h.straps_legal.size_high hroom
      rw [hnext, State.complete_straps]
      omega }

/-! ## The invariant under each move -/

theorem State.Inv.of_engineStep {t : State} (h : s.Inv) (ht : engineStep s = .next t) : t.Inv := by
  rcases engineStep_cases s with ⟨-, he⟩ | ⟨hb, ⟨e, he⟩ | ⟨-, he⟩ | ⟨i, m, hi, hf, hv, he, hw⟩⟩ <;>
    cases he.symm.trans ht
  · exact h
  · exact h.raise hb e
  · exact h.finish hb
  · have hm := h.memory (hw.wf h.mem_wf) (h.mem_inside_of_within hw fun _ => writtenBytes_in_memory hv)
    exact h.complete hb hi (fetchCommand_ok.1 hf).1 hv hm

theorem State.Inv.of_writeReg (h : s.Inv) (offset : Nat) (d : Reg) : (s.writeReg offset d).Inv := by
  rcases writeReg_cases s offset d with ⟨-, hw⟩ | hw | hw | ⟨hb, p, hw⟩ | hw <;> rw [hw]
  · exact h.start
  · exact h.writeStatus d
  · exact h.unseen _ _ _ _ _
  · exact h.pointer hb p
  · exact h

theorem State.Inv.of_hostRegWrite (h : s.Inv) (addr width : Nat) (d : Reg) : (hostRegWrite addr width d s).Inv := by
  rcases hostRegWrite_cases addr width d s with ⟨offset, hw⟩ | hw <;> rw [hw]
  · exact h.of_writeReg offset d
  · exact h

/-- The bytes that a command in flight writes lie in memory, since it was validated. -/
theorem State.Inv.of_resetMove (h : s.Inv) : (resetMove s).Inv := by
  obtain ⟨m, n, heq, hw⟩ := resetMove_eq s
  have hin := h.mem_inside_of_within hw fun a ⟨_, hi, ha⟩ =>
    writtenBytes_in_memory (completing_some.1 hi).2.2.2 ha
  rw [heq]
  exact ((h.memory (hw.wf h.mem_wf) hin).unseen s.moves s.reply n s.doneIE s.errIE).resetRegisters

end Sys2Proof.Machine

namespace Sys2Proof

open Sys2Proof.Machine

/-- Settles O59: each thing a step can do keeps the invariant. -/
theorem stepKeepsInvariant : Obligations.StepKeepsInvariant := by
  intro s t h ht
  have htaken : s.nextTaken.Inv := h.unseen s.moves.tail s.reply s.draws s.doneIE s.errIE
  rcases step_cases ht with he | ⟨r, n, rfl⟩ | ⟨addr, width, d, -, -, rfl⟩ | ⟨addr, v, ha, rfl⟩ | rfl
  · exact htaken.of_engineStep he
  · exact htaken.unseen _ r n _ _
  · exact htaken.of_hostRegWrite addr width d
  · refine htaken.memory (Memory.write_wf h.mem_wf addr v) fun c hc => ?_
    rcases Memory.mem_write hc with hc | ⟨rfl, -⟩
    · exact h.mem_inside c hc
    · exact ha
  · exact htaken.of_resetMove

end Sys2Proof
end

section
/-! SUPPORT. The register window (10_state.md R52 to R67): what each register reads as, and the state that each
access of the window leaves. -/

namespace Sys2Proof.Machine

variable {s : State} {rest : List Move} {offset width : Nat} {d : Reg}

/-! ## Words, halves and bytes -/

theorem length_bytesOf (n v : Nat) : (bytesOf n v).length = n := by
  induction n generalizing v with
  | zero => rfl
  | succ n ih => rw [bytesOf, List.length_cons, ih]

theorem ofBytes_bytesOf (n v : Nat) : ofBytes (bytesOf n v) = v % 256 ^ n := by
  induction n generalizing v with
  | zero => rw [pow_zero, Nat.mod_one]; rfl
  | succ n ih =>
    rw [bytesOf, ofBytes, ih, BitVec.toNat_ofNat, Nat.pow_succ' (n := n)]
    exact (Nat.mod_mul (x := v) (a := 256) (b := 256 ^ n)).symm

theorem loHalf_toNat (v : Word) : (loHalf v).toNat = v.toNat % 2 ^ 32 := by
  rw [loHalf, BitVec.extractLsb'_toNat, Nat.shiftRight_zero]

theorem hiHalf_toNat (v : Word) : (hiHalf v).toNat = v.toNat / 2 ^ 32 := by
  rw [hiHalf, BitVec.extractLsb'_toNat, Nat.shiftRight_eq_div_pow]
  omega

theorem append_toNat (hi lo : Reg) : (hi ++ lo).toNat = hi.toNat * 2 ^ 32 + lo.toNat := by
  rw [BitVec.toNat_append, ← Nat.shiftLeft_add_eq_or_of_lt lo.isLt, Nat.shiftLeft_eq]

theorem loHalf_ofNat (n : Nat) : loHalf (BitVec.ofNat 64 n) = BitVec.ofNat 32 n :=
  BitVec.eq_of_toNat_eq <| by
    rw [loHalf_toNat, BitVec.toNat_ofNat, BitVec.toNat_ofNat, Nat.mod_mod_of_dvd _ (pow_dvd_pow 2 (by norm_num))]

theorem hiHalf_ofNat (n : Nat) : hiHalf (BitVec.ofNat 64 n) = BitVec.ofNat 32 (n / 2 ^ 32) :=
  BitVec.eq_of_toNat_eq <| by
    rw [hiHalf_toNat, BitVec.toNat_ofNat, BitVec.toNat_ofNat, show 2 ^ 64 = 2 ^ 32 * 2 ^ 32 by norm_num,
      Nat.mod_mul_right_div_self]

theorem hiHalf_zero : hiHalf 0 = 0 := by decide

/-! ## What the registers read as -/

/-- STATUS holds the flags and the interrupt at their places (10_state.md R55). -/
theorem State.statusWord_toNat (s : State) :
    s.statusWord.toNat = s.busy.toNat + 2 * s.done.toNat + 4 * s.err.toNat + 8 * s.irq.toNat := by
  have hb := s.busy.toNat_le
  have hd := s.done.toNat_le
  have he := s.err.toNat_le
  have hi := s.irq.toNat_le
  exact Nat.mod_eq_of_lt (by omega)

/-- IER holds the enables at their places (10_state.md R57). -/
theorem State.ierWord_toNat (s : State) : s.ierWord.toNat = 2 * s.doneIE.toNat + 4 * s.errIE.toNat := by
  have hd := s.doneIE.toNat_le
  have he := s.errIE.toNat_le
  exact Nat.mod_eq_of_lt (by omega)

/-- A legal MEM_SIZE fits, so that MEMTOP is the highest address (10_state.md R63). -/
theorem State.memTop_toNat (h : s.straps.Legal) : s.memTop.toNat = s.straps.memSize - 1 := by
  have hhigh := h.size_high
  exact Nat.mod_eq_of_lt (by omega)

/-- Behind MEMTOP the window has no register (10_state.md R52). -/
theorem State.readReg_reserved (s : State) (h : 0x038 ≤ offset) : s.readReg offset = 0 := by
  rw [State.readReg] <;> omega

/-- With the registers at their reset values only ID, VERSION and MEMTOP do not read 0 (10_state.md R71). -/
theorem State.readReg_resetRegisters (s : State) (offset : Nat) :
    s.resetRegisters.readReg offset =
      if offset = 0x000 then 0x43533133 else if offset = 0x004 then 0x00010000
      else if offset = 0x030 then loHalf s.memTop else if offset = 0x034 then hiHalf s.memTop else 0 := by
  unfold State.readReg
  split
  case h_7 => exact hiHalf_zero
  case h_9 => exact hiHalf_zero
  case h_14 => rw [if_neg, if_neg, if_neg, if_neg] <;> assumption
  all_goals rfl

/-! ## Reads of the window -/

/-- A read of the window changes the reply only. -/
theorem step_regRead (h : s.moves = .regRead (s.straps.mmioBase + offset) width :: rest) (ho : offset < 0x100) :
    step s = .next { s with reply := s.windowRead offset width, moves := rest } := by
  rw [step_move h, applyMove, hostRegRead, windowOffset_in (s := { s with moves := rest }) ho]
  rfl

theorem registerAccess_false (h : width ≠ 4 ∨ offset % 4 ≠ 0) : registerAccess offset width = false := by
  simpa [registerAccess, or_iff_not_imp_left] using h

theorem registerAccess_true (h : offset % 4 = 0) : registerAccess offset 4 = true := by simp [registerAccess, h]

theorem State.windowRead_of_aligned (s : State) (h : offset % 4 = 0) :
    s.windowRead offset 4 = bytesOf 4 (s.readReg offset).toNat := if_pos (registerAccess_true h)

/-- The four bytes of an aligned read are those of the register. -/
theorem State.ofBytes_windowRead (s : State) (h : offset % 4 = 0) :
    ofBytes (s.windowRead offset 4) = (s.readReg offset).toNat := by
  rw [s.windowRead_of_aligned h, ofBytes_bytesOf]
  exact Nat.mod_eq_of_lt (s.readReg offset).isLt

/-! ## Writes of the window -/

theorem step_regWrite (h : s.moves = .regWrite (s.straps.mmioBase + offset) width d :: rest) (ho : offset < 0x100) :
    step s = .next (({ s with moves := rest }).windowWrite offset width d) := by
  rw [step_move h, applyMove, hostRegWrite, windowOffset_in (s := { s with moves := rest }) ho]

/-- Only an aligned 32-bit write reaches a register (10_state.md R66). -/
theorem State.windowWrite_of_aligned (s : State) (h : offset % 4 = 0) :
    s.windowWrite offset 4 d = s.writeReg offset d := if_pos (registerAccess_true h)

theorem State.windowWrite_ignored (s : State) (h : width ≠ 4 ∨ offset % 4 ≠ 0) : s.windowWrite offset width d = s :=
  if_neg (by simp [registerAccess_false h])

/-- An aligned 32-bit write of the window is the write of the register. -/
theorem step_regWrite_aligned (h : s.moves = .regWrite (s.straps.mmioBase + offset) 4 d :: rest)
    (ho : offset < 0x100) (ha : offset % 4 = 0) : step s = .next (({ s with moves := rest }).writeReg offset d) := by
  rw [step_regWrite h ho, State.windowWrite_of_aligned _ ha]

/-- Offsets other than CTRL, STATUS, IER and the halves of CMD_PTR ignore writes (10_state.md R52 to R65). -/
theorem State.writeReg_of_notMem (s : State) (h : offset ∉ [0x008, 0x00C, 0x010, 0x018, 0x01C]) :
    s.writeReg offset d = s := by
  simp only [List.mem_cons, List.not_mem_nil, or_false, not_or] at h
  obtain ⟨hctrl, hstatus, hier, hlo, hhi⟩ := h
  rw [State.writeReg] <;> assumption

theorem State.writeCtrl_start (hd : d.getLsbD 0 = true) (hb : s.busy = false) : s.writeCtrl d = s.start := by
  rw [State.writeCtrl, hd, hb]
  rfl

theorem State.writeCtrl_ignored (h : d.getLsbD 0 = false ∨ s.busy = true) : s.writeCtrl d = s :=
  if_neg (by rcases h with h | h <;> rw [h] <;> simp)

/-- START as a step (10_state.md R60). -/
theorem step_start (h : s.moves = .regWrite (s.straps.mmioBase + 0x008) 4 d :: rest) (hd : d.getLsbD 0 = true)
    (hb : s.busy = false) : step s = .next ({ s with moves := rest }).start := by
  rw [step_regWrite_aligned h (by norm_num) (by norm_num)]
  exact congrArg _ (State.writeCtrl_start hd hb)

/-- A write of the low half of CMD_PTR replaces it while no list runs (10_state.md R61). -/
theorem State.writePtrLo_spec (s : State) (d : Reg) :
    ∃ p, s.writePtrLo d = { s with cmdPtr := p } ∧ (s.busy = true → p = s.cmdPtr) ∧
      (s.busy = false → p.toNat = s.cmdPtr.toNat / 2 ^ 32 * 2 ^ 32 + d.toNat) := by
  by_cases hb : s.busy = true
  · exact ⟨s.cmdPtr, if_pos hb, fun _ => rfl, by simp [hb]⟩
  · exact ⟨hiHalf s.cmdPtr ++ d, if_neg hb, fun h => absurd h hb, fun _ => by rw [append_toNat, hiHalf_toNat]⟩

/-- A write of the high half of CMD_PTR replaces it while no list runs (10_state.md R61). -/
theorem State.writePtrHi_spec (s : State) (d : Reg) :
    ∃ p, s.writePtrHi d = { s with cmdPtr := p } ∧ (s.busy = true → p = s.cmdPtr) ∧
      (s.busy = false → p.toNat = d.toNat * 2 ^ 32 + s.cmdPtr.toNat % 2 ^ 32) := by
  by_cases hb : s.busy = true
  · exact ⟨s.cmdPtr, if_pos hb, fun _ => rfl, by simp [hb]⟩
  · exact ⟨d ++ loHalf s.cmdPtr, if_neg hb, fun h => absurd h hb, fun _ => by rw [append_toNat, loHalf_toNat]⟩

/-! ## START begins every list -/

@[simp] theorem State.writePtrLo_busy (s : State) (d : Reg) : (s.writePtrLo d).busy = s.busy := by
  obtain ⟨p, hp, -⟩ := s.writePtrLo_spec d
  rw [hp]

@[simp] theorem State.writePtrHi_busy (s : State) (d : Reg) : (s.writePtrHi d).busy = s.busy := by
  obtain ⟨p, hp, -⟩ := s.writePtrHi_spec d
  rw [hp]

/-- No register but CTRL has an effect on BUSY. -/
theorem State.writeReg_busy (s : State) (d : Reg) (ho : offset ≠ 0x008) : (s.writeReg offset d).busy = s.busy := by
  unfold State.writeReg
  split
  case h_1 => exact absurd rfl ho
  all_goals simp

theorem windowOffset_some {addr : Nat} (h : s.windowOffset addr = some offset) :
    addr = s.straps.mmioBase + offset ∧ offset < 0x100 := by
  simp only [State.windowOffset, Option.ite_none_right_eq_some, Option.some.injEq] at h
  omega

/-- A HOST write that has an effect is a 32-bit write of a register. -/
theorem hostRegWrite_register (addr width : Nat) (d : Reg) (s : State) :
    hostRegWrite addr width d s = s ∨
      ∃ offset, addr = s.straps.mmioBase + offset ∧ width = 4 ∧ hostRegWrite addr width d s = s.writeReg offset d := by
  cases ho : s.windowOffset addr with
  | none => exact .inl (by simp only [hostRegWrite, ho])
  | some offset =>
    have hw : hostRegWrite addr width d s = s.windowWrite offset width d := by simp only [hostRegWrite, ho]
    rw [hw]
    by_cases haccess : width ≠ 4 ∨ offset % 4 ≠ 0
    · exact .inl (s.windowWrite_ignored haccess)
    · simp only [not_or, not_not] at haccess
      obtain ⟨rfl, haligned⟩ := haccess
      exact .inr ⟨offset, (windowOffset_some ho).1, rfl, s.windowWrite_of_aligned haligned⟩

/-- The one write of the window that sets BUSY is a 32-bit write of CTRL with bit 0 (10_state.md R60). -/
theorem hostRegWrite_start {addr : Nat} (hb : s.busy = false) (h : (hostRegWrite addr width d s).busy = true) :
    addr = s.straps.mmioBase + 0x008 ∧ width = 4 ∧ d.getLsbD 0 = true := by
  have hchange : ∀ t : State, t.busy = s.busy → hostRegWrite addr width d s ≠ t := fun t ht heq => by
    rw [heq, ht, hb] at h
    exact Bool.false_ne_true h
  obtain ⟨offset, haddr, hwidth, hw⟩ := (hostRegWrite_register addr width d s).resolve_left (hchange s rfl)
  have ho : offset = 0x008 := by
    by_contra ho
    exact hchange _ (s.writeReg_busy d ho) hw
  subst ho
  have hctrl : s.writeReg 0x008 d = s.writeCtrl d := rfl
  refine ⟨haddr, hwidth, ?_⟩
  by_contra hd
  exact hchange s rfl (hw.trans (hctrl.trans (State.writeCtrl_ignored (.inl (Bool.eq_false_of_not_eq_true hd)))))

/-! ## The ends of a list and the interrupt output -/

/-- A running list ends with an error or at END, and with nothing else (40_control.md R219). -/
theorem engineStep_ends {t : State} (hb : s.busy = true) (h : engineStep s = .next t) (ht : t.busy = false) :
    (∃ e, t = s.raise e) ∨ t = s.finish := by
  rcases engineStep_cases s with ⟨hidle, -⟩ | ⟨-, ⟨e, he⟩ | ⟨-, he⟩ | ⟨i, m, -, -, -, he, -⟩⟩
  · exact absurd (hb.symm.trans hidle).symm Bool.false_ne_true
  all_goals cases he.symm.trans h
  · exact .inl ⟨e, rfl⟩
  · exact .inr rfl
  · exact absurd (hb.symm.trans ht).symm Bool.false_ne_true

end Sys2Proof.Machine

namespace Sys2Proof

open Sys2Proof.Machine

/-- Settles O47: of all that a step can do from an idle block only a write of the window can set BUSY. -/
theorem startLaunchesTheList : Obligations.StartLaunchesTheList := by
  refine ⟨fun s rest d hm hd hb => step_start hm hd hb, fun s t hstep hidle hbusy => ?_⟩
  have htaken : s.nextTaken.busy = false := hidle
  have hnot : ∀ u : State, u.busy = false → t ≠ u := by
    rintro u hu rfl
    exact Bool.false_ne_true (hu.symm.trans hbusy)
  rcases step_cases hstep with he | ⟨r, n, ht⟩ | ⟨addr, width, d, rest, hm, rfl⟩ | ⟨addr, v, -, ht⟩ | ht
  · cases (engineStep_idle htaken).symm.trans he
    exact absurd rfl (hnot _ htaken)
  · exact absurd ht (hnot _ htaken)
  · obtain ⟨rfl, rfl, hd⟩ := hostRegWrite_start htaken hbusy
    exact ⟨rest, d, hm, hd⟩
  · exact absurd ht (hnot _ htaken)
  · obtain ⟨m, n, heq, -⟩ := resetMove_eq s.nextTaken
    exact absurd (ht.trans heq) (hnot _ rfl)

/-- Settles O48: both registers take an aligned 32-bit write at any time. -/
theorem flagAndEnableWrites : Obligations.FlagAndEnableWrites := by
  refine fun s rest d => ⟨fun hm => ?_, fun hm => step_regWrite_aligned hm (by norm_num) (by norm_num)⟩
  have hclear : ∀ flag bit : Bool, (if bit then false else flag) = (flag && !bit) := by decide
  rw [hclear, hclear]
  exact step_regWrite_aligned hm (by norm_num) (by norm_num)

/-- Settles O49: each half by its own register. -/
theorem pointerWrites : Obligations.PointerWrites := by
  intro s rest d high hm
  cases high with
  | false =>
    obtain ⟨p, hp, hrest⟩ := ({ s with moves := rest }).writePtrLo_spec d
    exact ⟨p, (step_regWrite_aligned hm (by norm_num) (by norm_num)).trans (congrArg _ hp), hrest⟩
  | true =>
    obtain ⟨p, hp, hrest⟩ := ({ s with moves := rest }).writePtrHi_spec d
    exact ⟨p, (step_regWrite_aligned hm (by norm_num) (by norm_num)).trans (congrArg _ hp), hrest⟩

/-- Settles O50: no such write reaches a register that takes it. -/
theorem ignoredWrites : Obligations.IgnoredWrites := by
  intro s rest offset width d hm ho hignored
  rw [step_regWrite hm ho]
  congr 1
  by_cases haccess : width ≠ 4 ∨ offset % 4 ≠ 0
  · exact State.windowWrite_ignored _ haccess
  · simp only [not_or, not_not] at haccess
    obtain ⟨rfl, haligned⟩ := haccess
    rw [State.windowWrite_of_aligned _ haligned]
    rcases hignored with hwidth | hmis | hro | hres | ⟨rfl, hctrl⟩
    · exact absurd rfl hwidth
    · exact absurd haligned hmis
    · exact State.writeReg_of_notMem _ (by simp only [List.mem_cons, List.not_mem_nil, or_false] at hro ⊢; omega)
    · exact State.writeReg_of_notMem _ (by simp only [List.mem_cons, List.not_mem_nil, or_false]; omega)
    · exact State.writeCtrl_ignored hctrl

/-- Settles O51: an aligned read returns the bytes of the register, of which each clause gives the value. -/
theorem registerReads : Obligations.RegisterReads := by
  intro s rest offset width hm ho
  refine ⟨_, step_regRead hm ho, fun hbad => ?_, ?_⟩
  · rw [State.windowRead, registerAccess_false hbad, if_neg Bool.false_ne_true]
  · rintro rfl haligned
    rw [s.ofBytes_windowRead haligned, s.windowRead_of_aligned haligned, length_bytesOf]
    refine ⟨rfl, ?_, ?_, ?_, ?_, ?_, ?_, ?_, ?_, ?_, ?_, ?_, ?_, ?_, ?_,
      fun hres => by rw [s.readReg_reserved hres]; rfl⟩
    all_goals rintro rfl
    · rfl
    · rfl
    · rfl
    · exact s.statusWord_toNat
    · exact s.ierWord_toNat
    · exact BitVec.toNat_setWidth_of_le (by norm_num)
    · exact loHalf_toNat _
    · exact hiHalf_toNat _
    · exact loHalf_toNat _
    · exact hiHalf_toNat _
    · exact BitVec.toNat_setWidth_of_le (by norm_num)
    · rfl
    · exact fun hlegal => by rw [← State.memTop_toNat hlegal]; exact loHalf_toNat _
    · exact fun hlegal => by rw [← State.memTop_toNat hlegal]; exact hiHalf_toNat _

/-- Settles O52: each ending of a list sets one flag and leaves the other clear. -/
theorem interruptFollowsTheFlags : Obligations.InterruptFollowsTheFlags := by
  refine ⟨fun s => by simp [State.irq], fun s t hnext hdone herr hstep hend => ?_, fun s t rest d hm hd hb hstep => ?_⟩
  · obtain ⟨hm, hb⟩ := hnext
    rw [step_engine hm] at hstep
    rcases engineStep_ends hb hstep hend with ⟨e, rfl⟩ | rfl <;> simp [State.irq, hdone, herr]
  · cases (step_start hm hd hb).symm.trans hstep
    rfl

/-- Settles O55: the state at power-up is one whose registers a reset would leave as they are. -/
theorem resetStateRegisters : Obligations.ResetStateRegisters := by
  refine ⟨rfl, fun m => ⟨_, rfl, rfl, ?_⟩⟩
  have hread := (State.powerUp m).readReg_resetRegisters
  have hreset : (State.powerUp m).resetRegisters = State.powerUp m := rfl
  rw [hreset] at hread
  refine ⟨hread _, hread _, fun offset hzero => ?_, rfl, rfl, ?_, ?_, (step_engine rfl).trans (engineStep_idle rfl)⟩
  · rw [hread]
    fin_cases hzero <;> rfl
  · exact (hread _).trans (loHalf_ofNat _)
  · exact (hread _).trans (hiHalf_ofNat _)

/-- Settles O56: a reset leaves the registers at their reset values, whatever it leaves of memory. (`resetMove` is the
name of the model's function.) -/
theorem resetMove_registers : Obligations.ResetMove := by
  intro s rest hm
  obtain ⟨m, n, heq, -⟩ := resetMove_eq { s with moves := rest }
  have hstep : step s = .next (resetMove { s with moves := rest }) := step_move hm
  rw [heq] at hstep
  refine ⟨_, hstep, rfl, rfl, rfl, rfl, rfl, rfl, rfl, rfl, rfl, rfl, rfl, rfl, rfl, rfl, ?_, engineStep_idle rfl⟩
  exact State.readReg_resetRegisters _

end Sys2Proof
end

section
/-! SUPPORT. HOST accesses of memory (20_memory.md R103, R120 to R122): what a read and a write of a byte answer as
steps, and which bytes the running list uses. -/

namespace Sys2Proof.Machine

variable {s : State} {rest : List Move} {a : Nat} {v : Byte}

/-! ## Writes -/

/-- A HOST write makes its step while it breaks no duty: it changes its byte and no other. -/
theorem step_memWrite (hm : s.moves = .memWrite a v :: rest) (ha : a < s.straps.memSize)
    (hfree : (s.busy && listUses { s with moves := rest } a) = false) (hwf : s.mem.wf) :
    ∃ m, step s = .next { s with mem := m, moves := rest } ∧ m.wf ∧
      ∀ b, m.read b = if b = a then v else s.mem.read b := by
  refine ⟨s.mem.write a v, ?_, Memory.write_wf hwf a v, fun b => Memory.read_write hwf a b v⟩
  rw [step_move hm, applyMove, hostMemWrite, if_neg (not_le.2 ha), hfree]
  rfl

/-- A HOST write to a byte of the running list is refused (log 8). -/
theorem step_memWrite_refused (hm : s.moves = .memWrite a v :: rest) (ha : a < s.straps.memSize)
    (hused : (s.busy && listUses { s with moves := rest } a) = true) :
    step s = .refused (.hostDutyBroken a) := by
  rw [step_move hm, applyMove, hostMemWrite, if_neg (not_le.2 ha), if_pos hused]

theorem step_memWrite_outside (hm : s.moves = .memWrite a v :: rest) (ha : s.straps.memSize ≤ a) :
    step s = .fault (.hostAddressOutsideMemory a) := by
  rw [step_move hm, applyMove, hostMemWrite, if_pos ha]

/-! ## Reads -/

/-- A HOST read of a byte that no running list writes answers its value. -/
theorem step_memRead (hm : s.moves = .memRead a :: rest) (ha : a < s.straps.memSize)
    (hfree : (s.busy && listWrites { s with moves := rest } a) = false) :
    step s = .next { s with reply := [s.mem.read a], moves := rest } := by
  rw [step_move hm, applyMove, hostMemRead, if_neg (not_le.2 ha), hfree]
  rfl

/-- A HOST read of a byte that the running list writes answers a free byte (log 6). -/
theorem step_memRead_racing (hm : s.moves = .memRead a :: rest) (ha : a < s.straps.memSize)
    (hwritten : (s.busy && listWrites { s with moves := rest } a) = true) :
    step s = .next { s with reply := [Config.freeByte s.draws], draws := s.draws + 1, moves := rest } := by
  rw [step_move hm, applyMove, hostMemRead, if_neg (not_le.2 ha), if_pos hwritten]

theorem step_memRead_outside (hm : s.moves = .memRead a :: rest) (ha : s.straps.memSize ≤ a) :
    step s = .fault (.hostAddressOutsideMemory a) := by
  rw [step_move hm, applyMove, hostMemRead, if_pos ha]

/-! ## The bytes that the running list uses -/

/-- A byte of an operand lies in a span that the command names (20_memory.md R114, 48_canny.md R392). -/
theorem InOperand.namedSpan {i : Instr} (h : InOperand i a) : ∃ sp ∈ namedSpans i, sp.lo ≤ a ∧ a < sp.hi := by
  rcases h with ⟨o, ho, hrows, hcols, hlo, hhi⟩ | ⟨full, img, out, scratch, params, rfl, hlo, hhi⟩
  · have hnamed : o ∈ (operandsOf i).filter fun o => decide (0 < o.grid.h ∧ 0 < o.grid.w) :=
      List.mem_filter.2 ⟨ho, decide_eq_true ⟨hrows, hcols⟩⟩
    exact ⟨operandSpan o, List.mem_append_left _ (List.mem_map_of_mem hnamed), hlo, hhi⟩
  · exact ⟨_, List.mem_append_right _ (List.mem_singleton_self _), hlo, hhi⟩

/-- The running list uses every operand byte of its commands. -/
theorem listUses_of_inOperand {i : Instr} (hi : i ∈ listCommands s) (h : InOperand i a) : listUses s a = true := by
  obtain ⟨sp, hsp, hlo, hhi⟩ := h.namedSpan
  exact listUses_of_command hi hsp hlo hhi

theorem mem_listCommands_of_ran {i : Instr} (hi : i ∈ s.ran) : i ∈ listCommands s := List.mem_append_left _ hi

/-- The moves still to come play no part in which slots stand fixed. -/
theorem SlotOfList.moves {p : Nat} (h : SlotOfList s p) (ms : List Move) : SlotOfList { s with moves := ms } p := by
  simpa only [SlotOfList, completing_moves] using h

/-- A slot that stands fixed is one of the list's: the one at CMD_PTR or, where no command completes there, one that
the list reaches from it. -/
theorem SlotOfList.mem_listSlots {p : Nat} (h : SlotOfList s p) (hb : s.busy = true) (hm : s.straps.memSize ≤ 2 ^ 63) :
    ∃ t ∈ listSlots s, t.cmdPtr.toNat = p ∧ t.mem = s.mem ∧ t.straps = s.straps := by
  obtain ⟨k, rfl, haligned, hroom, hwhere, hend⟩ := h
  rcases hwhere with rfl | hstop
  · have hfetch : fetchError s = none := fetchError_none.2 ⟨haligned, hroom⟩
    exact ⟨s, self_mem_listSlots hb hfetch, rfl, rfl, rfl⟩
  · rw [listSlots_of_not_completing hb hstop]
    exact slotsFrom_slot hm (by omega) (by omega) hroom hend

/-- The running list uses the bytes of each slot that stands fixed. -/
theorem SlotOfList.listUses {p : Nat} (h : SlotOfList s p) (hb : s.busy = true) (hm : s.straps.memSize ≤ 2 ^ 63)
    (hlo : p ≤ a) (hhi : a < p + 128) : listUses s a = true := by
  obtain ⟨t, ht, rfl, -, -⟩ := h.mem_listSlots hb hm
  exact listUses_of_slot ht hlo hhi

/-- The command in a slot that stands fixed is one of the list's, whether or not it would pass validation. -/
theorem SlotOfList.mem_listCommands {p : Nat} {i : Instr} (h : SlotOfList s p) (hb : s.busy = true)
    (hm : s.straps.memSize ≤ 2 ^ 63) (hd : decode (fetchWords s.mem p) = .ok i) : i ∈ listCommands s := by
  obtain ⟨t, ht, hp, hmem, hstraps⟩ := h.mem_listSlots hb hm
  obtain ⟨k, -, haligned, hroom, -, -⟩ := h
  have hfetch : fetchCommand t = .ok i := by
    rw [fetchCommand_ok, fetchError_none, hp, hmem, hstraps]
    exact ⟨⟨haligned, hroom⟩, hd⟩
  exact slotCommand_mem_listCommands ht hfetch

end Sys2Proof.Machine

namespace Sys2Proof

open Sys2Proof.Machine

/-- Settles O53: an idle block runs no list, whose bytes a HOST would have to leave alone. -/
theorem hostMemoryWhileIdle : Obligations.HostMemoryWhileIdle := by
  intro s rest a v hwf
  refine ⟨fun hm hb ha => ?_, fun hm hb ha => ?_, fun hm ha => ?_⟩
  · exact step_memWrite hm ha (by rw [hb, Bool.false_and]) hwf
  · exact step_memRead hm ha (by rw [hb, Bool.false_and])
  · exact hm.elim (step_memWrite_outside · ha) (step_memRead_outside · ha)

/-- Settles O54: a move is answered by whether the list uses or writes its byte, and the list uses the slots that
stand fixed, their commands' operands and those of the completed commands. -/
theorem hostMemoryWhileBusy : Obligations.HostMemoryWhileBusy := by
  intro s rest a v hwf hb ha
  refine ⟨fun hm hu => step_memWrite_refused hm ha (Bool.and_eq_true_iff.2 ⟨hb, hu⟩),
    fun hm hsize huse => ?_, fun hm hu => ?_, fun hm hw => ?_, fun hm hw => ?_⟩
  · refine step_memWrite_refused hm ha (Bool.and_eq_true_iff.2 ⟨hb, ?_⟩)
    rcases huse with ⟨p, hslot, ⟨hlo, hhi⟩ | ⟨i, hd, hin⟩⟩ | ⟨i, hi, hin⟩
    · exact (hslot.moves rest).listUses hb hsize hlo hhi
    · exact listUses_of_inOperand ((hslot.moves rest).mem_listCommands hb hsize hd) hin
    · exact listUses_of_inOperand (mem_listCommands_of_ran hi) hin
  · exact step_memWrite hm ha (by rw [hu, Bool.and_false]) hwf
  · exact ⟨_, step_memRead_racing hm ha (Bool.and_eq_true_iff.2 ⟨hb, hw⟩)⟩
  · exact step_memRead hm ha (by rw [hw, Bool.and_false])

end Sys2Proof
end

section
/-! SUPPORT. What a command never writes (20_memory.md R115, R116): the bytes of its inputs and those between the rows
of its outputs. -/

namespace Sys2Proof.Machine

/-! ## The bytes written, operand by operand -/

theorem mem_writtenBytes {i : Instr} {a : Nat} :
    a ∈ writtenBytes i ↔
      (∃ o ∈ operandsOf i, o.role = .output ∧ a ∈ elemBytes o.grid o.es) ∨
        ∃ sp ∈ scratchSpans i, sp.lo ≤ a ∧ a < sp.hi := by
  have hrange (sp : Span) : a ∈ List.range' sp.lo (sp.hi - sp.lo) ↔ sp.lo ≤ a ∧ a < sp.hi := by
    rw [List.mem_range'_1]
    omega
  simp only [writtenBytes, List.mem_append, List.mem_flatMap, List.mem_filter, decide_eq_true_eq, hrange, and_assoc]

/-- A scratch region is an output (40_control.md R217). -/
theorem scratchSpans_role {i : Instr} {sp : Span} (h : sp ∈ scratchSpans i) : sp.role = .output := by
  cases i with
  | canny full img out scratch params => rw [List.mem_singleton.1 h]
  | _ => cases h

/-! ## Validated operands are apart (40_control.md R217) -/

theorem spansClash_comm (a b : Span) : spansClash a b = spansClash b a := by
  rw [spansClash, spansClash, Bool.or_comm, Bool.and_assoc, Bool.and_assoc, Bool.and_comm (decide (a.lo < b.hi))]

/-- Two operands of a validated command, one of them an output, share no byte. -/
theorem validate_operands_apart {i : Instr} {memSize : Nat} (h : validate i memSize = none) {o k : Operand}
    (ho : o ∈ operandsOf i) (hk : k ∈ operandsOf i) (hne : o ≠ k) (hout : o.role = .output ∨ k.role = .output) :
    GridsApart o.grid o.es k.grid k.es := by
  obtain ⟨-, -, -, -, -, hpairs⟩ := validate_none.1 h
  have hgrids := List.pairwise_map.1 (List.pairwise_append.1 hpairs).1
  have hsymm : Std.Symm fun o k : Operand => spansClash (operandSpan o) (operandSpan k) = false :=
    ⟨fun _ _ hclash => (spansClash_comm _ _).trans hclash⟩
  have hclash := hgrids.forall ho hk hne
  exact spansClash_false.1 hclash hout

/-- An operand of a validated command shares no byte with its scratch region. -/
theorem validate_scratch_apart {i : Instr} {memSize : Nat} (h : validate i memSize = none) {o : Operand} {sp : Span}
    (ho : o ∈ operandsOf i) (hsp : sp ∈ scratchSpans i) : Apart o.grid.base (gridEnd o.grid o.es) sp.lo sp.hi := by
  obtain ⟨-, -, -, -, -, hpairs⟩ := validate_none.1 h
  have hclash := (List.pairwise_append.1 hpairs).2.2 _ (List.mem_map_of_mem ho) _ hsp
  exact spansClash_false.1 hclash (.inr (scratchSpans_role hsp))

/-! ## What is written of an operand -/

/-- In the span of an operand a validated command writes element bytes of that operand only, and only if it is an
output. -/
theorem written_in_span {i : Instr} {memSize a : Nat} (h : validate i memSize = none) {o : Operand}
    (ho : o ∈ operandsOf i) (hlo : o.grid.base ≤ a) (hhi : a < gridEnd o.grid o.es) (ha : a ∈ writtenBytes i) :
    o.role = .output ∧ a ∈ elemBytes o.grid o.es := by
  rcases mem_writtenBytes.1 ha with ⟨k, hk, hout, hak⟩ | ⟨sp, hsp, hspan⟩
  · by_cases hne : o = k
    · exact hne ▸ ⟨hout, hak⟩
    · have hapart := validate_operands_apart h ho hk hne (.inr hout)
      have hin := elemBytes_in_span hak
      omega
  · have hapart := validate_scratch_apart h ho hsp
    omega

/-- Between two rows of a grid there is no element byte. -/
theorem not_mem_elemBytes_of_padding {g : Grid} {es y a : Nat}
    (hlo : g.base + y * g.stride + g.w * es ≤ a) (hhi : a < g.base + (y + 1) * g.stride) : a ∉ elemBytes g es := by
  intro ha
  obtain ⟨y', x, -, hx, h1, h2⟩ := mem_elemBytes.1 ha
  have hrow := elem_in_row (es := es) hx
  simp only [elemAddr] at h1 h2
  rcases Nat.lt_or_ge y y' with hy | hy
  · have : (y + 1) * g.stride ≤ y' * g.stride := Nat.mul_le_mul_right _ hy
    omega
  · have : y' * g.stride ≤ y * g.stride := Nat.mul_le_mul_right _ hy
    omega

/-- The padding behind a row that is not the last lies in the grid's span. -/
theorem padding_in_span {g : Grid} {es y a : Nat} (hy : y + 1 < g.h)
    (hlo : g.base + y * g.stride + g.w * es ≤ a) (hhi : a < g.base + (y + 1) * g.stride) :
    g.base ≤ a ∧ a < gridEnd g es := by
  have : (y + 1) * g.stride ≤ (g.h - 1) * g.stride := Nat.mul_le_mul_right _ (by omega)
  simp only [gridEnd]
  omega

/-- Whatever a command does, a byte reads as before unless the command is validated and writes it. -/
theorem exec_read_of_unwritten {i : Instr} {s t : State} {a : Nat} (ht : exec i s = .next t)
    (ha : validate i s.straps.memSize = none → a ∉ writtenBytes i) : t.mem.read a = s.mem.read a := by
  rcases exec_cases i s with ⟨-, he⟩ | ⟨m, he, hw⟩
  · cases he.symm.trans ht
    rfl
  · cases he.symm.trans ht
    rcases s.attempt_cases i m with ⟨e, -, hraise⟩ | ⟨hv, hcomplete⟩
    · rw [hraise, State.raise_mem]
    · rw [hcomplete, State.complete_mem]
      exact hw.other a (ha hv)

end Sys2Proof.Machine

namespace Sys2Proof

open Sys2Proof.Machine

/-- Settles O27: of an operand's span only the element bytes of an output are ever written, by a command that
passed validation; any other command writes nothing. -/
theorem inputsAndPaddingKept : Obligations.InputsAndPaddingKept := by
  intro i s t _ ht
  refine ⟨fun o ho hin a hlo hhi => ?_, fun o ho _ y a hy hlo hhi => ?_⟩
  · refine exec_read_of_unwritten ht fun hv ha => ?_
    obtain ⟨hout, -⟩ := written_in_span hv ho hlo hhi ha
    rw [hin] at hout
    cases hout
  · refine exec_read_of_unwritten ht fun hv ha => ?_
    obtain ⟨hbase, hend⟩ := padding_in_span hy hlo hhi
    exact not_mem_elemBytes_of_padding hlo hhi (written_in_span hv ho hbase hend ha).2

end Sys2Proof
end

section
/-! SUPPORT. Encoding and decoding (30_encoding.md R150 to R170): a decoded encoding is the command encoded, and the
words fetched where the bytes of a descriptor stand are those of the descriptor (20_memory.md R104). -/

namespace Sys2Proof

variable {ws : List Word} {k : Nat}

/-! ## Fields of the encoding -/

/-- The two words of a grid hold its four fields (30_encoding.md R153). -/
theorem gridAt_of_words {g : Grid} (hg : g.wellFormed = true) (hbase : wordAt ws k = BitVec.ofNat 64 g.base)
    (hdims : wordAt ws (k + 1) = BitVec.ofNat 64 (g.h + g.w * 2 ^ 16 + g.stride * 2 ^ 32)) : gridAt ws k = g := by
  obtain ⟨base, h, w, stride⟩ := g
  simp only [Grid.wellFormed, Bool.and_eq_true, decide_eq_true_eq] at hg
  obtain ⟨⟨⟨hb, hh⟩, hw⟩, hs⟩ := hg
  have hword : (BitVec.ofNat 64 (h + w * 2 ^ 16 + stride * 2 ^ 32)).toNat = h + w * 2 ^ 16 + stride * 2 ^ 32 :=
    (BitVec.toNat_ofNat _ _).trans (Nat.mod_eq_of_lt (by omega))
  have hbase64 : (BitVec.ofNat 64 base).toNat = base := (BitVec.toNat_ofNat _ _).trans (Nat.mod_eq_of_lt hb)
  dsimp only at hbase hdims
  rw [gridAt, hbase, hdims, BitVec.extractLsb'_toNat, BitVec.extractLsb'_toNat, BitVec.extractLsb'_toNat, hword,
    hbase64, Nat.shiftRight_zero, Nat.shiftRight_eq_div_pow, Nat.shiftRight_eq_div_pow]
  congr 1 <;> omega

/-- The word of an I64 scalar holds it (30_encoding.md R154). -/
theorem i64At_of_word {n : Int} (hn : fitsI64 n = true) (h : wordAt ws k = BitVec.ofInt 64 n) : i64At ws k = n := by
  simp only [fitsI64, Bool.and_eq_true, decide_eq_true_eq] at hn
  rw [i64At, h, BitVec.toInt_ofInt_eq_self (by norm_num) (by omega) (by omega)]

/-- A word that holds an address reads as the address. -/
theorem toNat_of_word {n : Nat} (hn : n < 2 ^ 64) (h : wordAt ws k = BitVec.ofNat 64 n) : (wordAt ws k).toNat = n := by
  rw [h, BitVec.toNat_ofNat, Nat.mod_eq_of_lt hn]

/-! ## The command word (30_encoding.md R151, R152) -/

/-- A command word reads back as its opcode and its two flags. -/
theorem commandWord_fields : ∀ op < 9, ∀ flag8 flag9 : Bool,
    (opcodeOf (commandWord op flag8 flag9)).toNat = op ∧
      (flagsOf (commandWord op flag8 flag9)).getLsbD 0 = flag8 ∧
      (flagsOf (commandWord op flag8 flag9)).getLsbD 1 = flag9 ∧ rsvdOf (commandWord op flag8 flag9) = 0 := by
  decide

/-- A descriptor whose command word sets no flag that its opcode reserves passes step A (40_control.md R211) and
decodes by its opcode and flags. -/
theorem decode_of_commandWord {op : Nat} {flag8 flag9 : Bool} (h : wordAt ws 0 = commandWord op flag8 flag9)
    (hop : op < 9)
    (hflags : flagsOf (commandWord op flag8 flag9) &&& ~~~ fmask (opcodeOf (commandWord op flag8 flag9)) = 0) :
    decode ws = decodeBody ws ∧ (opcodeOf (wordAt ws 0)).toNat = op ∧ (flagsOf (wordAt ws 0)).getLsbD 0 = flag8 ∧
      (flagsOf (wordAt ws 0)).getLsbD 1 = flag9 := by
  obtain ⟨hopcode, hflag8, hflag9, hrsvd⟩ := commandWord_fields op hop flag8 flag9
  refine ⟨?_, h ▸ hopcode, h ▸ hflag8, h ▸ hflag9⟩
  rw [decode, h, if_neg (by omega), if_neg (not_or.2 ⟨not_not.2 hrsvd, not_not.2 hflags⟩)]

/-! ## The round trip -/

/-- No bit of a well-formed command is lost by its encoding. -/
theorem decode_encode {i : Instr} (hi : i.wellFormed = true) : decode (encode i) = .ok i := by
  cases i with simp only [Instr.wellFormed, Bool.and_eq_true, decide_eq_true_eq] at hi
  | endList => rfl
  | conv bnd corr img ker out =>
    obtain ⟨⟨himg, hker⟩, hout⟩ := hi
    obtain ⟨hd, hop, hbnd, hcorr⟩ := decode_of_commandWord (ws := encode (.conv bnd corr img ker out)) rfl
      (by decide) (by cases bnd <;> cases corr <;> rfl)
    simp only [hd, decodeBody, hop, hbnd, hcorr]
    rw [gridAt_of_words (k := 1) himg rfl rfl, gridAt_of_words (k := 3) hker rfl rfl,
      gridAt_of_words (k := 5) hout rfl rfl]
    cases bnd <;> rfl
  | gauss out size sigma =>
    obtain ⟨hout, hsize⟩ := hi
    obtain ⟨hd, hop, -, -⟩ := decode_of_commandWord (ws := encode (.gauss out size sigma)) rfl (by decide) rfl
    simp only [hd, decodeBody, hop]
    rw [gridAt_of_words (k := 1) hout rfl rfl, i64At_of_word (k := 3) hsize rfl]
    rfl
  | grad img mag dir =>
    obtain ⟨⟨himg, hmag⟩, hdir⟩ := hi
    obtain ⟨hd, hop, -, -⟩ := decode_of_commandWord (ws := encode (.grad img mag dir)) rfl (by decide) rfl
    simp only [hd, decodeBody, hop]
    rw [gridAt_of_words (k := 1) himg rfl rfl, gridAt_of_words (k := 3) hmag rfl rfl,
      gridAt_of_words (k := 5) hdir rfl rfl]
  | nms mag dir out =>
    obtain ⟨⟨hmag, hdir⟩, hout⟩ := hi
    obtain ⟨hd, hop, -, -⟩ := decode_of_commandWord (ws := encode (.nms mag dir out)) rfl (by decide) rfl
    simp only [hd, decodeBody, hop]
    rw [gridAt_of_words (k := 1) hmag rfl rfl, gridAt_of_words (k := 3) hdir rfl rfl,
      gridAt_of_words (k := 5) hout rfl rfl]
  | dthr img strong weak high low =>
    obtain ⟨⟨himg, hstrong⟩, hweak⟩ := hi
    obtain ⟨hd, hop, -, -⟩ := decode_of_commandWord (ws := encode (.dthr img strong weak high low)) rfl
      (by decide) rfl
    simp only [hd, decodeBody, hop]
    rw [gridAt_of_words (k := 1) himg rfl rfl, gridAt_of_words (k := 3) hstrong rfl rfl,
      gridAt_of_words (k := 5) hweak rfl rfl]
    rfl
  | link full strong weak out =>
    obtain ⟨⟨hstrong, hweak⟩, hout⟩ := hi
    obtain ⟨hd, hop, hfull, -⟩ := decode_of_commandWord (ws := encode (.link full strong weak out)) rfl (by decide)
      (by cases full <;> rfl)
    simp only [hd, decodeBody, hop, hfull]
    rw [gridAt_of_words (k := 1) hstrong rfl rfl, gridAt_of_words (k := 3) hweak rfl rfl,
      gridAt_of_words (k := 5) hout rfl rfl]
  | hough trunc edges acc rhos thetas =>
    obtain ⟨⟨⟨hedges, hacc⟩, hrhos⟩, hthetas⟩ := hi
    obtain ⟨hd, hop, htrunc, -⟩ := decode_of_commandWord (ws := encode (.hough trunc edges acc rhos thetas)) rfl
      (by decide) (by cases trunc <;> rfl)
    simp only [hd, decodeBody, hop, htrunc]
    rw [gridAt_of_words (k := 1) hedges rfl rfl, gridAt_of_words (k := 3) hacc rfl rfl,
      gridAt_of_words (k := 5) hrhos rfl rfl, gridAt_of_words (k := 7) hthetas rfl rfl]
  | canny full img out scratch params =>
    obtain ⟨⟨⟨himg, hout⟩, hscratch⟩, hparams⟩ := hi
    obtain ⟨hd, hop, hfull, hdef⟩ := decode_of_commandWord (ws := encode (.canny full img out scratch params)) rfl
      (by decide) (by cases full <;> cases params.isDefault <;> rfl)
    simp only [hd, decodeBody, hop, hfull, hdef]
    rw [gridAt_of_words (k := 1) himg rfl rfl, gridAt_of_words (k := 3) hout rfl rfl,
      toNat_of_word (k := 5) hscratch rfl]
    cases params with
    | defaults => rfl
    | given size sigma high low =>
      rw [i64At_of_word (k := 6) hparams rfl]
      rfl

end Sys2Proof

namespace Sys2Proof.Machine

/-! ## Descriptors in memory -/

/-- A number is assembled from its bytes. -/
theorem Memory.readLE_of_bytes {m : Memory} {a : Nat} {bs : List Byte}
    (h : ∀ j, j < bs.length → m.read (a + j) = bs.getD j 0) : m.readLE a bs.length = ofBytes bs := by
  induction bs generalizing a with
  | nil => rfl
  | cons b bs ih =>
    have hfirst : m.read a = b := h 0 (Nat.zero_lt_succ _)
    have hrest : ∀ j, j < bs.length → m.read (a + 1 + j) = bs.getD j 0 := fun j hj => by
      rw [Nat.add_right_comm]
      exact h (j + 1) (Nat.succ_lt_succ hj)
    rw [List.length_cons, Memory.readLE, ofBytes, hfirst, ih hrest]

/-- A word is assembled from its eight bytes (20_memory.md R104). -/
theorem Memory.readLE_of_word {m : Memory} {a : Nat} {w : Word}
    (h : ∀ j, j < 8 → m.read (a + j) = (bytesOf 8 w.toNat).getD j 0) : m.readLE a 8 = w.toNat := by
  have hbytes := Memory.readLE_of_bytes (m := m) (a := a) (bs := bytesOf 8 w.toNat)
  rw [length_bytesOf, ofBytes_bytesOf] at hbytes
  exact (hbytes h).trans (Nat.mod_eq_of_lt w.isLt)

/-- Where memory holds the bytes of a list of words, its words read as listed. -/
theorem words_of_bytes {m : Memory} {p : Nat} {ws : List Word}
    (h : ∀ j, j < 8 * ws.length → m.read (p + j) = (bytesOfWords ws).getD j 0) :
    (List.range ws.length).map (fun k => BitVec.ofNat 64 (m.readLE (p + 8 * k) 8)) = ws := by
  induction ws generalizing p with
  | nil => rfl
  | cons w ws ih =>
    have hlen : (bytesOf 8 w.toNat).length = 8 := length_bytesOf 8 w.toNat
    rw [List.length_cons] at h
    have hword : m.readLE p 8 = w.toNat := Memory.readLE_of_word fun j hj => by
      rw [h j (by omega), bytesOfWords, List.getD_append _ _ _ _ (by omega)]
    have hrest : ∀ j, j < 8 * ws.length → m.read (p + 8 + j) = (bytesOfWords ws).getD j 0 := fun j hj => by
      rw [Nat.add_assoc, h (8 + j) (by omega), bytesOfWords, List.getD_append_right _ _ _ _ (by omega), hlen,
        Nat.add_sub_cancel_left]
    rw [List.length_cons, List.range_succ_eq_map, List.map_cons, List.map_map, Nat.mul_zero, Nat.add_zero, hword,
      BitVec.ofNat_toNat, BitVec.setWidth_eq]
    refine congrArg (w :: ·) ((List.map_congr_left fun k _ => ?_).trans (ih hrest))
    rw [Function.comp_apply, Nat.mul_succ, ← Nat.add_assoc, Nat.add_right_comm]

theorem encode_length (i : Instr) : (encode i).length = 16 := by
  cases i with
  | canny full img out scratch params => cases params <;> rfl
  | _ => rfl

/-- The words fetched where the bytes of an encoding stand are the encoding. -/
theorem fetchWords_of_encode {m : Memory} {p : Nat} {i : Instr}
    (h : ∀ j, j < 128 → m.read (p + j) = (bytesOfWords (encode i)).getD j 0) : fetchWords m p = encode i := by
  have hwords := words_of_bytes (ws := encode i) (m := m) (p := p)
  rw [encode_length] at hwords
  exact hwords h

end Sys2Proof.Machine

namespace Sys2Proof

open Sys2Proof.Machine

/-- Settles O7: the words fetched are those of the encoding, and no bit of the command is lost by it. -/
theorem stepRunsEncodedCommand : Obligations.StepRunsEncodedCommand := by
  intro s i hnext hfetch hwf hbytes
  obtain ⟨hmoves, hbusy⟩ := hnext
  have hfound : fetchCommand s = .ok i := by
    rw [fetchCommand_ok, fetchWords_of_encode hbytes]
    exact ⟨fetchError_none.2 hfetch, decode_encode hwf⟩
  rw [step_engine hmoves, engineStep_ok hbusy hfound]

end Sys2Proof
end

section
/-! SUPPORT. Decoding, characterised once (30_encoding.md R150 to R177): a descriptor decodes to a command exactly when
its first word is the command's command word and its operand words hold the command's operands. -/

namespace Sys2Proof

open Sys2Proof.Machine

variable {ws ws' : List Word} {i : Instr} {g : Grid}

/-! ## Fields of a grid (30_encoding.md R153) -/

/-- The grid in a descriptor has its fields at their places in the words, written as arithmetic. -/
theorem gridAt_eq {k : Nat} (hfields : g.base = (wordAt ws k).toNat ∧ g.h = (wordAt ws (k + 1)).toNat % 2 ^ 16 ∧
    g.w = (wordAt ws (k + 1)).toNat / 2 ^ 16 % 2 ^ 16 ∧ g.stride = (wordAt ws (k + 1)).toNat / 2 ^ 32) :
    gridAt ws k = g := by
  obtain ⟨base, h, w, stride⟩ := g
  obtain ⟨rfl, rfl, rfl, rfl⟩ := hfields
  have hword := (wordAt ws (k + 1)).isLt
  simp only [gridAt, BitVec.extractLsb'_toNat, Nat.shiftRight_eq_div_pow]
  congr 1 <;> omega

/-- A grid of a descriptor has its fields within their widths. -/
theorem gridAt_wellFormed (ws : List Word) (k : Nat) : (gridAt ws k).wellFormed = true := by
  simp only [Grid.wellFormed, Bool.and_eq_true, decide_eq_true_eq]
  exact ⟨⟨⟨BitVec.isLt _, BitVec.isLt _⟩, BitVec.isLt _⟩, BitVec.isLt _⟩

/-- Descriptors that agree up to word `last` hold the same grids there. -/
theorem gridAt_congr {last k : Nat} (hw : ∀ k, k ≤ last → wordAt ws' k = wordAt ws k) (hk : k + 1 ≤ last) :
    gridAt ws' k = gridAt ws k := by
  simp only [gridAt, hw k (by omega), hw (k + 1) hk]

/-- An I64 scalar of a descriptor fits its word (30_encoding.md R154). -/
theorem i64At_fits (ws : List Word) (k : Nat) : fitsI64 (i64At ws k) = true := by
  simp only [fitsI64, Bool.and_eq_true, decide_eq_true_eq]
  exact ⟨BitVec.le_toInt _, BitVec.toInt_lt⟩

/-! ## The command word (30_encoding.md R151, R152) -/

/-- A flag byte without reserved bits is the sum of its two flags, each kept only where the opcode defines it. -/
theorem flags_of_unreserved : ∀ mask ∈ [(0x00 : BitVec 8), 0x01, 0x03], ∀ flags : BitVec 8,
    flags &&& ~~~ mask = 0 → flags.toNat =
      (if flags.getLsbD 0 && mask.getLsbD 0 then 1 else 0) + (if flags.getLsbD 1 && mask.getLsbD 1 then 2 else 0) := by
  decide

/-- The defined flags are none, bit 8 alone, or bits 8 and 9. -/
theorem fmask_mem (op : BitVec 8) : fmask op ∈ [(0x00 : BitVec 8), 0x01, 0x03] := by
  unfold fmask
  split_ifs <;> decide

/-- The three fields of a command word make it up. -/
theorem toNat_of_fields (w : Word) :
    w.toNat = (opcodeOf w).toNat + 0x100 * (flagsOf w).toNat + 0x10000 * (rsvdOf w).toNat := by
  have hw := w.isLt
  simp only [opcodeOf, flagsOf, rsvdOf, BitVec.extractLsb'_toNat, Nat.shiftRight_eq_div_pow]
  omega

/-- A command word with no reserved bit set is that of its opcode and the flags this opcode defines. -/
theorem eq_commandWord {w : Word} {op : Nat} (hop : (opcodeOf w).toNat = op) (hrsvd : rsvdOf w = 0)
    (hflags : flagsOf w &&& ~~~ fmask (opcodeOf w) = 0) :
    w = commandWord op ((flagsOf w).getLsbD 0 && (fmask op).getLsbD 0)
      ((flagsOf w).getLsbD 1 && (fmask op).getLsbD 1) := by
  have hmask : (op : BitVec 8) = opcodeOf w := by
    rw [← hop]
    exact BitVec.eq_of_toNat_eq (by simp)
  have hsum := flags_of_unreserved _ (fmask_mem _) _ hflags
  have hw := toNat_of_fields w
  have hzero : (rsvdOf w).toNat = 0 := congrArg BitVec.toNat hrsvd
  rw [hzero, hsum, hop] at hw
  have hlt := w.isLt
  refine BitVec.eq_of_toNat_eq ?_
  rw [hmask, commandWord, BitVec.toNat_ofNat]
  split_ifs at hw ⊢ <;> omega

/-! ## Operands and decoding (30_encoding.md R170) -/

/-- The words w6 to w9 of a descriptor hold the parameters of CANNY. -/
def ParamsAt (ws : List Word) : CannyParams → Prop
  | .defaults => True
  | .given size sigma high low => i64At ws 6 = size ∧ wordAt ws 7 = sigma ∧ wordAt ws 8 = high ∧ wordAt ws 9 = low

/-- The operand words of a descriptor hold the operands of the command. -/
def OperandsAt (ws : List Word) : Instr → Prop
  | .endList => True
  | .conv _ _ img ker out => gridAt ws 1 = img ∧ gridAt ws 3 = ker ∧ gridAt ws 5 = out
  | .gauss out size sigma => gridAt ws 1 = out ∧ i64At ws 3 = size ∧ wordAt ws 4 = sigma
  | .grad img mag dir => gridAt ws 1 = img ∧ gridAt ws 3 = mag ∧ gridAt ws 5 = dir
  | .nms mag dir out => gridAt ws 1 = mag ∧ gridAt ws 3 = dir ∧ gridAt ws 5 = out
  | .dthr img strong weak high low =>
    gridAt ws 1 = img ∧ gridAt ws 3 = strong ∧ gridAt ws 5 = weak ∧ wordAt ws 7 = high ∧ wordAt ws 8 = low
  | .link _ strong weak out => gridAt ws 1 = strong ∧ gridAt ws 3 = weak ∧ gridAt ws 5 = out
  | .hough _ edges acc rhos thetas =>
    gridAt ws 1 = edges ∧ gridAt ws 3 = acc ∧ gridAt ws 5 = rhos ∧ gridAt ws 7 = thetas
  | .canny _ img out scratch params =>
    gridAt ws 1 = img ∧ gridAt ws 3 = out ∧ (wordAt ws 5).toNat = scratch ∧ ParamsAt ws params

/-- A command whose word and operands a descriptor holds is the one it decodes to. -/
theorem decode_of_operandsAt (hw : wordAt ws 0 = firstWord i) (hops : OperandsAt ws i) : decode ws = .ok i := by
  cases i with
  | endList =>
    obtain ⟨hd, hop, -, -⟩ := decode_of_commandWord hw (by decide) rfl
    simp only [hd, decodeBody, hop]
  | conv bnd corr img ker out =>
    obtain ⟨rfl, rfl, rfl⟩ := hops
    obtain ⟨hd, hop, hbnd, hcorr⟩ := decode_of_commandWord hw (by decide) (by cases bnd <;> cases corr <;> rfl)
    simp only [hd, decodeBody, hop, hbnd, hcorr]
    cases bnd <;> rfl
  | gauss _ _ _ | grad _ _ _ | nms _ _ _ =>
    obtain ⟨rfl, rfl, rfl⟩ := hops
    obtain ⟨hd, hop, -, -⟩ := decode_of_commandWord hw (by decide) rfl
    simp only [hd, decodeBody, hop]
  | dthr img strong weak high low =>
    obtain ⟨rfl, rfl, rfl, rfl, rfl⟩ := hops
    obtain ⟨hd, hop, -, -⟩ := decode_of_commandWord hw (by decide) rfl
    simp only [hd, decodeBody, hop]
  | link full strong weak out =>
    obtain ⟨rfl, rfl, rfl⟩ := hops
    obtain ⟨hd, hop, hfull, -⟩ := decode_of_commandWord hw (by decide) (by cases full <;> rfl)
    simp only [hd, decodeBody, hop, hfull]
  | hough trunc edges acc rhos thetas =>
    obtain ⟨rfl, rfl, rfl, rfl⟩ := hops
    obtain ⟨hd, hop, htrunc, -⟩ := decode_of_commandWord hw (by decide) (by cases trunc <;> rfl)
    simp only [hd, decodeBody, hop, htrunc]
  | canny full img out scratch params =>
    obtain ⟨rfl, rfl, rfl, hparams⟩ := hops
    obtain ⟨hd, hop, hfull, hdef⟩ := decode_of_commandWord hw (by decide)
      (by cases full <;> cases params.isDefault <;> rfl)
    simp only [hd, decodeBody, hop, hfull, hdef]
    cases params with
    | defaults => rfl
    | given size sigma high low =>
      obtain ⟨rfl, rfl, rfl, rfl⟩ := hparams
      rfl

/-- Past step A (40_control.md R211) a descriptor holds the word and the operands of the command it decodes to. -/
theorem operandsAt_of_decode (h : decode ws = .ok i) : wordAt ws 0 = firstWord i ∧ OperandsAt ws i := by
  unfold decode at h
  split_ifs at h with hopcode hreserved
  obtain ⟨hrsvd, hflags⟩ := not_or.1 hreserved
  have hword {op : Nat} (hop : (opcodeOf (wordAt ws 0)).toNat = op) :=
    eq_commandWord hop (not_not.1 hrsvd) (not_not.1 hflags)
  unfold decodeBody at h
  split at h
  case h_1 hop => cases h; exact ⟨(hword hop).trans (by simp [fmask, firstWord]), trivial⟩
  case h_2 hop =>
    cases h
    refine ⟨(hword hop).trans ?_, rfl, rfl, rfl⟩
    cases (flagsOf (wordAt ws 0)).getLsbD 0 <;> simp [fmask, firstWord]
  case h_3 hop | h_4 hop | h_5 hop | h_7 hop =>
    cases h; exact ⟨(hword hop).trans (by simp [fmask, firstWord]), rfl, rfl, rfl⟩
  case h_6 hop => cases h; exact ⟨(hword hop).trans (by simp [fmask, firstWord]), rfl, rfl, rfl, rfl, rfl⟩
  case h_8 hop => cases h; exact ⟨(hword hop).trans (by simp [fmask, firstWord]), rfl, rfl, rfl, rfl⟩
  case h_9 hop =>
    cases h
    refine ⟨(hword hop).trans ?_, rfl, rfl, rfl, ?_⟩
    · cases (flagsOf (wordAt ws 0)).getLsbD 1 <;> simp [fmask, firstWord, CannyParams.isDefault]
    · cases (flagsOf (wordAt ws 0)).getLsbD 1
      · exact ⟨rfl, rfl, rfl, rfl⟩
      · trivial
  case h_10 => cases h

/-- What decoding reads: the command word and the operand words of the command. -/
theorem decode_eq_ok_iff : decode ws = .ok i ↔ wordAt ws 0 = firstWord i ∧ OperandsAt ws i :=
  ⟨operandsAt_of_decode, fun h => decode_of_operandsAt h.1 h.2⟩

/-- A command whose operands a descriptor holds is well-formed (30_encoding.md R153, R154). -/
theorem OperandsAt.wellFormed (h : OperandsAt ws i) : i.wellFormed = true := by
  cases i with
  | endList => rfl
  | gauss out size sigma =>
    obtain ⟨rfl, rfl, -⟩ := h
    simp only [Instr.wellFormed, gridAt_wellFormed, i64At_fits, Bool.and_self]
  | conv _ _ _ _ _ | grad _ _ _ | nms _ _ _ | link _ _ _ _ =>
    obtain ⟨rfl, rfl, rfl⟩ := h
    simp only [Instr.wellFormed, gridAt_wellFormed, Bool.and_self]
  | dthr img strong weak high low =>
    obtain ⟨rfl, rfl, rfl, -, -⟩ := h
    simp only [Instr.wellFormed, gridAt_wellFormed, Bool.and_self]
  | hough trunc edges acc rhos thetas =>
    obtain ⟨rfl, rfl, rfl, rfl⟩ := h
    simp only [Instr.wellFormed, gridAt_wellFormed, Bool.and_self]
  | canny full img out scratch params =>
    obtain ⟨rfl, rfl, rfl, hparams⟩ := h
    have hscratch := (wordAt ws 5).isLt
    simp only [Instr.wellFormed, gridAt_wellFormed, Bool.and_self, Bool.true_and, decide_eq_true hscratch]
    cases params with
    | defaults => rfl
    | given size sigma high low =>
      obtain ⟨rfl, -⟩ := hparams
      exact i64At_fits ws 6

/-- The operands of a command depend on no word past the last its operand table lists (30_encoding.md R155). -/
theorem OperandsAt.congr (h : OperandsAt ws i) (hw : ∀ k, k ≤ lastOperandWord i → wordAt ws' k = wordAt ws k) :
    OperandsAt ws' i := by
  cases i with
  | endList => trivial
  | canny full img out scratch params =>
    cases params with
    | defaults | given _ _ _ _ =>
      simp only [lastOperandWord] at hw
      simpa [OperandsAt, ParamsAt, i64At, gridAt_congr hw, hw] using h
  | _ =>
    simp only [lastOperandWord] at hw
    simpa [OperandsAt, i64At, gridAt_congr hw, hw] using h

end Sys2Proof

namespace Sys2Proof

open Sys2Proof.Machine

/-- Settles O1: no bit of a well-formed command is lost by its encoding. -/
theorem decodeOfEncode : Obligations.DecodeOfEncode := fun _ hwf => decode_encode hwf

/-- Settles O2: the operands a decoded command has are those of the words, each within its place. -/
theorem decodeIsWellFormed : Obligations.DecodeIsWellFormed := fun _ _ h => (decode_eq_ok_iff.1 h).2.wellFormed

/-- Settles O3: each command word listed is the one of its command, and the grids given are those of the words. -/
theorem decodeReadsFields : Obligations.DecodeReadsFields := by
  intro ws g hfields
  have hg (k : Nat) : gridAt ws k = g k := gridAt_eq (hfields k)
  have hgrids : gridAt ws 1 = g 1 ∧ gridAt ws 3 = g 3 ∧ gridAt ws 5 = g 5 := ⟨hg 1, hg 3, hg 5⟩
  refine ⟨?endList, ?conv, ?convEdge, ?corr, ?corrEdge, ?gauss, ?grad, ?nms, ?dthr, ?link, ?linkFull, ?hough,
    ?houghTrunc, ?canny, ?cannyDefaults⟩
  case endList => exact fun hw => decode_of_operandsAt hw trivial
  case gauss => exact fun hw => decode_of_operandsAt hw ⟨hg 1, rfl, rfl⟩
  case dthr => exact fun hw => decode_of_operandsAt hw ⟨hg 1, hg 3, hg 5, rfl, rfl⟩
  case hough | houghTrunc => exact fun hw => decode_of_operandsAt hw ⟨hg 1, hg 3, hg 5, hg 7⟩
  case canny =>
    exact fun full hw => decode_of_operandsAt (hw.trans (by cases full <;> rfl))
      ⟨hg 1, hg 3, rfl, rfl, rfl, rfl, rfl⟩
  case cannyDefaults =>
    exact fun full hw => decode_of_operandsAt (hw.trans (by cases full <;> rfl)) ⟨hg 1, hg 3, rfl, trivial⟩
  all_goals exact fun hw => decode_of_operandsAt hw hgrids

/-- Settles O4: the command word and the operands of the command are the same in both descriptors. -/
theorem decodeIgnoresUnusedWords : Obligations.DecodeIgnoresUnusedWords := by
  intro ws ws' i h hw
  obtain ⟨hfirst, hops⟩ := decode_eq_ok_iff.1 h
  exact decode_eq_ok_iff.2 ⟨(hw 0 (Nat.zero_le _)).trans hfirst, hops.congr hw⟩

/-- Settles O5: a sanity statement, on the words of the spec's example. -/
theorem workedEncoding : Obligations.WorkedEncoding := by
  unfold Obligations.WorkedEncoding
  decide

end Sys2Proof
end

section
/-! SUPPORT. The ENGINE's step (40_control.md R200 to R211, R219): what each check before execution raises, the three
outcomes of a step, and the end of every list. -/

namespace Sys2Proof

variable {ws : List Word} {w : Word}

/-! ## Reserved bits of the command word (30_encoding.md R151, R152) -/

theorem ne_zero_iff_exists_getLsbD {n : Nat} {x : BitVec n} : x ≠ 0 ↔ ∃ j < n, x.getLsbD j = true := by
  simp [BitVec.eq_of_getLsbD_eq_iff]

theorem rsvdOf_getLsbD (w : Word) (j : Nat) : (rsvdOf w).getLsbD j = (decide (j < 48) && w.getLsbD (16 + j)) :=
  BitVec.getLsbD_extractLsb' ..

theorem flagsOf_getLsbD (w : Word) (j : Nat) : (flagsOf w).getLsbD j = (decide (j < 8) && w.getLsbD (8 + j)) :=
  BitVec.getLsbD_extractLsb' ..

theorem opcodeOf_toNat (w : Word) : (opcodeOf w).toNat = w.toNat % 256 :=
  BitVec.extractLsb'_toNat ..

/-- FMASK has the bits of the flags that the opcode defines. -/
theorem fmask_getLsbD (op : BitVec 8) {j : Nat} (hj : j < 8) :
    (fmask op).getLsbD j = true ↔ Machine.FlagDefined op.toNat (8 + j) := by
  unfold fmask
  split_ifs with h1 h6 h7 h8
  case neg =>
    have hundefined : op.toNat ≠ 1 ∧ op.toNat ≠ 6 ∧ op.toNat ≠ 7 ∧ op.toNat ≠ 8 := by bv_omega
    simp [Machine.FlagDefined, hundefined]
  all_goals subst op; interval_cases j <;> decide

/-- The reserved bits are those of RSVD and those of FLAGS outside FMASK (40_control.md R211). -/
theorem reservedBitSet_iff :
    Machine.ReservedBitSet w ↔ rsvdOf w ≠ 0 ∨ flagsOf w &&& ~~~ fmask (opcodeOf w) ≠ 0 := by
  simp only [ne_zero_iff_exists_getLsbD, BitVec.getLsbD_and, BitVec.getLsbD_not, rsvdOf_getLsbD, flagsOf_getLsbD,
    Bool.and_eq_true, decide_eq_true_eq, Bool.not_eq_true', Bool.eq_false_iff, Machine.ReservedBitSet,
    ← opcodeOf_toNat]
  constructor
  · rintro ⟨k, hlow, hhigh, hset, hundefined⟩
    rcases Nat.lt_or_ge k 16 with hflag | hrsvd
    · obtain ⟨j, rfl⟩ := Nat.exists_eq_add_of_le hlow
      have hj : j < 8 := by omega
      exact .inr ⟨j, hj, ⟨hj, hset⟩, hj, (fmask_getLsbD _ hj).not.2 hundefined⟩
    · obtain ⟨j, rfl⟩ := Nat.exists_eq_add_of_le hrsvd
      have hj : j < 48 := by omega
      exact .inl ⟨j, hj, hj, hset⟩
  · rintro (⟨j, hj, -, hset⟩ | ⟨j, hj, ⟨-, hset⟩, -, hmask⟩)
    · exact ⟨16 + j, by omega, by omega, hset, by simp only [Machine.FlagDefined]; omega⟩
    · exact ⟨8 + j, by omega, by omega, hset, (fmask_getLsbD _ hj).not.1 hmask⟩

/-- OPCODE 0x00 with no reserved bit is the all-zero command word, that of END (40_control.md R204). -/
theorem eq_zero_iff_endWord : w = 0 ↔ w.toNat % 256 = 0 ∧ ¬ Machine.ReservedBitSet w := by
  constructor
  · rintro rfl
    exact ⟨rfl, fun ⟨k, _, _, hk, _⟩ => by simp at hk⟩
  · rintro ⟨hop, hreserved⟩
    rw [reservedBitSet_iff, not_or, not_not, not_not] at hreserved
    rw [← opcodeOf_toNat] at hop
    have hword := eq_commandWord hop hreserved.1 hreserved.2
    have hmask : fmask 0#8 = 0#8 := rfl
    simpa [hmask, commandWord] using hword

/-! ## Step A (40_control.md R211) -/

theorem decode_opcode (h : 9 ≤ (wordAt ws 0).toNat % 256) : decode ws = .error .opcode :=
  if_pos ((opcodeOf_toNat _).symm ▸ h)

theorem decode_reserved (hop : (wordAt ws 0).toNat % 256 < 9) (h : Machine.ReservedBitSet (wordAt ws 0)) :
    decode ws = .error .reserved := by
  rw [decode, if_neg (by rw [opcodeOf_toNat]; omega), if_pos (reservedBitSet_iff.1 h)]

theorem decode_endList (h : wordAt ws 0 = 0) : decode ws = .ok .endList := decode_of_operandsAt h trivial

end Sys2Proof

namespace Sys2Proof.Machine

variable {s : State} {i : Instr} {e : BlockError}

/-! ## What the ENGINE finds at CMD_PTR -/

theorem fetchCommand_of_fetchError (h : fetchError s = some e) : fetchCommand s = .error e := by
  simp only [fetchCommand, h]

theorem fetchCommand_of_decode (hf : Fetchable s) (h : decode (fetchWords s.mem s.cmdPtr.toNat) = .ok i) :
    fetchCommand s = .ok i := fetchCommand_ok.2 ⟨fetchError_none.2 hf, h⟩

theorem fetchCommand_of_reject {r : Reject} (hf : Fetchable s)
    (h : decode (fetchWords s.mem s.cmdPtr.toNat) = .error r) : fetchCommand s = .error (rejectError r) := by
  simp only [fetchCommand, fetchError_none.2 hf, h]

theorem fetchError_misaligned (h : s.cmdPtr.toNat % 8 ≠ 0) :
    fetchError s = some { code := .layout, info := 0, addr := s.cmdPtr.toNat } := if_pos h

theorem fetchError_outside (ha : s.cmdPtr.toNat % 8 = 0) (h : s.straps.memSize < s.cmdPtr.toNat + 128) :
    fetchError s = some { code := .range, info := 0, addr := s.cmdPtr.toNat } := by
  rw [fetchError, if_neg (not_not.2 ha), if_pos h]

/-! ## The outcomes of a step -/

theorem step_error (hnext : EngineNext s) (h : fetchCommand s = .error e) : step s = .next (s.raise e) :=
  (step_engine hnext.1).trans (engineStep_error hnext.2 h)

theorem step_ok (hnext : EngineNext s) (h : fetchCommand s = .ok i) : step s = exec i s :=
  (step_engine hnext.1).trans (engineStep_ok hnext.2 h)

/-- An error entry that names CMD_PTR records all of it (40_control.md R201). -/
theorem State.raise_at_cmdPtr (s : State) (c : ErrorCode) :
    s.raise { code := c, info := 0, addr := s.cmdPtr.toNat } =
      { s with errCode := c.number, errInfo := 0, errAddr := s.cmdPtr, err := true, busy := false, ran := [] } := by
  simp [State.raise]

/-- A command that fails the validation raises the error found and does nothing else (40_control.md R210). -/
theorem exec_of_error (hi : i ≠ .endList) (h : validate i s.straps.memSize = some e) :
    exec i s = .next (s.raise e) := by
  rcases exec_cases i s with ⟨hend, -⟩ | ⟨m, he, -⟩
  · exact absurd hend hi
  · rw [he, State.attempt_of_error h]

/-- A command that passes the validation completes (40_control.md R218). -/
theorem exec_of_none (hi : i ≠ .endList) (h : validate i s.straps.memSize = none) :
    ∃ m, exec i s = .next (s.complete i m) ∧ Completes i s (s.complete i m) := by
  rcases exec_cases i s with ⟨hend, -⟩ | ⟨m, he, hw⟩
  · exact absurd hend hi
  · exact ⟨m, by rw [he, State.attempt_of_none h], rfl, hw.other⟩

/-! ## Termination (40_control.md R205) -/

theorem run_succ_of_step {t : State} (h : step s = .next t) (k : Nat) :
    Host.Core.run core (k + 1) s = Host.Core.run core k t := by
  have hstep : core.step s = .next t := h
  simp only [Host.Core.run, hstep]

/-- At most `n` steps lead to an idle state that flags the end of the list. -/
def EndsWithin (n : Nat) (s : State) : Prop :=
  ∃ k t, k ≤ n ∧ Host.Core.run core k s = .next t ∧ t.busy = false ∧ (t.done = true ∨ t.err = true)

theorem EndsWithin.of_last_step {t : State} (h : step s = .next t) (hb : t.busy = false)
    (hflag : t.done = true ∨ t.err = true) (n : Nat) : EndsWithin (n + 1) s :=
  ⟨1, t, Nat.le_add_left 1 n, run_succ_of_step h 0, hb, hflag⟩

theorem EndsWithin.of_step {t : State} {n : Nat} (h : step s = .next t) (ht : EndsWithin n t) :
    EndsWithin (n + 1) s := by
  obtain ⟨k, u, hk, hrun, hend⟩ := ht
  exact ⟨k + 1, u, Nat.succ_le_succ hk, (run_succ_of_step h k).trans hrun, hend⟩

/-- Each completion moves CMD_PTR one slot further, and from a slot that does not fit no command is fetched. -/
theorem endsWithin_slots {n : Nat} (hnext : EngineNext s) (hsize : s.straps.memSize ≤ 2 ^ 63)
    (hn : (s.straps.memSize - s.cmdPtr.toNat) / 128 ≤ n) : EndsWithin (n + 1) s := by
  induction n using Nat.strong_induction_on generalizing s with
  | _ n ih =>
  obtain ⟨hmoves, hbusy⟩ := hnext
  have hstep := step_engine hmoves
  rcases engineStep_cases s with ⟨hidle, -⟩ | ⟨-, ⟨e, he⟩ | ⟨-, he⟩ | ⟨i, m, -, hf, -, he, -⟩⟩
  · exact absurd (hbusy.symm.trans hidle) (by decide)
  · exact .of_last_step (hstep.trans he) rfl (.inr rfl) n
  · exact .of_last_step (hstep.trans he) rfl (.inl rfl) n
  · obtain ⟨-, hroom⟩ := fetchError_none.1 (fetchCommand_ok.1 hf).1
    have hptr : (s.complete i m).cmdPtr.toNat = s.cmdPtr.toNat + 128 := State.passOver_cmdPtr_toNat hsize hroom
    obtain ⟨n, rfl⟩ : ∃ k, n = k + 1 := ⟨n - 1, by omega⟩
    refine .of_step (hstep.trans he) (ih n n.lt_succ_self ⟨hmoves, hbusy⟩ hsize ?_)
    rw [hptr, State.complete_straps]
    omega

end Sys2Proof.Machine

namespace Sys2Proof

open Sys2Proof.Machine

/-- Settles O6: the descriptor that decodes is the command the ENGINE finds. -/
theorem stepRunsDecodedCommand : Obligations.StepRunsDecodedCommand :=
  fun _ _ hnext hf hd => step_ok hnext (fetchCommand_of_decode hf hd)

/-- Settles O8: the failing fetch check is what the ENGINE finds in place of a command. -/
theorem fetchChecks : Obligations.FetchChecks := by
  refine fun s hnext => ⟨fun hmis => ?_, fun ha hout => ?_⟩
  · rw [step_error hnext (fetchCommand_of_fetchError (fetchError_misaligned hmis)), State.raise_at_cmdPtr]
    rfl
  · rw [step_error hnext (fetchCommand_of_fetchError (fetchError_outside ha hout)), State.raise_at_cmdPtr]
    rfl

/-- Settles O9: decoding makes the two checks in this order, and what is left of OPCODE 0x00 is the word 0. -/
theorem decodeChecks : Obligations.DecodeChecks := by
  refine fun s hnext hf => ⟨fun hop => ?_, fun hop hres => ?_, fun hop hres => ?_⟩
  · exact step_error hnext (fetchCommand_of_reject hf (decode_opcode hop))
  · exact step_error hnext (fetchCommand_of_reject hf (decode_reserved hop hres))
  · exact step_ok hnext (fetchCommand_of_decode hf (decode_endList (eq_zero_iff_endWord.2 ⟨hop, hres⟩)))

/-- Settles O11: of OPCODE 0x00 any command word but 0 has a reserved bit set. -/
theorem endEndsTheList : Obligations.EndEndsTheList := by
  refine ⟨fun s => rfl, fun s hnext hf => ⟨fun hw => ?_, fun hop hw => ?_⟩⟩
  · exact step_ok hnext (fetchCommand_of_decode hf (decode_endList hw))
  · have hres : ReservedBitSet (wordAt (fetchWords s.mem s.cmdPtr.toNat) 0) := by
      by_contra hres
      exact hw (eq_zero_iff_endWord.2 ⟨hop, hres⟩)
    exact step_error hnext (fetchCommand_of_reject hf (decode_reserved (by omega) hres))

/-- Settles O12, by what the ENGINE finds at CMD_PTR: an error, END, or a command that its validation lets pass or
not. -/
theorem engineOutcomes : Obligations.EngineOutcomes := by
  refine fun s hmoves => ⟨fun hidle => (step_engine hmoves).trans (engineStep_idle hidle), fun hb hd he => ?_⟩
  have hnext : EngineNext s := ⟨hmoves, hb⟩
  have hraise (e : BlockError) : (s.raise e).busy = false ∧ (s.raise e).done = false ∧ (s.raise e).err = true ∧
      (s.raise e).errCode ≠ 0 := ⟨rfl, hd, rfl, e.code.number_range.1⟩
  cases hf : fetchCommand s with
  | error e =>
    obtain ⟨h1, h2, h3, h4⟩ := hraise e
    exact ⟨_, step_error hnext hf, .inr (.inr ⟨h1, h2, h3, h4, rfl, rfl, rfl, e, rfl, .inl rfl⟩)⟩
  | ok i =>
    by_cases hi : i = .endList
    · subst hi
      exact ⟨s.finish, step_ok hnext hf, .inr (.inl ⟨rfl, rfl, he, rfl, rfl⟩)⟩
    · cases hv : validate i s.straps.memSize with
      | some e =>
        obtain ⟨h1, h2, h3, h4⟩ := hraise e
        exact ⟨_, (step_ok hnext hf).trans (exec_of_error hi hv),
          .inr (.inr ⟨h1, h2, h3, h4, rfl, rfl, rfl, e, rfl, .inr ⟨i, hi, rfl, hv⟩⟩)⟩
      | none =>
        obtain ⟨m, hexec, hcompletes⟩ := exec_of_none hi hv
        exact ⟨_, (step_ok hnext hf).trans hexec, .inl ⟨hb, hd, he, i, hi, rfl, hv, hcompletes⟩⟩

/-- Settles O13: the slots left in memory bound the steps. -/
theorem everyListEnds : Obligations.EveryListEnds := fun _ hnext hsize => endsWithin_slots hnext hsize le_rfl

end Sys2Proof
end

section
/-! SUPPORT. The order of the validation (40_control.md R210): the condition under which each step passes, the error of
the first operand at which it fails, and what passing every step says of a command. -/

namespace Sys2Proof.Machine

variable {i : Instr} {o : Operand} {sp : Span} {memSize : Nat} {e : BlockError}

/-! ## The checks of one operand, by their conditions -/

theorem isKernel_iff {k : Nat} :
    isKernel i k = true ↔ (∃ bnd corr img ker out, i = .conv bnd corr img ker out) ∧ k = 3 := by
  constructor
  · intro h
    unfold isKernel at h
    split at h
    · exact ⟨⟨_, _, _, _, _, rfl⟩, rfl⟩
    · cases h
  · rintro ⟨⟨bnd, corr, img, ker, out, rfl⟩, rfl⟩
    rfl

theorem checkDim_none_iff : checkDim i o = none ↔ DimensionsHold o.grid i o.word := by
  rw [checkDim_none]
  unfold DimensionsHold isKernel
  split <;> simp_all

/-- Step C accepts no grid without a row or a column: 0 counts as even (40_control.md R213). -/
theorem DimensionsHold.pos (h : DimensionsHold o.grid i o.word) : 1 ≤ o.grid.h ∧ 1 ≤ o.grid.w := by
  unfold DimensionsHold at h
  split at h
  · omega
  · exact h

/-- The table of step D holds no negative number, so its rows can be read as numbers of rows and columns. -/
theorem checkShape_none_iff : checkShape i o = none ↔ ShapeHolds o.grid i o.word := by
  rw [checkShape_none]
  unfold ShapeHolds
  split
  case h_11 hword | h_12 hword | h_13 hword =>
    simp only [hword, expectedShape, Option.some.injEq, forall_eq', Prod.mk.injEq]
    omega
  all_goals simp_all [expectedShape]

theorem checkScratchLayout_none_iff : checkScratchLayout i = none ↔ ScratchAligned i := by
  cases i with
  | canny full img out scratch params => simp [checkScratchLayout]
  | _ => exact iff_of_true rfl trivial

theorem not_spansMeet {a b : Span} : ¬ SpansMeet a b ↔ spansClash a b = false := by
  rw [← spansClash_true, Bool.not_eq_true]

/-! ## The error of one operand -/

theorem checkShape_error (h : ¬ ShapeHolds o.grid i o.word) : checkShape i o = some ⟨.shapeMismatch, o.word, 0⟩ := by
  have hfails := checkShape_none_iff.not.2 h
  simp only [checkShape] at hfails ⊢
  split at hfails
  · exact absurd rfl hfails
  · split_ifs at hfails ⊢
    · exact absurd rfl hfails
    · rfl

theorem checkOperandLayout_error (h : ¬ LayoutHolds o.grid o.es) :
    checkOperandLayout o = some ⟨.layout, o.word, o.grid.base⟩ :=
  if_pos (by simp only [LayoutHolds] at h; omega)

/-! ## The steps: when each passes -/

theorem checkDims_none : checkDims i = none ↔ ∀ o ∈ operandsOf i, DimensionsHold o.grid i o.word := by
  simp only [checkDims, List.findSome?_eq_none_iff, checkDim_none_iff]

theorem checkShapes_none : checkShapes i = none ↔ ∀ o ∈ operandsOf i, ShapeHolds o.grid i o.word := by
  simp only [checkShapes, List.findSome?_eq_none_iff, checkShape_none_iff]

theorem checkLayout_none :
    checkLayout i = none ↔ (∀ o ∈ operandsOf i, LayoutHolds o.grid o.es) ∧ ScratchAligned i := by
  simp only [checkLayout, Option.or_eq_none_iff, List.findSome?_eq_none_iff, checkOperandLayout_none,
    checkScratchLayout_none_iff]

theorem checkRange_none : checkRange memSize i = none ↔ ∀ sp ∈ spansOf i, sp.hi ≤ memSize := by
  simp only [checkRange, List.findSome?_eq_none_iff, checkSpanRange_none]

/-! ## The steps: the first operand that fails -/

/-- The first answer of a search is that of the first element that has one. -/
theorem findSome?_first {α β : Type} {f : α → Option β} {l before after : List α} {a : α} {b : β}
    (hl : l = before ++ a :: after) (hbefore : ∀ x ∈ before, f x = none) (ha : f a = some b) :
    l.findSome? f = some b := List.findSome?_eq_some_iff.2 ⟨before, a, after, hl, ha, hbefore⟩

section
variable {before after : List Operand} (hops : operandsOf i = before ++ o :: after)
include hops

theorem checkDims_first (hbefore : ∀ b ∈ before, DimensionsHold b.grid i b.word) (ho : checkDim i o = some e) :
    checkDims i = some e := findSome?_first hops (fun b hb => checkDim_none_iff.2 (hbefore b hb)) ho

theorem checkShapes_first (hbefore : ∀ b ∈ before, ShapeHolds b.grid i b.word)
    (ho : ¬ ShapeHolds o.grid i o.word) : checkShapes i = some ⟨.shapeMismatch, o.word, 0⟩ :=
  findSome?_first hops (fun b hb => checkShape_none_iff.2 (hbefore b hb)) (checkShape_error ho)

theorem checkLayout_first (hbefore : ∀ b ∈ before, LayoutHolds b.grid b.es) (ho : ¬ LayoutHolds o.grid o.es) :
    checkLayout i = some ⟨.layout, o.word, o.grid.base⟩ := by
  rw [checkLayout, findSome?_first hops (fun b hb => checkOperandLayout_none.2 (hbefore b hb))
    (checkOperandLayout_error ho), Option.some_or]

end

theorem checkLayout_scratch {full : Bool} {img out : Grid} {scratch : Nat} {params : CannyParams}
    (hlayout : ∀ o ∈ operandsOf (.canny full img out scratch params), LayoutHolds o.grid o.es) (h : scratch % 8 ≠ 0) :
    checkLayout (.canny full img out scratch params) = some ⟨.layout, 5, scratch⟩ := by
  rw [checkLayout, List.findSome?_eq_none_iff.2 fun o ho => checkOperandLayout_none.2 (hlayout o ho), Option.none_or]
  exact if_pos h

theorem checkRange_first {before after : List Span} (hspans : spansOf i = before ++ sp :: after)
    (hbefore : ∀ b ∈ before, b.hi ≤ memSize) (hsp : memSize < sp.hi) :
    checkRange memSize i = some ⟨.range, sp.word, sp.lo⟩ :=
  findSome?_first hspans (fun b hb => checkSpanRange_none.2 (hbefore b hb)) (if_pos hsp)

theorem checkOverlap_first {before after : List Span} (hspans : spansOf i = before ++ sp :: after)
    (hbefore : before.Pairwise fun a b => ¬ SpansMeet a b) (hsp : ∃ b ∈ before, SpansMeet b sp) :
    checkOverlap i = some ⟨.overlap, sp.word, sp.lo⟩ := by
  rw [checkOverlap, hspans]
  exact checkOverlapFrom_first (by simp) (hbefore.imp not_spansMeet.1)
    (by simpa only [List.nil_append, spansClash_true] using hsp)

/-! ## The whole validation: a step decides once those before it pass (40_control.md R210) -/

section
variable (hscalars : checkScalars i = none) (hdims : checkDims i = none) (hshapes : checkShapes i = none)
  (hlayout : checkLayout i = none) (hrange : checkRange memSize i = none)

theorem validate_of_scalars (h : checkScalars i = some e) : validate i memSize = some e := by
  rw [validate, h, Option.some_or]

include hscalars

theorem validate_of_dims (h : checkDims i = some e) : validate i memSize = some e := by
  rw [validate, hscalars, h, Option.none_or, Option.some_or]

include hdims

theorem validate_of_shapes (h : checkShapes i = some e) : validate i memSize = some e := by
  rw [validate, hscalars, hdims, h, Option.none_or, Option.none_or, Option.some_or]

include hshapes

theorem validate_of_layout (h : checkLayout i = some e) : validate i memSize = some e := by
  simp only [validate, hscalars, hdims, hshapes, h, Option.none_or, Option.some_or]

include hlayout

theorem validate_of_range (h : checkRange memSize i = some e) : validate i memSize = some e := by
  simp only [validate, hscalars, hdims, hshapes, hlayout, h, Option.none_or, Option.some_or]

include hrange

theorem validate_of_overlap (h : checkOverlap i = some e) : validate i memSize = some e := by
  simp only [validate, hscalars, hdims, hshapes, hlayout, hrange, h, Option.none_or]

end

/-! ## Scalars (40_control.md R212) -/

section
variable {sizeWord sigmaWord highWord lowWord : Nat} {size : Int} {sigma high low : F64}

theorem sizeOk_iff : sizeOk size = true ↔ 1 ≤ size ∧ size ≤ 65535 ∧ size % 2 = 1 := by
  simp only [sizeOk, Bool.and_eq_true, decide_eq_true_eq, and_assoc]

theorem checkGauss_size (h : ¬ (1 ≤ size ∧ size ≤ 65535 ∧ size % 2 = 1)) :
    checkGauss sizeWord sigmaWord size sigma = some ⟨.invalidParameter, sizeWord, 0⟩ :=
  if_pos (by rw [eq_false_of_ne_true (sizeOk_iff.not.2 h)]; rfl)

theorem checkGauss_sigma (hsize : 1 ≤ size ∧ size ≤ 65535 ∧ size % 2 = 1) (h : fgt sigma posZero = false) :
    checkGauss sizeWord sigmaWord size sigma = some ⟨.invalidParameter, sigmaWord, 0⟩ := by
  simp only [checkGauss, sizeOk_iff.2 hsize, h]
  rfl

theorem checkGauss_ok (h : GaussScalars size sigma) : checkGauss sizeWord sigmaWord size sigma = none := by
  obtain ⟨hlow, hhigh, hodd, hsigma⟩ := h
  exact checkGauss_none.2 ⟨⟨hlow, hhigh, hodd⟩, hsigma⟩

theorem checkThresholds_high (h : fgt high low = false) :
    checkThresholds highWord lowWord high low = some ⟨.invalidParameter, highWord, 0⟩ := by
  simp only [checkThresholds, h]
  rfl

theorem checkThresholds_low (hhigh : fgt high low = true) (h : flt low posZero = true) :
    checkThresholds highWord lowWord high low = some ⟨.invalidParameter, lowWord, 0⟩ := by
  simp only [checkThresholds, hhigh, h]
  rfl

/-- CANNY checks its thresholds once its SIZE and SIGMA pass. -/
theorem checkScalars_canny_thresholds {full : Bool} {img out : Grid} {scratch : Nat} (hg : GaussScalars size sigma) :
    checkScalars (.canny full img out scratch (.given size sigma high low)) = checkThresholds 8 9 high low := by
  rw [checkScalars, checkGauss_ok hg, Option.none_or]

theorem checkScalars_canny_gauss {full : Bool} {img out : Grid} {scratch : Nat}
    (h : checkGauss 6 7 size sigma = some e) :
    checkScalars (.canny full img out scratch (.given size sigma high low)) = some e := by
  rw [checkScalars, h, Option.some_or]

end

/-! ## The conditions of a command, gathered by operand -/

/-- The grid of an operand passes steps C, E and F. -/
def OperandPlaced (memSize : Nat) (i : Instr) (o : Operand) : Prop :=
  (isKernel i o.word = true → o.grid.h % 2 = 1 ∧ o.grid.w % 2 = 1) ∧ GridPlaced o.grid o.es memSize

theorem operandPlaced_iff : OperandPlaced memSize i o ↔
    DimensionsHold o.grid i o.word ∧ LayoutHolds o.grid o.es ∧ (operandSpan o).hi ≤ memSize := by
  rw [← checkDim_none_iff, checkDim_none]
  simp only [OperandPlaced, operandSpan, gridEnd, GridPlaced, LayoutHolds]
  split_ifs with h
  · simp only [h, true_implies]; omega
  · simp only [h]; tauto

/-- Step G by operand: each two grids, one of them an output, share no byte, and no grid meets a scratch region, of
which a command has one at most. -/
theorem spans_apart_iff : ((spansOf i).Pairwise fun a b => spansClash a b = false) ↔
    ((operandsOf i).Pairwise fun o k => o.role = .output ∨ k.role = .output → GridsApart o.grid o.es k.grid k.es) ∧
      ∀ o ∈ operandsOf i, ∀ sp ∈ scratchSpans i, Apart o.grid.base (gridEnd o.grid o.es) sp.lo sp.hi := by
  have hsingle : (scratchSpans i).Pairwise fun a b => spansClash a b = false := by
    cases i with
    | canny full img out scratch params => exact List.pairwise_singleton _ _
    | _ => exact List.Pairwise.nil
  have hgrid (o : Operand) : (∀ sp ∈ scratchSpans i, spansClash (operandSpan o) sp = false) ↔
      ∀ sp ∈ scratchSpans i, Apart o.grid.base (gridEnd o.grid o.es) sp.lo sp.hi :=
    forall₂_congr fun sp hsp => spansClash_false.trans (forall_prop_of_true (.inr (scratchSpans_role hsp)))
  rw [spansOf, List.pairwise_append, List.pairwise_map, List.forall_mem_map]
  simp only [spansClash_false (a := operandSpan _) (b := operandSpan _), hsingle, hgrid, true_and]
  rfl

/-- Validation by what it asks: of the scalars, of the shapes, of each grid, of a scratch region, and of each two
operands. -/
theorem validate_none_iff : validate i memSize = none ↔
    checkScalars i = none ∧ (∀ o ∈ operandsOf i, ShapeHolds o.grid i o.word) ∧
      (∀ o ∈ operandsOf i, OperandPlaced memSize i o) ∧
      (ScratchAligned i ∧ ∀ sp ∈ scratchSpans i, sp.hi ≤ memSize) ∧
      ((operandsOf i).Pairwise fun o k => o.role = .output ∨ k.role = .output → GridsApart o.grid o.es k.grid k.es) ∧
      ∀ o ∈ operandsOf i, ∀ sp ∈ scratchSpans i, Apart o.grid.base (gridEnd o.grid o.es) sp.lo sp.hi := by
  have hspans : (∀ sp ∈ spansOf i, sp.hi ≤ memSize) ↔
      (∀ o ∈ operandsOf i, (operandSpan o).hi ≤ memSize) ∧ ∀ sp ∈ scratchSpans i, sp.hi ≤ memSize := by
    rw [spansOf, List.forall_mem_append, List.forall_mem_map]
  simp only [validate_none, hspans, spans_apart_iff, operandPlaced_iff, forall₂_and, checkDim_none_iff,
    checkShape_none_iff, checkOperandLayout_none, checkScratchLayout_none_iff]
  tauto

theorem checkScalars_canny_none {full : Bool} {img out : Grid} {scratch : Nat} {params : CannyParams} :
    checkScalars (.canny full img out scratch params) = none ↔ CannyScalars params := by
  cases params with
  | defaults => exact iff_of_true rfl trivial
  | given size sigma high low =>
    simp only [checkScalars, Option.or_eq_none_iff, checkGauss_none, checkThresholds_none, CannyScalars,
      GaussScalars, and_assoc]

/-- The conditions gathered so, read off operand by operand, are those of `Ready`. -/
theorem validate_none_iff_ready : validate i memSize = none ↔ Ready memSize i := by
  rw [validate_none_iff]
  cases i with
  | endList => simp [checkScalars, operandsOf, scratchSpans]
  | conv bnd corr img ker out =>
    simp only [checkScalars, operandsOf, scratchSpans, OperandPlaced, isKernel, ShapeHolds, List.mem_cons,
      List.not_mem_nil, or_false, forall_eq_or_imp, forall_eq, true_and, Bool.false_eq_true, IsEmpty.forall_iff,
      forall_const, implies_true, and_self, List.pairwise_cons, reduceCtorEq, false_or, true_or, List.Pairwise.nil,
      and_true]
    tauto
  | gauss out size sigma =>
    simp [checkScalars, checkGauss_none, operandsOf, scratchSpans, OperandPlaced, isKernel, ShapeHolds, and_assoc]
  | dthr img strong weak high low =>
    simp [checkScalars, checkThresholds_none, operandsOf, scratchSpans, OperandPlaced, isKernel, ShapeHolds, Ready,
      and_assoc]
  | canny full img out scratch params =>
    rw [checkScalars_canny_none]
    simp [operandsOf, scratchSpans, OperandPlaced, isKernel, ShapeHolds, Ready, and_assoc]
  | _ =>
    simp [checkScalars, operandsOf, scratchSpans, OperandPlaced, isKernel, ShapeHolds, Ready, and_assoc]

end Sys2Proof.Machine

namespace Sys2Proof

open Sys2Proof.Machine

/-- Settles O14: what validation asks of the operands of each command is what `Ready` writes out. -/
theorem validationPassesExactlyWhenReady : Obligations.ValidationPassesExactlyWhenReady :=
  fun _ _ => validate_none_iff_ready

/-- Settles O15: step B comes first, and its checks are those of the table in its order. -/
theorem scalarChecks : Obligations.ScalarChecks := by
  intro memSize full g k l size sigma high low scratch
  refine ⟨fun hsize => ⟨?_, ?_⟩, fun hsize hsigma => ⟨?_, ?_⟩, fun hhigh => ⟨?_, fun hg => ?_⟩,
    fun hhigh hlow => ⟨?_, fun hg => ?_⟩, rfl⟩
  · exact validate_of_scalars (checkGauss_size hsize)
  · exact validate_of_scalars (checkScalars_canny_gauss (checkGauss_size hsize))
  · exact validate_of_scalars (checkGauss_sigma hsize hsigma)
  · exact validate_of_scalars (checkScalars_canny_gauss (checkGauss_sigma hsize hsigma))
  · exact validate_of_scalars (checkThresholds_high hhigh)
  · exact validate_of_scalars ((checkScalars_canny_thresholds hg).trans (checkThresholds_high hhigh))
  · exact validate_of_scalars (checkThresholds_low hhigh hlow)
  · exact validate_of_scalars ((checkScalars_canny_thresholds hg).trans (checkThresholds_low hhigh hlow))

/-- Settles O16: the operands before pass step C, and the check of this one is that of a kernel or of any other grid. -/
theorem dimensionChecks : Obligations.DimensionChecks := by
  intro memSize i before after o kernel hkernel hscalars hops hbefore
  have hkernel' (b : Operand) : kernel b ↔ isKernel i b.word = true := (hkernel b).trans isKernel_iff.symm
  have hpass : ∀ b ∈ before, DimensionsHold b.grid i b.word := fun b hb => by
    obtain ⟨hodd, hpos⟩ := hbefore b hb
    rw [← checkDim_none_iff, checkDim_none]
    split_ifs with h
    · exact hodd ((hkernel' b).2 h)
    · exact hpos ((hkernel' b).not.2 h)
  have hfirst {e : BlockError} (he : checkDim i o = some e) : validate i memSize = some e :=
    validate_of_dims hscalars (checkDims_first hops hpass he)
  refine ⟨fun hk heven => hfirst ?_, fun hk hzero => hfirst ?_⟩
  · rw [checkDim, if_pos ((hkernel' o).1 hk), if_pos heven, ((hkernel o).1 hk).2]
  · rw [checkDim, if_neg ((hkernel' o).not.1 hk), if_pos hzero, badParameter]

/-- Settles O60, step by step, each reached once the conditions of those before it hold. -/
theorem laterChecksInOrder : Obligations.LaterChecksInOrder := by
  intro memSize i hscalars hdims
  replace hscalars := checkScalars_none.2 hscalars
  replace hdims := checkDims_none.2 hdims
  refine ⟨fun before o after hops hbefore ho => ?shape, fun hshapes => ?_⟩
  case shape => exact validate_of_shapes hscalars hdims (checkShapes_first hops hbefore ho)
  replace hshapes := checkShapes_none.2 hshapes
  refine ⟨fun before o after hops hbefore ho => ?layout, fun hgrids => ⟨?scratch, fun haligned => ?_⟩⟩
  case layout => exact validate_of_layout hscalars hdims hshapes (checkLayout_first hops hbefore ho)
  case scratch =>
    rintro full img out scratch params rfl hmis
    exact validate_of_layout hscalars hdims hshapes (checkLayout_scratch hgrids hmis)
  have hlayout := checkLayout_none.2 ⟨hgrids, haligned⟩
  refine ⟨fun before sp after hspans hbefore hsp => ?range, fun hrange before sp after hspans hbefore hsp => ?overlap⟩
  case range => exact validate_of_range hscalars hdims hshapes hlayout (checkRange_first hspans hbefore hsp)
  case overlap =>
    exact validate_of_overlap hscalars hdims hshapes hlayout (checkRange_none.2 hrange)
      (checkOverlap_first hspans hbefore hsp)

end Sys2Proof
end

section
/-! SUPPORT. CONV (41_convolution.md R230 to R238): what a ready CONV leaves in OUT, the samples and the order of the
sum, and the sum of a kernel that is 1 at its centre and zero elsewhere. -/

namespace Sys2Proof.Machine

/-! ## A ready CONV completes -/

theorem mem_writtenBytes_conv {bnd : Boundary} {corr : Bool} {img ker out : Grid} {a : Nat} :
    a ∈ writtenBytes (.conv bnd corr img ker out) ↔ a ∈ elemBytes out 8 := by
  simp [mem_writtenBytes, operandsOf, scratchSpans]

/-- A ready CONV completes, and every element of OUT holds its value (40_control.md R218, 41_convolution.md R230). -/
theorem exec_conv {s : State} {bnd : Boundary} {corr : Bool} {img ker out : Grid} (hwf : s.mem.wf)
    (hready : Ready s.straps.memSize (.conv bnd corr img ker out)) :
    ∃ t, exec (.conv bnd corr img ker out) s = .next t ∧ Completes (.conv bnd corr img ker out) s t ∧
      ∀ y x, y < out.h → x < out.w →
        rdF t.mem out y x = convElem bnd corr (rdF s.mem ker) ker.h ker.w (rdF s.mem img) img.h img.w y x := by
  have hvalid := validate_none_iff_ready.2 hready
  obtain ⟨-, -, -, -, -, ⟨-, -, -, -, hrow, -⟩, -⟩ := hready
  refine ⟨s.complete (.conv bnd corr img ker out) (s.mem.writeCells (convCells bnd corr img ker out s.mem)), ?_,
    ⟨rfl, fun a ha => ?_⟩, fun y x hy hx => rdF_cellsF hwf _ hrow hy hx⟩
  · rw [← State.attempt_of_none hvalid]
    rfl
  · refine Memory.read_writeCells_of_notMem _ ?_
    rwa [convCells_keys, ← mem_writtenBytes_conv]

/-! ## Sums and products with zeros and with 1 -/

theorem eq_posZero {v : F64} (hz : isZero v = true) (hne : v ≠ negZero) : v = posZero := by
  have hsign : fsign v = false := by simpa [hz] using mt eq_negZero_iff.2 hne
  exact eq_of_fields (hsign.trans (by decide)) ((of_decide_eq_true hz).trans (by decide))

/-- Adding a zero to a finite value other than -0 changes nothing (00_scope.md R26). -/
theorem fadd_zero_right {a z : F64} (ha : isFinite a = true) (hne : a ≠ negZero) (hz : isZero z = true) :
    fadd a z = a := by
  have hzfin := isFinite_of_zero hz
  by_cases h0 : isZero a = true
  · rw [eq_posZero h0 hne, fadd_posZero hzfin, if_pos hz]
  · have hfixed : fixed a ≠ 0 := mt fixed_eq_zero.1 h0
    have hposZero : fixed posZero = 0 := fixed_eq_zero.2 (by decide)
    calc fadd a z = roundRat (decide (fixed a < 0)) (fixed a).natAbs 1 := by
          rw [fadd_finite ha hzfin, fixed_eq_zero.2 hz, add_zero, if_neg hfixed]
      _ = fadd posZero a := by rw [fadd_finite (by decide) ha, hposZero, zero_add, if_neg hfixed]
      _ = a := by rw [fadd_posZero ha, if_neg h0]

/-- Adding a finite value to +0.0 leaves a finite value, and no -0. -/
theorem fadd_posZero_class {v : F64} (h : isFinite v = true) :
    isFinite (fadd posZero v) = true ∧ fadd posZero v ≠ negZero := by
  rw [fadd_posZero h]
  split_ifs with hz
  · decide
  · exact ⟨h, fun he => hz (eq_negZero_iff.1 he).1⟩

/-- Zeros added one after another to a finite value other than -0 change nothing. -/
theorem foldl_fadd_zeros {α : Type} {a : F64} (ha : isFinite a = true) (hne : a ≠ negZero) (f : α → F64)
    {l : List α} (hl : ∀ p ∈ l, isZero (f p) = true) : l.foldl (fun acc p => fadd acc (f p)) a = a := by
  induction l with
  | nil => rfl
  | cons p l ih =>
    obtain ⟨hp, hl⟩ := List.forall_mem_cons.1 hl
    rw [List.foldl_cons, fadd_zero_right ha hne hp, ih hl]

/-- A sum from +0.0 whose terms are zeros but for one finite term is +0.0 plus that term. -/
theorem foldl_fadd_single {α : Type} {l : List α} (hl : l.Nodup) (f : α → F64) {c : α} (hc : c ∈ l)
    (hfin : isFinite (f c) = true) (hzero : ∀ p ∈ l, p ≠ c → isZero (f p) = true) :
    l.foldl (fun acc p => fadd acc (f p)) posZero = fadd posZero (f c) := by
  obtain ⟨before, after, rfl⟩ := List.append_of_mem hc
  obtain ⟨hnotin, -⟩ := List.nodup_cons.1 (List.nodup_middle.1 hl)
  have hother : ∀ p ∈ before ++ after, isZero (f p) = true := fun p hp =>
    hzero p (List.perm_middle.mem_iff.2 (List.mem_cons_of_mem c hp)) (ne_of_mem_of_not_mem hp hnotin)
  obtain ⟨hbefore, hafter⟩ := List.forall_mem_append.1 hother
  obtain ⟨hsum, hne⟩ := fadd_posZero_class hfin
  rw [List.foldl_append, foldl_fadd_zeros (by decide) (by decide) f hbefore, List.foldl_cons,
    foldl_fadd_zeros hsum hne f hafter]

/-- A common factor plays no part in the rounding of a quotient. -/
theorem divEven_mul_left {c : Nat} (hc : 0 < c) (n d : Nat) : divEven (c * n) (c * d) = divEven n d := by
  have hlt : c * d < 2 * (c * (n % d)) ↔ d < 2 * (n % d) := by rw [Nat.mul_left_comm, Nat.mul_lt_mul_left hc]
  have heq : 2 * (c * (n % d)) = c * d ↔ 2 * (n % d) = d := by rw [Nat.mul_left_comm, Nat.mul_right_inj hc.ne']
  simp only [divEven, Nat.mul_mod_mul_left, Nat.mul_div_mul_left _ _ hc, hlt, heq]

theorem roundMag_mul_left {c : Nat} (hc : 0 < c) (n d : Nat) : roundMag (c * n) (c * d) = roundMag n d := by
  rw [roundMag, roundMag, Nat.mul_div_mul_left _ _ hc, Nat.mul_assoc, divEven_mul_left hc]

theorem fixedMag_fOne : fixedMag fOne = fixedOne := by decide +kernel

/-- One times a finite value is the value. -/
theorem fmul_fOne {v : F64} (h : isFinite v = true) : fmul fOne v = v := by
  have hsign : fsign fOne = false := by decide
  have hround : roundMag (fixedOne * fixedMag v) fixedOne = fmag v := by
    rw [← roundMag_fixedMag h, ← roundMag_mul_left fixedOne_pos (fixedMag v) 1, Nat.mul_one fixedOne]
  rw [fmul_eq_roundRat (by decide) h, fixedMag_fOne, hsign, Bool.false_bne, roundRat, hround, packF_fields]

/-! ## The samples (41_convolution.md R231, R232, R235) -/

section
variable {bnd : Boundary} {corr : Bool} {rd : Nat → Nat → F64} {h w : Nat}

/-- The sample at a place of the grid is read there; outside it is +0.0, or read at the place clamped. -/
theorem sample_eq (bnd : Boundary) (rd : Nat → Nat → F64) (h w : Nat) (sy sx : Int) :
    sample bnd rd h w sy sx =
      if 0 ≤ sy ∧ sy < h ∧ 0 ≤ sx ∧ sx < w then rd sy.toNat sx.toNat
      else if bnd = .zero then posZero
      else rd (clampIndex sy h) (clampIndex sx w) := by
  cases bnd <;> rfl

theorem sample_inside {y x : Nat} (hy : y < h) (hx : x < w) : sample bnd rd h w y x = rd y x :=
  if_pos (by omega)

theorem clampIndex_lt {n : Nat} (v : Int) (hn : 1 ≤ n) : clampIndex v n < n := by
  rw [clampIndex]
  omega

/-- The samples of a finite image are finite, in the grid and outside it. -/
theorem sample_finite (hh : 1 ≤ h) (hw : 1 ≤ w) (hfin : ∀ y x, y < h → x < w → isFinite (rd y x) = true)
    (sy sx : Int) : isFinite (sample bnd rd h w sy sx) = true := by
  rw [sample_eq]
  split_ifs with hin
  · exact hfin _ _ (by omega) (by omega)
  · rfl
  · exact hfin _ _ (clampIndex_lt _ hh) (clampIndex_lt _ hw)

/-- With or without the flip the kernel's centre weights the sample at the output's own place. -/
theorem tap_centre (pos n : Nat) : tap corr pos n (n / 2) = pos := by
  rw [tap]
  split_ifs <;> omega

end

/-! ## The terms of the sum and their order (41_convolution.md R233) -/

/-- To go through the pixels is to go through the rows, and in each through the columns. -/
theorem foldl_pixels {α : Type} (f : α → Nat × Nat → α) (a : α) (h w : Nat) :
    (pixels h w).foldl f a =
      (List.range h).foldl (fun acc i => (List.range w).foldl (fun acc j => f acc (i, j)) acc) a := by
  simp only [pixels, List.foldl_flatMap, List.foldl_map]

/-- The product that CONV adds at (y, x) for the kernel's coefficient `p`. -/
def convTerm (bnd : Boundary) (corr : Bool) (ker : Nat → Nat → F64) (kh kw : Nat) (rd : Nat → Nat → F64)
    (h w y x : Nat) (p : Nat × Nat) : F64 :=
  fmul (ker p.1 p.2) (sample bnd rd h w (tap corr y kh p.1) (tap corr x kw p.2))

section
variable {bnd : Boundary} {corr : Bool} {ker rd : Nat → Nat → F64} {kh kw h w y x : Nat}

theorem convSum_eq_foldl_convTerm :
    convSum bnd corr ker kh kw rd h w y x =
      (pixels kh kw).foldl (fun acc p => fadd acc (convTerm bnd corr ker kh kw rd h w y x p)) posZero := rfl

/-! ## The unit impulse (41_convolution.md R238) -/

/-- The kernel is 1 at its centre and +0.0 elsewhere. -/
def UnitImpulse (ker : Nat → Nat → F64) (kh kw : Nat) : Prop :=
  ∀ i j, i < kh → j < kw → ker i j = if i = kh / 2 ∧ j = kw / 2 then fOne else posZero

/-- The centre of the unit impulse adds the sample at the output's own place. -/
theorem convTerm_centre (hker : UnitImpulse ker kh kw) (hkh : 0 < kh) (hkw : 0 < kw) (hy : y < h) (hx : x < w)
    (hfin : isFinite (rd y x) = true) : convTerm bnd corr ker kh kw rd h w y x (kh / 2, kw / 2) = rd y x := by
  rw [convTerm, hker _ _ (Nat.div_lt_self hkh one_lt_two) (Nat.div_lt_self hkw one_lt_two), if_pos ⟨rfl, rfl⟩,
    tap_centre, tap_centre, sample_inside hy hx, fmul_fOne hfin]

/-- Every other coefficient of the unit impulse adds a zero, since the sample it weights is finite. -/
theorem convTerm_beside_centre (hker : UnitImpulse ker kh kw) (hh : 1 ≤ h) (hw : 1 ≤ w)
    (hfin : ∀ y x, y < h → x < w → isFinite (rd y x) = true) {p : Nat × Nat} (hp : p ∈ pixels kh kw)
    (hne : p ≠ (kh / 2, kw / 2)) : isZero (convTerm bnd corr ker kh kw rd h w y x p) = true := by
  obtain ⟨hi, hj⟩ := mem_pixels.1 hp
  obtain ⟨-, -, -, hproduct⟩ := arithmetic_zero (b := posZero)
    (sample_finite (bnd := bnd) hh hw hfin (tap corr y kh p.1) (tap corr x kw p.2)) rfl
  rw [convTerm, hker _ _ hi hj, if_neg fun hc => hne (Prod.ext hc.1 hc.2)]
  exact hproduct

/-- The unit impulse returns a sample of a finite image, -0.0 made +0.0. -/
theorem convElem_unitImpulse (hker : UnitImpulse ker kh kw) (hkh : 0 < kh) (hkw : 0 < kw)
    (hfin : ∀ y x, y < h → x < w → isFinite (rd y x) = true) (hy : y < h) (hx : x < w) :
    convElem bnd corr ker kh kw rd h w y x = if isZero (rd y x) then posZero else rd y x := by
  have hcentre : (kh / 2, kw / 2) ∈ pixels kh kw :=
    mem_pixels.2 ⟨Nat.div_lt_self hkh one_lt_two, Nat.div_lt_self hkw one_lt_two⟩
  have hterm : convTerm bnd corr ker kh kw rd h w y x (kh / 2, kw / 2) = rd y x :=
    convTerm_centre hker hkh hkw hy hx (hfin y x hy hx)
  have hsum : convSum bnd corr ker kh kw rd h w y x = fadd posZero (rd y x) := by
    have hbeside : ∀ p ∈ pixels kh kw, p ≠ (kh / 2, kw / 2) →
        isZero (convTerm bnd corr ker kh kw rd h w y x p) = true :=
      fun p hp hne => convTerm_beside_centre hker (by omega) (by omega) hfin hp hne
    rw [convSum_eq_foldl_convTerm,
      foldl_fadd_single (pixels_nodup kh kw) _ hcentre (hterm.symm ▸ hfin y x hy hx) hbeside, hterm]
  obtain ⟨hsumfin, -⟩ := fadd_posZero_class (hfin y x hy hx)
  rw [convElem, hsum, canonical_of_not_nan (isNaN_eq_false_of_finite hsumfin), fadd_posZero (hfin y x hy hx)]

end

end Sys2Proof.Machine

namespace Sys2Proof

open Sys2Proof.Machine

/-- Settles O18: the sum over the kernel's pixels, gone through by rows and columns. -/
theorem convResult : Obligations.ConvResult := by
  intro s bnd corr img ker out S hwf hready hS
  obtain ⟨t, hexec, hcompletes, hout⟩ := exec_conv hwf hready
  have hsample : sample bnd (rdF s.mem img) img.h img.w = S :=
    funext₂ fun sy sx => (sample_eq ..).trans (hS sy sx).symm
  refine ⟨t, hexec, hcompletes, fun y x hy hx => ?_⟩
  rw [hout y x hy hx, convElem, convSum_eq_foldl_convTerm, foldl_pixels]
  simp only [convTerm, hsample, tap]
  cases corr <;> rfl

/-- Settles O30: of the terms of each sum the centre's is the pixel, and every other is a zero. -/
theorem convUnitImpulse : Obligations.ConvUnitImpulse := by
  intro s bnd corr img ker out hwf hready hker hfin
  obtain ⟨t, hexec, -, hout⟩ := exec_conv hwf hready
  obtain ⟨-, -, ⟨houth, houtw⟩, -, ⟨hkh, hkw, -⟩, -⟩ := hready
  refine ⟨t, hexec, fun y x hy hx => ?_⟩
  rw [hout y x (houth ▸ hy) (houtw ▸ hx), convElem_unitImpulse hker hkh hkw hfin hy hx]

end Sys2Proof
end


section
/-! SUPPORT. GAUSS (42_gaussian.md R260 to R265): what a ready GAUSS leaves in OUT, the mirrors of the kernel that
keep the distance from its centre, and the value at its centre. -/

namespace Sys2Proof.Machine

/-! ## A ready GAUSS completes -/

/-- An attempt that validation passes completes, where the bytes it writes are those of its command's outputs. -/
theorem State.attempt_completes {s : State} {i : Instr} {cells : List Host.Cell}
    (hvalid : validate i s.straps.memSize = none) (hkeys : ∀ a ∈ cells.map Prod.fst, a ∈ writtenBytes i) :
    Completes i s (s.attempt i (s.mem.writeCells cells)) := by
  rw [State.attempt_of_none hvalid]
  exact ⟨rfl, fun a ha => Memory.read_writeCells_of_notMem _ (mt (hkeys a) ha)⟩

theorem mem_writtenBytes_gauss {out : Grid} {size : Int} {sigma : F64} {a : Nat} :
    a ∈ writtenBytes (.gauss out size sigma) ↔ a ∈ elemBytes out 8 := by
  simp [mem_writtenBytes, operandsOf, scratchSpans]

/-- A ready GAUSS completes, and every element of OUT holds its value (40_control.md R218, 42_gaussian.md R260). -/
theorem exec_gauss {s : State} {out : Grid} {size : Int} {sigma : F64} (hwf : s.mem.wf)
    (hready : Ready s.straps.memSize (.gauss out size sigma)) :
    ∃ t, exec (.gauss out size sigma) s = .next t ∧ Completes (.gauss out size sigma) s t ∧
      ∀ i j : Nat, (i : Int) < size → (j : Int) < size →
        rdF t.mem out i j = gaussElem Config.exp size.toNat sigma i j := by
  have hvalid := validate_none_iff_ready.2 hready
  obtain ⟨-, houth, houtw, -, -, -, -, hrow, -⟩ := hready
  refine ⟨_, rfl, State.attempt_completes hvalid fun a ha => ?_, fun i j hi hj => ?_⟩
  · rwa [mem_writtenBytes_gauss, ← gaussCells_keys]
  · rw [State.attempt_of_none hvalid]
    exact rdF_cellsF hwf _ hrow (by omega) (by omega)

/-! ## The distance from the centre (42_gaussian.md R260, R264) -/

theorem gaussDistance_comm (n i j : Nat) : gaussDistance n i j = gaussDistance n j i := add_comm _ _

/-- The rows i and n - 1 - i of an odd kernel lie equally far from its centre, on either side of it. -/
theorem gaussDistance_mirror_row {n i : Nat} (hn : n % 2 = 1) (hi : i < n) (j : Nat) :
    gaussDistance n (n - 1 - i) j = gaussDistance n i j := by
  have hopposite : ((n - 1 - i : Nat) : Int) - (n / 2 : Nat) = -((i : Int) - (n / 2 : Nat)) := by omega
  rw [gaussDistance, hopposite, neg_sq, gaussDistance]

theorem gaussDistance_mirror_column {n j : Nat} (hn : n % 2 = 1) (hj : j < n) (i : Nat) :
    gaussDistance n i (n - 1 - j) = gaussDistance n i j := by
  rw [gaussDistance_comm, gaussDistance_mirror_row hn hj, gaussDistance_comm]

theorem gaussDistance_centre (n : Nat) : gaussDistance n (n / 2) (n / 2) = 0 := by simp [gaussDistance]

/-- The value at (i, j) depends on its distance from the centre alone. -/
theorem gaussElem_of_distance {exp : F64 → F64} {n : Nat} {sigma : F64} {i j k l : Nat}
    (h : gaussDistance n i j = gaussDistance n k l) : gaussElem exp n sigma i j = gaussElem exp n sigma k l := by
  rw [gaussElem, h, gaussElem]

/-! ## Products with 1 and written quotients -/

theorem fmul_comm (a b : F64) : fmul a b = fmul b a := by
  have hsign : (fsign a != fsign b) = (fsign b != fsign a) := bne_comm
  simp only [fmul, hsign, Bool.or_comm (isNaN a), Bool.or_comm (isInf a), Bool.or_comm (isZero a),
    Nat.mul_comm (fixedMag a)]

/-- Any value times one is the value as it is written: a NaN becomes CANON_NAN (00_scope.md R27). -/
theorem fmul_fOne_right (v : F64) : fmul v fOne = canonical v := by
  by_cases hnan : isNaN v = true
  · simp [fmul, canonical, hnan]
  rw [canonical, if_neg hnan]
  by_cases hfin : isFinite v = true
  · rw [fmul_comm, fmul_fOne hfin]
  have hmag : fmag v = infMag := by
    simp only [isNaN, isFinite, decide_eq_true_eq] at hnan hfin
    omega
  obtain ⟨hzeroOne, hsignOne⟩ : isZero fOne = false ∧ fsign fOne = false := by decide
  obtain ⟨hmul, -⟩ := fmul_inf (b := fOne) (decide_eq_true hmag) (by decide)
  rw [hmul, hzeroOne, hsignOne, Bool.bne_false, if_neg Bool.false_ne_true, ← hmag, packF_fields]

theorem canonical_canonNaN : canonical canonNaN = canonNaN := by decide

/-- A quotient is written as it is: each branch of the division ends in CANON_NAN, a zero, an infinity or a rounding. -/
theorem canonical_fdiv (a b : F64) : canonical (fdiv a b) = fdiv a b := by
  have hinf (s : Bool) : canonical (packF s infMag) = packF s infMag :=
    canonical_of_not_nan (isNaN_eq_false_of_inf (isInf_packF s))
  have hzero (s : Bool) : canonical (packF s 0) = packF s 0 :=
    canonical_of_not_nan (isNaN_eq_false_of_finite (isFinite_of_zero (isZero_packF s)))
  rw [fdiv]
  split_ifs
  · exact canonical_canonNaN
  · exact canonical_canonNaN
  · exact hinf _
  · exact hzero _
  · exact canonical_canonNaN
  · exact hinf _
  · exact canonical_of_not_nan (roundRat_not_nan ..)

/-! ## The centre (42_gaussian.md R265) -/

/-- EXP is 1 at both zeros (00_scope.md R30). -/
theorem exp_of_zero {exp : F64 → F64} (hexp : ExpAdmissible exp) {v : F64} (hv : isZero v = true) : exp v = fOne := by
  by_cases hne : v = negZero
  · rw [hne, hexp.atNegZero]
  · rw [eq_posZero hv hne, hexp.atPosZero]

/-- The exponent at the centre is a zero where 2σ² is finite and not zero. -/
theorem gaussExponent_zero {sigma : F64} (hfin : isFinite (fmul fTwo (gaussVariance sigma)) = true)
    (hz : isZero (fmul fTwo (gaussVariance sigma)) = false) : isZero (gaussExponent sigma 0) = true := by
  have hf64 : isZero (f64 (-0)) = true := by decide +kernel
  obtain ⟨hzero, -⟩ := arithmetic_zero hfin hf64
  exact (hzero hz).2

/-- The centre of the kernel is the leading factor: A times 1. -/
theorem gaussElem_centre {exp : F64 → F64} (hexp : ExpAdmissible exp) (n : Nat) {sigma : F64}
    (hfin : isFinite (fmul fTwo (gaussVariance sigma)) = true)
    (hz : isZero (fmul fTwo (gaussVariance sigma)) = false) :
    gaussElem exp n sigma (n / 2) (n / 2) = gaussFactor sigma := by
  have hfactor : canonical (gaussFactor sigma) = gaussFactor sigma := canonical_fdiv _ _
  rw [gaussElem, gaussDistance_centre, exp_of_zero hexp (gaussExponent_zero hfin hz), fmul_fOne_right, hfactor, hfactor]

end Sys2Proof.Machine

namespace Sys2Proof

open Sys2Proof.Machine

/-- Settles O19: the value at (i, j), its names written out. -/
theorem gaussResult : Obligations.GaussResult := by
  intro s out size sigma hwf hready
  obtain ⟨t, hexec, hcompletes, hout⟩ := exec_gauss hwf hready
  refine ⟨t, hexec, hcompletes, fun i j hi hj => ?_⟩
  have hcentre : ((size.toNat / 2 : Nat) : Int) = size / 2 := by omega
  rw [hout i j hi hj, gaussElem, gaussFactor, gaussExponent, gaussDistance, gaussVariance, hcentre]

/-- Settles O33: the two mirrors and the transposition keep the distance from the centre. -/
theorem gaussSymmetry : Obligations.GaussSymmetry := by
  rintro s out _ sigma n hwf hready rfl
  obtain ⟨t, hexec, -, hout⟩ := exec_gauss hwf hready
  obtain ⟨⟨-, -, hodd, -⟩, -⟩ := hready
  rw [Int.toNat_natCast] at hout
  refine ⟨t, hexec, fun i j hi hj => ?_⟩
  rw [hout i j (by omega) (by omega), hout (n - 1 - i) j (by omega) (by omega),
    hout i (n - 1 - j) (by omega) (by omega), hout j i (by omega) (by omega)]
  exact ⟨gaussElem_of_distance (gaussDistance_mirror_row (by omega) hi j).symm,
    gaussElem_of_distance (gaussDistance_mirror_column (by omega) hj i).symm,
    gaussElem_of_distance (gaussDistance_comm n i j)⟩

/-- Settles O34: the exponent at the centre is a zero, where every EXP is 1. -/
theorem gaussCentre : Obligations.GaussCentre := by
  intro s out size sigma c hwf hready hc hfin hpos
  obtain ⟨t, hexec, -, hout⟩ := exec_gauss hwf hready
  obtain ⟨⟨hsize, -⟩, -⟩ := hready
  obtain ⟨-, hz, -⟩ := positive_of_fgt_posZero hpos
  have hcentre : c = size.toNat / 2 := by omega
  refine ⟨t, hexec, ?_⟩
  rw [hout c c (by omega) (by omega), hcentre, gaussElem_centre Config.exp_admissible _ hfin hz]
  rfl

end Sys2Proof
end

section
/-! SUPPORT. GRAD (43_gradient.md R280 to R288): what a ready GRAD leaves in MAG and DIR, the directions of R284, and
the derivatives of R285: half the difference of two samples where the window is finite, a NaN where it is not. -/

namespace Sys2Proof.Machine

/-! ## A ready GRAD completes -/

theorem mem_writtenBytes_grad {img mag dir : Grid} {a : Nat} :
    a ∈ writtenBytes (.grad img mag dir) ↔ a ∈ elemBytes mag 8 ∨ a ∈ elemBytes dir 8 := by
  simp [mem_writtenBytes, operandsOf, scratchSpans]

/-- A ready GRAD completes, and every element of MAG and DIR holds its value: MAG and DIR share no byte
(40_control.md R218, 43_gradient.md R280). -/
theorem exec_grad {s : State} {img mag dir : Grid} (hwf : s.mem.wf)
    (hready : Ready s.straps.memSize (.grad img mag dir)) :
    ∃ t, exec (.grad img mag dir) s = .next t ∧ Completes (.grad img mag dir) s t ∧
      ∀ y x, y < img.h → x < img.w →
        rdF t.mem mag y x = canonical
          (gradMag (gradX (rdF s.mem img) img.h img.w y x) (gradY (rdF s.mem img) img.h img.w y x)) ∧
        rdF t.mem dir y x = canonical
          (gradDir Config.atan2 (gradX (rdF s.mem img) img.h img.w y x) (gradY (rdF s.mem img) img.h img.w y x)) := by
  have hvalid := validate_none_iff_ready.2 hready
  obtain ⟨⟨hmagh, hmagw⟩, ⟨hdirh, hdirw⟩, -, ⟨-, -, -, -, hmagrow, -⟩, ⟨-, -, -, -, hdirrow, -⟩, -, -,
    hapart⟩ := hready
  refine ⟨_, rfl, State.attempt_completes hvalid fun a ha => ?_, fun y x hy hx => ?_⟩
  · rwa [mem_writtenBytes_grad, ← List.mem_append, ← gradCells_keys]
  · rw [State.attempt_of_none hvalid, State.complete_mem, gradCells, Memory.writeCells_append]
    have hdiry : y < dir.h := hdirh ▸ hy
    have hdirx : x < dir.w := hdirw ▸ hx
    exact ⟨rdF_cellsF (Memory.writeCells_wf hwf _) _ hmagrow (hmagh ▸ hy) (hmagw ▸ hx),
      (rdF_gridCells_other _ _ hdiry hdirx hapart.symm).trans (rdF_cellsF hwf _ hdirrow hdiry hdirx)⟩

/-! ## Directions in degrees (43_gradient.md R284) -/

theorem finite_or_inf_of_not_nan {v : F64} (h : isNaN v = false) : isFinite v = true ∨ isInf v = true := by
  simp only [isNaN, isFinite, isInf, decide_eq_true_eq, decide_eq_false_iff_not] at *
  omega

/-- A finite addend makes no NaN of a value that is none. -/
theorem fadd_not_nan {a b : F64} (ha : isNaN a = false) (hb : isFinite b = true) : isNaN (fadd a b) = false := by
  rcases finite_or_inf_of_not_nan ha with hfin | hinf
  · obtain ⟨s, hs, -⟩ := fadd_eq_roundRat hfin hb
    rw [hs, roundRat_not_nan]
  · obtain ⟨hsum, -⟩ := fadd_inf_finite hinf hb
    rw [hsum, ha]

theorem feq_iff {a b : F64} (ha : isNaN a = false) (hb : isNaN b = false) :
    feq a b = true ↔ orderKey a = orderKey b := by
  rw [feq, Bool.and_eq_true, fge_iff ha hb, fge_iff hb ha, le_antisymm_iff, and_comm]

theorem orderKey_posZero : orderKey posZero = 0 := by decide +kernel

theorem orderKey_eq_zero_iff {v : F64} : orderKey v = 0 ↔ isZero v = true := by
  rw [orderKey, isZero, decide_eq_true_iff]
  split_ifs <;> omega

theorem not_nan_of_flt_posZero {d : F64} (h : flt d posZero = true) : isNaN d = false := by
  by_contra hnan
  simp [(compare_nan (b := posZero) (.inl (by simpa using hnan))).2.2] at h

theorem not_nan_of_fge_posZero {d : F64} (h : fge d posZero = true) : isNaN d = false := by
  by_contra hnan
  simp [(compare_nan (b := posZero) (.inl (by simpa using hnan))).1] at h

/-- A NaN direction is written as CANON_NAN (00_scope.md R27). -/
theorem canonical_deg360_of_nan {d : F64} (h : isNaN d = true) : canonical (deg360 d) = canonNaN := by
  rw [deg360, if_pos h, canonical, if_pos h]

/-- To a negative direction 360 is added, once, and a sum of 360 is +0.0. -/
theorem canonical_deg360_of_negative {d : F64} (h : flt d posZero = true) :
    canonical (deg360 d) = if orderKey (fadd d c360) = orderKey c360 then posZero else fadd d c360 := by
  have hnan := not_nan_of_flt_posZero h
  have hsum : isNaN (fadd d c360) = false := fadd_not_nan hnan (by decide)
  rw [deg360, hnan, if_neg Bool.false_ne_true, if_pos h, if_congr (feq_iff hsum (by decide)) rfl rfl]
  split_ifs
  · exact canonical_of_not_nan isNaN_posZero
  · exact canonical_of_not_nan hsum

/-- A direction that is not negative is kept, -0.0 made +0.0. -/
theorem canonical_deg360_of_nonneg {d : F64} (h : fge d posZero = true) :
    canonical (deg360 d) = if isZero d then posZero else d := by
  have hnan := not_nan_of_fge_posZero h
  have hlt : ¬ flt d posZero = true := by
    rw [flt_iff hnan isNaN_posZero, not_lt, ← fge_iff hnan isNaN_posZero]
    exact h
  have hzero : feq d posZero = true ↔ isZero d = true := by
    rw [feq_iff hnan isNaN_posZero, orderKey_posZero, orderKey_eq_zero_iff]
  rw [deg360, hnan, if_neg Bool.false_ne_true, if_neg hlt, if_congr hzero rfl rfl]
  split_ifs
  · exact canonical_of_not_nan isNaN_posZero
  · exact canonical_of_not_nan hnan

/-! ## NaN derivatives (43_gradient.md R283, R284) -/

/-- A root is written as it is: each branch of the root ends in CANON_NAN, a zero, an infinity or a rounding. -/
theorem canonical_fsqrt (a : F64) : canonical (fsqrt a) = fsqrt a := by
  rw [fsqrt]
  split_ifs with hnan
  · exact canonical_canonNaN
  · exact canonical_of_not_nan (by simpa using hnan)
  · exact canonical_canonNaN
  · exact canonical_of_not_nan (by simpa using hnan)
  · exact canonical_of_not_nan (roundRat_not_nan ..)

/-- The magnitude of a NaN derivative is a NaN. -/
theorem canonical_gradMag_of_nan {gx gy : F64} (h : isNaN gx = true ∨ isNaN gy = true) :
    canonical (gradMag gx gy) = canonNaN := by
  have hsquares : isNaN (fmul gx gx) = true ∨ isNaN (fmul gy gy) = true :=
    h.imp (fun hx => (arithmetic_nan (.inl hx)).2.2.1) fun hy => (arithmetic_nan (.inl hy)).2.2.1
  rw [gradMag, canonical_fsqrt, fadd_nan hsquares, fsqrt_nan isNaN_canonNaN]

/-- The direction of a NaN derivative is a NaN, for every ATAN2 (00_scope.md R31). -/
theorem canonical_gradDir_of_nan {atan2 : F64 → F64 → F64} (hatan2 : Atan2Admissible atan2) {gx gy : F64}
    (h : isNaN gx = true ∨ isNaN gy = true) : canonical (gradDir atan2 gx gy) = canonNaN := by
  have hangle : isNaN (atan2 gy gx) = true := h.elim (hatan2.nanRight gy gx) (hatan2.nanLeft gy gx)
  have hdegrees : isNaN (fmul (atan2 gy gx) r2d) = true := (arithmetic_nan (.inl hangle)).2.2.1
  rw [gradDir, canonical_deg360_of_nan hdegrees]

/-! ## Halves and their difference -/

/-- The magnitude bits of half the largest finite value. -/
def halfMaxMag : Nat := 0x7FDFFFFFFFFFFFFF

theorem two_mul_magUnits_halfMaxMag : 2 * magUnits halfMaxMag = magUnits (infMag - 1) := by decide +kernel

theorem magUnits_lt {m : Nat} (hm : m < infMag) : magUnits m < (2 ^ 54 - 1) * 2 ^ 970 * fixedOne := by
  have hmag : fmag (packF false m) = m := fmag_packF (hm.trans (by decide))
  have h := fixedMag_lt (v := packF false m) (by rwa [isFinite, hmag, decide_eq_true_iff])
  rwa [fixedMag_eq_magUnits, hmag] at h

/-- A quotient at or below a finite magnitude is not rounded above it. -/
theorem roundMag_le_of_le {n d m : Nat} (hd : 0 < d) (hm : m < infMag) (h : n ≤ magUnits m * d) :
    roundMag n d ≤ m := by
  have hfin : roundMag n d < infMag :=
    (roundMag_finite_iff hd).2 (h.trans_lt (Nat.mul_lt_mul_of_pos_right (magUnits_lt hm) hd))
  by_contra hgt
  have hfar : magUnits m * d < magUnits (roundMag n d) * d :=
    Nat.mul_lt_mul_of_pos_right (magUnits_strictMono (not_le.1 hgt)) hd
  obtain ⟨hnear, -⟩ := roundMag_nearest_nat hd hfin m
  zify at h hfar
  omega

/-- Half of a finite value, of either sign, is at most half of the largest one. -/
theorem fmul_half_bound {u v : F64} (hu : fmag u = fmag fHalf) (hv : isFinite v = true) :
    isFinite (fmul u v) = true ∧ fmag (fmul u v) ≤ halfMaxMag := by
  have hufin : isFinite u = true := by rw [isFinite, hu]; decide
  have hhalf : 2 * fixedMag u = fixedOne := by rw [fixedMag_eq_magUnits, hu]; decide +kernel
  have hmax : fixedMag v ≤ 2 * magUnits halfMaxMag := by
    rw [two_mul_magUnits_halfMaxMag, fixedMag_eq_magUnits]
    exact magUnits_strictMono.monotone (Nat.le_pred_of_lt (of_decide_eq_true hv))
  have hproduct : fixedMag u * fixedMag v ≤ magUnits halfMaxMag * fixedOne :=
    calc fixedMag u * fixedMag v ≤ fixedMag u * (2 * magUnits halfMaxMag) := Nat.mul_le_mul_left _ hmax
      _ = magUnits halfMaxMag * fixedOne := by rw [← hhalf]; ring
  have hle : fmag (fmul u v) ≤ halfMaxMag := by
    rw [fmul_eq_roundRat hufin hv, fmag_roundRat]
    exact roundMag_le_of_le fixedOne_pos (by decide) hproduct
  exact ⟨decide_eq_true (hle.trans_lt (by decide)), hle⟩

/-- The sum of two values of at most half the largest one does not overflow. -/
theorem fadd_finite_of_half_bound {a b : F64} (ha : isFinite a = true ∧ fmag a ≤ halfMaxMag)
    (hb : isFinite b = true ∧ fmag b ≤ halfMaxMag) : isFinite (fadd a b) = true := by
  have hsmall {v : F64} (hv : fmag v ≤ halfMaxMag) : (fixed v).natAbs ≤ magUnits halfMaxMag := by
    rw [natAbs_fixed, fixedMag_eq_magUnits]
    exact magUnits_strictMono.monotone hv
  rw [(fadd_overflow ha.1 hb.1).1]
  calc (fixed a + fixed b).natAbs ≤ (fixed a).natAbs + (fixed b).natAbs := Int.natAbs_add_le ..
    _ ≤ magUnits halfMaxMag + magUnits halfMaxMag := Nat.add_le_add (hsmall ha.2) (hsmall hb.2)
    _ = magUnits (infMag - 1) := by rw [← two_mul, two_mul_magUnits_halfMaxMag]
    _ < (2 ^ 54 - 1) * 2 ^ 970 * fixedOne := magUnits_lt (by decide)

/-- A sum of finite values is a zero for an exact zero sum only: below the normal range nothing is rounded. -/
theorem fixed_add_of_zero {a b : F64} (ha : isFinite a = true) (hb : isFinite b = true)
    (h : isZero (fadd a b) = true) : fixed a + fixed b = 0 := by
  obtain ⟨s, hs, -⟩ := fadd_eq_roundRat ha hb
  have hround : roundMag (fixed a + fixed b).natAbs 1 = 0 := by rwa [hs, isZero, fmag_roundRat, decide_eq_true_iff] at h
  have hfields := roundMag_of_finite (hround.trans_lt (by decide))
  have hplace : lastPlace (fixed a + fixed b).natAbs 1 = 0 := by omega
  have hsig : significand (fixed a + fixed b).natAbs 1 = 0 := by omega
  rwa [significand, hplace, pow_zero, mul_one, divEven_one, Int.natAbs_eq_zero] at hsig

/-- To start a sum of finite values from +0.0 is to add +0.0 to it: either way only -0.0 changes. -/
theorem fadd_posZero_fadd {a b : F64} (ha : isFinite a = true) (hb : isFinite b = true)
    (hsum : isFinite (fadd a b) = true) : fadd (fadd posZero a) b = fadd posZero (fadd a b) := by
  obtain ⟨hafin, hane⟩ := fadd_posZero_class ha
  have hfixed : fixed (fadd posZero a) = fixed a := by
    rw [fadd_posZero ha]
    split_ifs with hz
    · rw [fixed_eq_zero.2 hz, fixed_eq_zero.2 (by decide)]
    · rfl
  by_cases h0 : fixed a + fixed b = 0
  · have hzero : isZero (fadd a b) = true := by
      rw [fadd_zero_sum ha hb h0]
      split_ifs <;> decide
    rw [fadd_zero_sum hafin hb (by rw [hfixed, h0]), if_neg fun h => hane h.1, fadd_posZero hsum, if_pos hzero]
  · rw [fadd_posZero hsum, if_neg fun hz => h0 (fixed_add_of_zero ha hb hz), fadd_finite ha hb, if_neg h0,
      fadd_finite hafin hb, hfixed, if_neg h0]

/-- Half the difference of two samples, a zero made +0.0 (43_gradient.md R285). -/
def halfDifference (u v : F64) : F64 := fadd posZero (fadd (fmul fHalf u) (fmul fNegHalf v))

/-- The difference of the halves of finite values is finite. -/
theorem fadd_halves_finite {u v : F64} (hu : isFinite u = true) (hv : isFinite v = true) :
    isFinite (fadd (fmul fHalf u) (fmul fNegHalf v)) = true :=
  fadd_finite_of_half_bound (fmul_half_bound rfl hu) (fmul_half_bound (by decide) hv)

theorem isFinite_halfDifference {u v : F64} (hu : isFinite u = true) (hv : isFinite v = true) :
    isFinite (halfDifference u v) = true :=
  (fadd_posZero_class (fadd_halves_finite hu hv)).1

/-- A finite value times -0.5 is the other sign of its half. -/
theorem fmul_fNegHalf {v : F64} (hv : isFinite v = true) : fmul fNegHalf v = fneg (fmul fHalf v) := by
  have hneg : fNegHalf = fneg fHalf := by decide
  refine eq_of_fields ?_ ?_
  · rw [fsign_fneg, fmul_eq_roundRat (by decide) hv, fmul_eq_roundRat (by decide) hv, fsign_roundRat, fsign_roundRat,
      hneg, fsign_fneg, Bool.not_bne]
  · rw [fmag_fneg, fmul_eq_roundRat (by decide) hv, fmul_eq_roundRat (by decide) hv, fmag_roundRat, fmag_roundRat,
      hneg, fixedMag_eq_magUnits, fmag_fneg, ← fixedMag_eq_magUnits]

theorem halfDifference_self {v : F64} (hv : isFinite v = true) : halfDifference v v = posZero := by
  obtain ⟨hhalf, -⟩ := fmul_half_bound (u := fHalf) rfl hv
  rw [halfDifference, fmul_fNegHalf hv, ← fsub, fsub_self hhalf]
  decide

/-! ## Sums of which two terms count, and poisoned sums -/

/-- A sum from +0.0 whose terms are zeros but for two finite ones is +0.0 plus their sum. -/
theorem foldl_fadd_pair {α : Type} (f : α → F64) {before between after : List α} {c e : α}
    (hzero : ∀ p ∈ before ++ between ++ after, isZero (f p) = true) (hc : isFinite (f c) = true)
    (he : isFinite (f e) = true) (hsum : isFinite (fadd (f c) (f e)) = true) :
    (before ++ c :: (between ++ e :: after)).foldl (fun acc p => fadd acc (f p)) posZero =
      fadd posZero (fadd (f c) (f e)) := by
  obtain ⟨hzero, hafter⟩ := List.forall_mem_append.1 hzero
  obtain ⟨hbefore, hbetween⟩ := List.forall_mem_append.1 hzero
  obtain ⟨hfirst, hfirstne⟩ := fadd_posZero_class hc
  obtain ⟨hboth, hbothne⟩ := fadd_posZero_class hsum
  rw [List.foldl_append, foldl_fadd_zeros (by decide) (by decide) f hbefore, List.foldl_cons, List.foldl_append,
    foldl_fadd_zeros hfirst hfirstne f hbetween, List.foldl_cons, fadd_posZero_fadd hc he hsum,
    foldl_fadd_zeros hboth hbothne f hafter]

/-- A NaN in the accumulator stays. -/
theorem foldl_fadd_of_nan {α : Type} {a : F64} (ha : isNaN a = true) (f : α → F64) (l : List α) :
    isNaN (l.foldl (fun acc p => fadd acc (f p)) a) = true := by
  induction l generalizing a with
  | nil => exact ha
  | cons p l ih => exact ih (arithmetic_nan (.inl ha)).1

/-- A NaN term makes the sum a NaN. -/
theorem foldl_fadd_nan_term {α : Type} {l : List α} (a : F64) (f : α → F64) {p : α} (hp : p ∈ l)
    (hnan : isNaN (f p) = true) : isNaN (l.foldl (fun acc p => fadd acc (f p)) a) = true := by
  obtain ⟨before, after, rfl⟩ := List.append_of_mem hp
  rw [List.foldl_append, List.foldl_cons]
  exact foldl_fadd_of_nan (arithmetic_nan (.inr hnan)).1 f after

/-- A zero times an infinity or a NaN is a NaN. -/
theorem fmul_posZero_of_not_finite {v : F64} (hv : isFinite v = false) : isNaN (fmul posZero v) = true := by
  by_cases hnan : isNaN v = true
  · exact (arithmetic_nan (.inr hnan)).2.2.1
  · have hinf : isInf v = true :=
      (finite_or_inf_of_not_nan (by simpa using hnan)).resolve_left (by rw [hv]; exact Bool.false_ne_true)
    obtain ⟨-, -, -, -, hzero, -⟩ := arithmetic_inf (b := posZero) hinf isNaN_posZero
    exact (hzero (by decide)).2

/-! ## The clamped window (43_gradient.md R282, R285) -/

/-- Under EDGE_REPLICATE every sample is read at its place clamped into the grid: a place of the grid is its own. -/
theorem sample_edgeReplicate (rd : Nat → Nat → F64) (h w : Nat) (sy sx : Int) :
    sample .edgeReplicate rd h w sy sx = rd (clampIndex sy h) (clampIndex sx w) := by
  have hplace {v : Int} {n : Nat} (h0 : 0 ≤ v) (hn : v < n) : clampIndex v n = v.toNat := by
    rw [clampIndex]
    omega
  rw [sample_eq]
  split_ifs with hin hbnd
  · obtain ⟨hy0, hy, hx0, hx⟩ := hin
    rw [hplace hy0 hy, hplace hx0 hx]
  · exact absurd hbnd (by decide)
  · rfl

/-- The sample that the coefficient `p` of a 3 by 3 kernel weights at (y, x). -/
def windowSample (rd : Nat → Nat → F64) (h w y x : Nat) (p : Nat × Nat) : F64 :=
  sample .edgeReplicate rd h w (tap false y 3 p.1) (tap false x 3 p.2)

/-- The nine samples of the clamped window are finite. -/
def WindowFinite (rd : Nat → Nat → F64) (h w y x : Nat) : Prop :=
  ∀ p ∈ pixels 3 3, isFinite (windowSample rd h w y x p) = true

/-- The flipped index `k` weights the place 1 - k beside the pixel's own. -/
theorem tap_flipped (pos k : Nat) : tap false pos 3 k = pos + (1 - (k : Int)) := by
  rw [tap, if_neg Bool.false_ne_true]
  omega

section
variable {rd : Nat → Nat → F64} {h w y x : Nat}

/-- The window reaches from one before the pixel to one after it, in each coordinate. -/
theorem windowFinite_iff :
    WindowFinite rd h w y x ↔ ∀ dy dx : Int, -1 ≤ dy → dy ≤ 1 → -1 ≤ dx → dx ≤ 1 →
      isFinite (sample .edgeReplicate rd h w (y + dy) (x + dx)) = true := by
  simp only [WindowFinite, windowSample, tap_flipped]
  constructor
  · intro hfin dy dx hdy hdy' hdx hdx'
    have hplace {d : Int} (hd : d ≤ 1) : 1 - (((1 - d).toNat : Nat) : Int) = d := by omega
    have := hfin ((1 - dy).toNat, (1 - dx).toNat) (mem_pixels.2 ⟨by omega, by omega⟩)
    rwa [hplace hdy', hplace hdx'] at this
  · intro hfin p hp
    obtain ⟨hi, hj⟩ := mem_pixels.1 hp
    exact hfin _ _ (by omega) (by omega) (by omega) (by omega)

/-- A kernel of 0.5 at one place, -0.5 at a later one and +0.0 elsewhere gives, on a finite window, half the
difference of the two samples that it weights, and no overflow. -/
theorem convElem_of_pair {ker : Nat → Nat → F64} {before between after : List (Nat × Nat)} {c e : Nat × Nat}
    (hpixels : pixels 3 3 = before ++ c :: (between ++ e :: after)) (hc : ker c.1 c.2 = fHalf)
    (he : ker e.1 e.2 = fNegHalf) (hother : ∀ p ∈ before ++ between ++ after, ker p.1 p.2 = posZero)
    (hfin : WindowFinite rd h w y x) :
    convElem .edgeReplicate false ker 3 3 rd h w y x =
        halfDifference (windowSample rd h w y x c) (windowSample rd h w y x e) ∧
      isFinite (convElem .edgeReplicate false ker 3 3 rd h w y x) = true := by
  have hterm (p : Nat × Nat) : convTerm .edgeReplicate false ker 3 3 rd h w y x p =
      fmul (ker p.1 p.2) (windowSample rd h w y x p) := rfl
  have hcfin : isFinite (windowSample rd h w y x c) = true := hfin c (by rw [hpixels]; simp)
  have hefin : isFinite (windowSample rd h w y x e) = true := hfin e (by rw [hpixels]; simp)
  have hzero : ∀ p ∈ before ++ between ++ after,
      isZero (convTerm .edgeReplicate false ker 3 3 rd h w y x p) = true := by
    intro p hp
    have hmem : p ∈ pixels 3 3 := by
      rw [hpixels]
      simp only [List.mem_append, List.mem_cons] at hp ⊢
      tauto
    obtain ⟨-, -, -, hproduct⟩ := arithmetic_zero (b := posZero) (hfin p hmem) (by decide)
    rw [hterm, hother p hp]
    exact hproduct
  have hsum : convSum .edgeReplicate false ker 3 3 rd h w y x =
      halfDifference (windowSample rd h w y x c) (windowSample rd h w y x e) := by
    rw [convSum_eq_foldl_convTerm, hpixels, foldl_fadd_pair _ hzero, hterm, hterm, hc, he, halfDifference]
    · rw [hterm, hc]
      exact (fmul_half_bound rfl hcfin).1
    · rw [hterm, he]
      exact (fmul_half_bound (by decide) hefin).1
    · rw [hterm, hterm, hc, he]
      exact fadd_halves_finite hcfin hefin
  have hdifference := isFinite_halfDifference hcfin hefin
  rw [convElem, hsum, canonical_of_not_nan (isNaN_eq_false_of_finite hdifference)]
  exact ⟨rfl, hdifference⟩

/-- On a finite window GX is half the difference of the samples to the right and to the left. -/
theorem gradX_of_finite (hfin : WindowFinite rd h w y x) :
    gradX rd h w y x =
        halfDifference (sample .edgeReplicate rd h w y (x + 1)) (sample .edgeReplicate rd h w y (x - 1)) ∧
      isFinite (gradX rd h w y x) = true := by
  have hpair := convElem_of_pair (ker := kernelX) (before := [(0, 0), (0, 1), (0, 2)]) (between := [(1, 1)])
    (after := [(2, 0), (2, 1), (2, 2)]) (c := (1, 0)) (e := (1, 2)) rfl rfl rfl (by decide) hfin
  simpa [gradX, windowSample, tap_flipped, ← sub_eq_add_neg] using hpair

/-- On a finite window GY is half the difference of the samples below and above. -/
theorem gradY_of_finite (hfin : WindowFinite rd h w y x) :
    gradY rd h w y x =
        halfDifference (sample .edgeReplicate rd h w (y + 1) x) (sample .edgeReplicate rd h w (y - 1) x) ∧
      isFinite (gradY rd h w y x) = true := by
  have hpair := convElem_of_pair (ker := kernelY) (before := [(0, 0)])
    (between := [(0, 2), (1, 0), (1, 1), (1, 2), (2, 0)]) (after := [(2, 2)]) (c := (0, 1)) (e := (2, 1))
    rfl rfl rfl (by decide) hfin
  simpa [gradY, windowSample, tap_flipped, ← sub_eq_add_neg] using hpair

/-- No place has a coefficient other than +0.0 in both kernels (43_gradient.md R281). -/
theorem kernelX_or_kernelY_zero (i j : Nat) : kernelX i j = posZero ∨ kernelY i j = posZero := by
  by_cases hrow : i = 1
  · exact .inr (by simp [kernelY, hrow])
  · exact .inl (by simp [kernelX, hrow])

/-- A sample that is not finite makes a NaN of the value of every kernel that weights it with +0.0. -/
theorem convElem_nan {ker : Nat → Nat → F64} {p : Nat × Nat} (hp : p ∈ pixels 3 3) (hzero : ker p.1 p.2 = posZero)
    (hnot : isFinite (windowSample rd h w y x p) = false) :
    isNaN (convElem .edgeReplicate false ker 3 3 rd h w y x) = true := by
  have hterm : isNaN (convTerm .edgeReplicate false ker 3 3 rd h w y x p) = true := by
    have := fmul_posZero_of_not_finite hnot
    rwa [← hzero] at this
  rw [convElem, convSum_eq_foldl_convTerm, canonical, if_pos (foldl_fadd_nan_term _ _ hp hterm), isNaN_canonNaN]

/-- Where a sample of the window is not finite one of the derivatives is a NaN. -/
theorem gradX_or_gradY_nan (hnot : ¬ WindowFinite rd h w y x) :
    isNaN (gradX rd h w y x) = true ∨ isNaN (gradY rd h w y x) = true := by
  simp only [WindowFinite, not_forall, Bool.not_eq_true] at hnot
  obtain ⟨p, hp, hnot⟩ := hnot
  exact (kernelX_or_kernelY_zero p.1 p.2).imp (fun hx => convElem_nan hp hx hnot) fun hy => convElem_nan hp hy hnot

/-- The samples of a constant image are that constant, in the grid and outside it. -/
theorem sample_constant {c : F64} (hh : 1 ≤ h) (hw : 1 ≤ w) (hconst : ∀ y x, y < h → x < w → rd y x = c)
    (sy sx : Int) : sample .edgeReplicate rd h w sy sx = c := by
  rw [sample_edgeReplicate]
  exact hconst _ _ (clampIndex_lt _ hh) (clampIndex_lt _ hw)

/-- The derivatives of a finite constant image are +0.0 (43_gradient.md R287). -/
theorem grad_constant {c : F64} (hh : 1 ≤ h) (hw : 1 ≤ w) (hc : isFinite c = true)
    (hconst : ∀ y x, y < h → x < w → rd y x = c) : gradX rd h w y x = posZero ∧ gradY rd h w y x = posZero := by
  have hsample := sample_constant hh hw hconst
  have hfin : WindowFinite rd h w y x := fun _ _ => by rw [windowSample, hsample, hc]
  rw [(gradX_of_finite hfin).1, (gradY_of_finite hfin).1]
  simp only [hsample, halfDifference_self hc, and_self]

end

end Sys2Proof.Machine

namespace Sys2Proof

open Sys2Proof.Machine

/-- Settles O20: the kernels are KX and KY, and the cases of a direction are those of its reduction. -/
theorem gradResult : Obligations.GradResult := by
  intro s img mag dir KX KY hwf hready hKX hKY
  obtain ⟨t, hexec, hcompletes, hout⟩ := exec_grad hwf hready
  have hkernelX : kernelX = KX := funext₂ fun i j => by simp [hKX, kernelX]
  have hkernelY : kernelY = KY := funext₂ fun i j => by simp [hKY, kernelY]
  refine ⟨t, hexec, hcompletes, fun y x hy hx => ⟨_, _, _, rfl, rfl, rfl, ?_⟩⟩
  obtain ⟨hmag, hdir⟩ := hout y x hy hx
  rw [gradX, gradY, hkernelX, hkernelY] at hmag hdir
  exact ⟨hmag, fun h => hdir.trans (canonical_deg360_of_nan h),
    fun h => hdir.trans (canonical_deg360_of_negative h), fun h => hdir.trans (canonical_deg360_of_nonneg h)⟩

/-- Settles O31: on a finite window two terms of each sum count; a sample that is not finite is weighted with +0.0
by one of the kernels. -/
theorem gradFiniteWindow : Obligations.GradFiniteWindow := by
  intro s img mag dir S hwf hready hS
  obtain ⟨t, hexec, -, hout⟩ := exec_grad hwf hready
  have hsample : sample .edgeReplicate (rdF s.mem img) img.h img.w = S :=
    funext₂ fun sy sx => (sample_edgeReplicate ..).trans (hS sy sx).symm
  refine ⟨t, hexec, fun y x hy hx => ?_⟩
  obtain ⟨hmag, hdir⟩ := hout y x hy hx
  have hwindow := windowFinite_iff (rd := rdF s.mem img) (h := img.h) (w := img.w) (y := y) (x := x)
  rw [hsample] at hwindow
  refine ⟨fun hfin => ?_, fun ⟨dy, dx, hdy, hdy', hdx, hdx', hnot⟩ => ?_⟩
  · obtain ⟨hgx, hgxfin⟩ := gradX_of_finite (hwindow.2 hfin)
    obtain ⟨hgy, hgyfin⟩ := gradY_of_finite (hwindow.2 hfin)
    rw [hsample] at hgx hgy
    exact ⟨_, _, hgx, hgy, hgxfin, hgyfin, hmag.trans (canonical_fsqrt _), hdir⟩
  · have hnan := gradX_or_gradY_nan (mt hwindow.1 fun hfin => by simp [hfin dy dx hdy hdy' hdx hdx'] at hnot)
    exact ⟨hmag.trans (canonical_gradMag_of_nan hnan),
      hdir.trans (canonical_gradDir_of_nan Config.atan2_admissible hnan)⟩

/-- Settles O32: the derivatives are +0.0, where every ATAN2 is +0.0. -/
theorem gradOfConstantImage : Obligations.GradOfConstantImage := by
  intro s img mag dir c hwf hready hc hconst
  obtain ⟨t, hexec, -, hout⟩ := exec_grad hwf hready
  refine ⟨t, hexec, fun y x hy hx => ?_⟩
  obtain ⟨hgx, hgy⟩ := grad_constant (y := y) (x := x) (by omega) (by omega) hc hconst
  obtain ⟨hmag, hdir⟩ := hout y x hy hx
  rw [hgx, hgy] at hmag hdir
  rw [gradDir, Config.atan2_admissible.posPos] at hdir
  exact ⟨hmag.trans (by decide +kernel), hdir.trans (by decide +kernel)⟩

end Sys2Proof
end

section
/-! SUPPORT. NMS (44_nms.md R300 to R309): what a ready NMS leaves in OUT, when a pixel survives, and why a second
pass over magnitudes none of which is negative changes nothing. -/

namespace Sys2Proof.Machine

/-! ## A ready NMS completes -/

theorem mem_writtenBytes_nms {mag dir out : Grid} {a : Nat} :
    a ∈ writtenBytes (.nms mag dir out) ↔ a ∈ elemBytes out 8 := by
  simp [mem_writtenBytes, operandsOf, scratchSpans]

/-- A ready NMS completes, its memory stays canonical, and every element of OUT holds its value (40_control.md R218,
44_nms.md R300). -/
theorem exec_nms {s : State} {mag dir out : Grid} (hwf : s.mem.wf)
    (hready : Ready s.straps.memSize (.nms mag dir out)) :
    ∃ t, exec (.nms mag dir out) s = .next t ∧ Completes (.nms mag dir out) s t ∧ t.mem.wf ∧
      ∀ y x, y < mag.h → x < mag.w →
        rdF t.mem out y x = nmsElem (rdF s.mem mag) (rdF s.mem dir) mag.h mag.w y x := by
  have hvalid := validate_none_iff_ready.2 hready
  obtain ⟨-, ⟨houth, houtw⟩, -, -, ⟨-, -, -, -, hrow, -⟩, -⟩ := hready
  refine ⟨_, rfl, State.attempt_completes hvalid fun a ha => ?_, ?_, fun y x hy hx => ?_⟩
  · rwa [mem_writtenBytes_nms, ← nmsCells_keys]
  · rw [State.attempt_of_none hvalid]
    exact Memory.writeCells_wf hwf _
  · rw [State.attempt_of_none hvalid]
    exact rdF_cellsF hwf _ hrow (houth ▸ hy) (houtw ▸ hx)

/-- A command that completes leaves the straps. -/
theorem Completes.straps_eq {i : Instr} {s t : State} (h : Completes i s t) : t.straps = s.straps := by
  obtain ⟨ht, -⟩ := h
  exact (congrArg State.straps ht).trans rfl

/-- A command that completes leaves the elements of every grid whose span it does not write. -/
theorem Completes.rdF_eq {i : Instr} {s t : State} (h : Completes i s t) {g : Grid}
    (hout : ∀ a ∈ writtenBytes i, a < g.base ∨ gridEnd g 8 ≤ a) {y x : Nat} (hy : y < g.h) (hx : x < g.w) :
    rdF t.mem g y x = rdF s.mem g y x := by
  obtain ⟨-, hframe⟩ := h
  obtain ⟨hlo, hhi⟩ := elem_in_span (es := 8) hy hx
  have hread : ∀ a, elemAddr g 8 y x ≤ a → a < elemAddr g 8 y x + 8 → t.mem.read a = s.mem.read a :=
    fun a ha ha' => hframe a fun hmem => by
      have := hout a hmem
      omega
  rw [rdF, rdF, Memory.readLE_congr hread]

/-- A ready NMS leaves the directions it reads. -/
theorem Completes.rdF_nms_dir {s t : State} {mag dir out : Grid} (h : Completes (.nms mag dir out) s t)
    (hready : Ready s.straps.memSize (.nms mag dir out)) {y x : Nat} (hy : y < mag.h) (hx : x < mag.w) :
    rdF t.mem dir y x = rdF s.mem dir y x := by
  obtain ⟨⟨hdirh, hdirw⟩, -, -, -, -, -, hapart⟩ := hready
  refine h.rdF_eq (fun a ha => ?_) (hdirh ▸ hy) (hdirw ▸ hx)
  obtain ⟨hlo, hhi⟩ := elemBytes_in_span (mem_writtenBytes_nms.1 ha)
  omega

/-! ## The pixels that survive (44_nms.md R301 to R306) -/

/-- The two neighbours compared lie opposite each other. -/
theorem neighbourA_eq_neg (q : Nat) : neighbourA q = -neighbourB q := by
  rw [neighbourA, neighbourB]
  split_ifs <;> rfl

/-- The table of R302, its second neighbour as one clause per bin. -/
theorem neighbourB_eq {q : Nat} {d : Int × Int} (hq : q < 4) (h0 : q = 0 → d = (0, 1)) (h1 : q = 1 → d = (1, -1))
    (h2 : q = 2 → d = (1, 0)) (h3 : q = 3 → d = (1, 1)) : neighbourB q = d := by
  rw [neighbourB]
  split_ifs with hq0 hq1 hq2
  · exact (h0 hq0).symm
  · exact (h1 hq1).symm
  · exact (h2 hq2).symm
  · exact (h3 (by omega)).symm

section
variable {mag dir : Nat → Nat → F64} {h w y x : Nat}

/-- The pixel is not below the two padded magnitudes at the offset `d` from it, on either side. -/
abbrev NotBelow (mag : Nat → Nat → F64) (h w y x : Nat) (d : Int × Int) : Prop :=
  fge (mag y x) (padded mag h w (y - d.1) (x - d.2)) = true ∧
    fge (mag y x) (padded mag h w (y + d.1) (x + d.2)) = true

/-- The pixel survives: its direction is finite, and neither neighbour of its bin is larger. -/
abbrev Survives (mag dir : Nat → Nat → F64) (h w y x : Nat) : Prop :=
  isFinite (dir y x) = true ∧ NotBelow mag h w y x (neighbourB (directionBin (dir y x)))

/-- What NMS writes: a pixel that survives keeps its bits, every other becomes +0.0. -/
theorem nmsElem_eq : nmsElem mag dir h w y x = if Survives mag dir h w y x then mag y x else posZero := by
  rw [nmsElem, neighbourA_eq_neg]
  by_cases hfin : isFinite (dir y x) = true
  · simp [Survives, NotBelow, hfin, sub_eq_add_neg]
  · simp [Survives, hfin]

theorem nmsElem_eq_or_posZero : nmsElem mag dir h w y x = mag y x ∨ nmsElem mag dir h w y x = posZero := by
  rw [nmsElem_eq]
  exact ite_eq_or_eq ..

/-- Only the magnitudes of the grid and the pixel's own direction count. -/
theorem nmsElem_congr {mag' dir' : Nat → Nat → F64} (hmag : ∀ y x, y < h → x < w → mag' y x = mag y x)
    (hdir : dir' y x = dir y x) (hy : y < h) (hx : x < w) :
    nmsElem mag' dir' h w y x = nmsElem mag dir h w y x := by
  have hpadded : padded mag' h w = padded mag h w := by
    funext v u
    rw [padded, padded]
    split_ifs
    · exact hmag _ _ (by omega) (by omega)
    · rfl
  simp only [nmsElem, hpadded, hdir, hmag y x hy hx]

/-! ## Thinning (44_nms.md R303, R309) -/

theorem fge_refl {v : F64} (hv : isNaN v = false) : fge v v = true := (fge_iff hv hv).2 le_rfl

theorem not_nan_of_fge {a b : F64} (hab : fge a b = true) : isNaN a = false ∧ isNaN b = false := by
  simp only [fge, Bool.and_eq_true, Bool.not_eq_true'] at hab
  exact hab.1

theorem fge_trans {a b c : F64} (hab : fge a b = true) (hbc : fge b c = true) : fge a c = true := by
  obtain ⟨ha, hb⟩ := not_nan_of_fge hab
  obtain ⟨-, hc⟩ := not_nan_of_fge hbc
  exact (fge_iff ha hc).2 (((fge_iff hb hc).1 hbc).trans ((fge_iff ha hb).1 hab))

/-- No pixel that is not negative increases. -/
theorem fge_nmsElem (hpos : fge (mag y x) posZero = true) : fge (mag y x) (nmsElem mag dir h w y x) = true := by
  rcases nmsElem_eq_or_posZero (mag := mag) (dir := dir) (h := h) (w := w) (y := y) (x := x) with heq | heq
  · rw [heq]
    exact fge_refl (not_nan_of_fge_posZero hpos)
  · rwa [heq]

/-- The padding is the same around both fields, so no padded magnitude increases. -/
theorem fge_padded_nmsElem (hpos : ∀ y x, y < h → x < w → fge (mag y x) posZero = true) (v u : Int) :
    fge (padded mag h w v u) (padded (nmsElem mag dir h w) h w v u) = true := by
  rw [padded, padded]
  split_ifs
  · exact fge_nmsElem (hpos _ _ (by omega) (by omega))
  · exact fge_refl isNaN_posZero

/-- A pixel that survives does so again: it keeps its bits, and neither neighbour increases. -/
theorem survives_nmsElem (hpos : ∀ y x, y < h → x < w → fge (mag y x) posZero = true)
    (hsurvives : Survives mag dir h w y x) : Survives (nmsElem mag dir h w) dir h w y x := by
  have hkeep : nmsElem mag dir h w y x = mag y x := by rw [nmsElem_eq, if_pos hsurvives]
  obtain ⟨hfin, hfirst, hsecond⟩ := hsurvives
  refine ⟨hfin, ?_, ?_⟩
  · rw [hkeep]
    exact fge_trans hfirst (fge_padded_nmsElem hpos _ _)
  · rw [hkeep]
    exact fge_trans hsecond (fge_padded_nmsElem hpos _ _)

/-- Where no magnitude is negative or a NaN, a second pass changes nothing: a survivor survives again, and a
suppressed pixel is +0.0 either way. -/
theorem nmsElem_idempotent (hpos : ∀ y x, y < h → x < w → fge (mag y x) posZero = true) :
    nmsElem (nmsElem mag dir h w) dir h w y x = nmsElem mag dir h w y x := by
  by_cases hsurvives : Survives mag dir h w y x
  · rw [nmsElem_eq, if_pos (survives_nmsElem hpos hsurvives)]
  · have hzero : nmsElem mag dir h w y x = posZero := by rw [nmsElem_eq, if_neg hsurvives]
    rw [hzero]
    exact nmsElem_eq_or_posZero.elim (·.trans hzero) id

end

end Sys2Proof.Machine

namespace Sys2Proof

open Sys2Proof.Machine

/-- Settles O21: the bin names the offset, and a pixel survives as R305 says. -/
theorem nmsResult : Obligations.NmsResult := by
  intro s mag dir out P hwf hready hP
  obtain ⟨t, hexec, hcompletes, -, hout⟩ := exec_nms hwf hready
  have hpadded : padded (rdF s.mem mag) mag.h mag.w = P := funext₂ fun v u => (hP v u).symm
  refine ⟨t, hexec, hcompletes, fun y x hy hx => ?_⟩
  rw [hout y x hy hx, nmsElem_eq]
  refine ⟨fun hnot => if_neg fun ⟨hfin, _⟩ => by simp [hfin] at hnot,
    fun hfin q dy dx hq h0 h1 h2 h3 => if_congr ?_ rfl rfl⟩
  have hbin : directionBin (rdF s.mem dir y x) = q := by
    rw [directionBin, hq, Int.toNat_natCast]
  rw [Survives, NotBelow, hbin, neighbourB_eq (by omega) h0 h1 h2 h3, hpadded]
  exact and_iff_right hfin

/-- Settles O35: the first pass leaves the directions, so the second reads them and the thinned field. -/
theorem nmsThinsOnce : Obligations.NmsThinsOnce := by
  intro s mag dir out again hwf hready hagain
  obtain ⟨t, hexec, hcompletes, hwft, hout⟩ := exec_nms hwf hready
  obtain ⟨u, hexecu, -, -, houtu⟩ := exec_nms hwft (hcompletes.straps_eq ▸ hagain)
  have hdir := fun y x => hcompletes.rdF_nms_dir hready (y := y) (x := x)
  obtain ⟨-, ⟨houth, houtw⟩, -⟩ := hready
  rw [houth, houtw] at houtu
  refine ⟨t, u, hexec, hexecu, fun y x hy hx => ?_, fun y x hy hx hpos => ?_, fun hpos y x hy hx => ?_⟩
  · rw [hout y x hy hx]
    exact nmsElem_eq_or_posZero
  · rw [hout y x hy hx]
    exact fge_nmsElem hpos
  · rw [houtu y x hy hx, hout y x hy hx, nmsElem_congr hout (hdir y x hy hx) hy hx]
    exact nmsElem_idempotent hpos

end Sys2Proof
end

section
/-! SUPPORT. DTHR (45_threshold.md R320 to R326): what a ready DTHR leaves in STRONG and WEAK, and the two classes of
a pixel as comparisons of its value with the thresholds. -/

namespace Sys2Proof.Machine

/-! ## A ready DTHR completes -/

theorem mem_writtenBytes_dthr {img strong weak : Grid} {high low : F64} {a : Nat} :
    a ∈ writtenBytes (.dthr img strong weak high low) ↔ a ∈ elemBytes strong 1 ∨ a ∈ elemBytes weak 1 := by
  simp [mem_writtenBytes, operandsOf, scratchSpans]

/-- The byte of a MASK8 element outside the span of the grid written reads as before. -/
theorem read_gridCells_mask_other (m : Memory) {g k : Grid} {es y x : Nat} (f : Nat → Nat → Nat) (hy : y < k.h)
    (hx : x < k.w) (hapart : GridsApart g es k 1) :
    (m.writeCells (gridCells g es f)).read (elemAddr k 1 y x) = m.read (elemAddr k 1 y x) :=
  read_gridCells_other m f fun hmem => by
    have := elemBytes_in_span hmem
    have := elem_in_span (es := 1) hy hx
    omega

/-- A ready DTHR completes, and every mask byte holds the class of its pixel: STRONG and WEAK share no byte
(40_control.md R218, 45_threshold.md R320). -/
theorem exec_dthr {s : State} {img strong weak : Grid} {high low : F64} (hwf : s.mem.wf)
    (hready : Ready s.straps.memSize (.dthr img strong weak high low)) :
    ∃ t, exec (.dthr img strong weak high low) s = .next t ∧ Completes (.dthr img strong weak high low) s t ∧
      ∀ y x, y < img.h → x < img.w →
        t.mem.read (elemAddr strong 1 y x) = (if isStrong high (rdF s.mem img y x) then 0x01 else 0x00) ∧
        t.mem.read (elemAddr weak 1 y x) = (if isWeak high low (rdF s.mem img y x) then 0x01 else 0x00) := by
  have hvalid := validate_none_iff_ready.2 hready
  obtain ⟨-, ⟨hstrongh, hstrongw⟩, ⟨hweakh, hweakw⟩, -, ⟨-, -, -, -, hstrongrow, -⟩, ⟨-, -, -, -, hweakrow, -⟩,
    -, -, hapart⟩ := hready
  refine ⟨_, rfl, State.attempt_completes hvalid fun a ha => ?_, fun y x hy hx => ?_⟩
  · rwa [mem_writtenBytes_dthr, ← List.mem_append, ← dthrCells_keys]
  · rw [State.attempt_of_none hvalid, State.complete_mem, dthrCells, Memory.writeCells_append]
    have hweaky : y < weak.h := hweakh ▸ hy
    have hweakx : x < weak.w := hweakw ▸ hx
    exact ⟨read_cellsM (Memory.writeCells_wf hwf _) _ hstrongrow (hstrongh ▸ hy) (hstrongw ▸ hx),
      (read_gridCells_mask_other _ _ hweaky hweakx hapart).trans (read_cellsM hwf _ hweakrow hweaky hweakx)⟩

/-! ## The two classes (45_threshold.md R321, R322) -/

section
variable {high low v : F64}

theorem isWeak_iff : isWeak high low v = true ↔ fge v high = false ∧ fge v low = true := by
  rw [isWeak, isStrong, Bool.and_eq_true, Bool.not_eq_true']

theorem not_nan_of_fgt {a b : F64} (hab : fgt a b = true) : isNaN a = false ∧ isNaN b = false := by
  simp only [fgt, Bool.and_eq_true, Bool.not_eq_true'] at hab
  exact hab.1

/-- The two comparisons are complementary off NaN. -/
theorem flt_iff_not_fge {a b : F64} (ha : isNaN a = false) (hb : isNaN b = false) :
    flt a b = true ↔ fge a b = false := by
  rw [flt_iff ha hb, ← Bool.not_eq_true, fge_iff ha hb, not_le]

/-- Below a HIGH that is no NaN, a weak pixel is one between the thresholds; a NaN is neither. -/
theorem isWeak_iff_between (hhigh : isNaN high = false) :
    isWeak high low v = true ↔ fge v low = true ∧ flt v high = true := by
  rw [isWeak_iff, and_comm]
  refine and_congr_right fun hlow => ?_
  obtain ⟨hv, -⟩ := not_nan_of_fge hlow
  exact (flt_iff_not_fge hv hhigh).symm

theorem not_strong_and_weak : ¬ (isStrong high v = true ∧ isWeak high low v = true) := by
  rintro ⟨hstrong, hweak⟩
  obtain ⟨hnot, -⟩ := isWeak_iff.1 hweak
  exact absurd (hnot.symm.trans hstrong) Bool.false_ne_true

/-- A NaN is in neither class: it compares false with both thresholds. -/
theorem not_strong_not_weak_of_nan (hv : isNaN v = true) : isStrong high v = false ∧ isWeak high low v = false := by
  obtain ⟨hhigh, -, -⟩ := compare_nan (b := high) (.inl hv)
  obtain ⟨hlow, -, -⟩ := compare_nan (b := low) (.inl hv)
  exact ⟨hhigh, by rw [isWeak, hlow, Bool.and_false]⟩

end

/-! ## The byte of a mask element (20_memory.md R107) -/

theorem maskByte_eq_one_iff {b : Bool} : (if b then 0x01 else 0x00 : Byte) = 0x01 ↔ b = true := by
  cases b <;> decide

theorem maskByte_eq_zero_iff {b : Bool} : (if b then 0x01 else 0x00 : Byte) = 0x00 ↔ b = false := by
  cases b <;> decide

end Sys2Proof.Machine

namespace Sys2Proof

open Sys2Proof.Machine

/-- Settles O22: the mask bytes are the two classes, and a weak pixel is one that is not strong. -/
theorem dthrResult : Obligations.DthrResult := by
  intro s img strong weak high low hwf hready
  obtain ⟨t, hexec, hcompletes, hmasks⟩ := exec_dthr hwf hready
  refine ⟨t, hexec, hcompletes, fun y x hy hx => ?_⟩
  obtain ⟨hstrong, hweak⟩ := hmasks y x hy hx
  exact ⟨hstrong, hweak.trans (if_congr isWeak_iff rfl rfl)⟩

/-- Settles O36: HIGH passed step B and so is no NaN, which makes weak the same as between the thresholds. -/
theorem dthrPartition : Obligations.DthrPartition := by
  intro s img strong weak high low hwf hready
  obtain ⟨t, hexec, -, hmasks⟩ := exec_dthr hwf hready
  obtain ⟨⟨hthresholds, -⟩, -⟩ := hready
  obtain ⟨hhigh, -⟩ := not_nan_of_fgt hthresholds
  refine ⟨t, hexec, fun y x hy hx => ⟨_, _, _, rfl, rfl, rfl, ?_⟩⟩
  obtain ⟨hstrong, hweak⟩ := hmasks y x hy hx
  rw [hstrong, hweak, maskByte_eq_one_iff, maskByte_eq_one_iff, maskByte_eq_zero_iff, maskByte_eq_zero_iff]
  have hbetween := isWeak_iff_between (low := low) (v := rdF s.mem img y x) hhigh
  exact ⟨Bool.eq_false_or_eq_true _, Bool.eq_false_or_eq_true _, not_strong_and_weak, id, hbetween.1,
    fun _ => ⟨Iff.rfl, hbetween⟩, not_strong_not_weak_of_nan⟩

end Sys2Proof
end

section
/-! SUPPORT. LINK (46_link.md R340 to R348): what a ready LINK leaves in OUT, and the two sets that linking computes,
the single hop of R341 and the path form of R343 as what is left when the rounds add nothing. -/

namespace Sys2Proof.Machine

/-! ## A ready LINK completes -/

theorem mem_writtenBytes_link {full : Bool} {strong weak out : Grid} {a : Nat} :
    a ∈ writtenBytes (.link full strong weak out) ↔ a ∈ elemBytes out 1 := by
  simp [mem_writtenBytes, operandsOf, scratchSpans]

/-- A ready LINK completes, and every byte of OUT says whether its pixel is linked (40_control.md R218,
46_link.md R346). -/
theorem exec_link {s : State} {full : Bool} {strong weak out : Grid} (hwf : s.mem.wf)
    (hready : Ready s.straps.memSize (.link full strong weak out)) :
    ∃ t, exec (.link full strong weak out) s = .next t ∧ Completes (.link full strong weak out) s t ∧
      ∀ y x, y < out.h → x < out.w → t.mem.read (elemAddr out 1 y x) =
        if (linkSet full (rdM s.mem strong) (rdM s.mem weak) out.h out.w).contains (y, x) then 0x01 else 0x00 := by
  have hvalid := validate_none_iff_ready.2 hready
  obtain ⟨-, ⟨houth, houtw⟩, -, -, ⟨-, -, -, -, hrow, -⟩, -⟩ := hready
  refine ⟨_, rfl, State.attempt_completes hvalid fun a ha => ?_, fun y x hy hx => ?_⟩
  · rwa [mem_writtenBytes_link, ← linkCells_keys]
  · rw [State.attempt_of_none hvalid, houth, houtw]
    exact read_cellsM hwf _ hrow hy hx

/-- A byte written as a mask element reads as the truth value written. -/
theorem rdM_of_maskByte {m : Memory} {g : Grid} {y x : Nat} {b : Bool}
    (hread : m.read (elemAddr g 1 y x) = if b then 0x01 else 0x00) : rdM m g y x = b := by
  rw [rdM, hread]
  cases b <;> decide

/-! ## Neighbours (46_link.md R344) -/

theorem mem_neighbourOffsets {d : Int × Int} :
    d ∈ neighbourOffsets ↔ d ≠ (0, 0) ∧ -1 ≤ d.1 ∧ d.1 ≤ 1 ∧ -1 ≤ d.2 ∧ d.2 ≤ 1 := by
  obtain ⟨dy, dx⟩ := d
  simp only [neighbourOffsets, List.mem_cons, List.not_mem_nil, or_false, ne_eq, Prod.mk.injEq]
  omega

/-- N8(p) is the adjacent pixels of the grid. -/
theorem mem_neighbours8 {h w : Nat} {p q : Nat × Nat} :
    q ∈ neighbours8 h w p ↔ (q.1 < h ∧ q.2 < w) ∧ Adjacent q p := by
  obtain ⟨y, x⟩ := p
  obtain ⟨v, u⟩ := q
  simp only [neighbours8, List.mem_filterMap, mem_neighbourOffsets, Option.ite_none_right_eq_some, Option.some.injEq,
    Prod.exists, Prod.mk.injEq, Adjacent, ne_eq]
  constructor
  · rintro ⟨dy, dx, hd, hin, hv, hu⟩
    omega
  · intro hq
    exact ⟨(v : Int) - y, (u : Int) - x, by omega, by omega, by omega, by omega⟩

/-! ## One round (46_link.md R341, R342) -/

section
variable {strong weak : Nat → Nat → Bool} {h w : Nat} {p q : Nat × Nat} {X Y : List (Nat × Nat)}

theorem mem_linkSeeds : p ∈ linkSeeds strong h w ↔ (p.1 < h ∧ p.2 < w) ∧ strong p.1 p.2 = true := by
  rw [linkSeeds, List.mem_filter, mem_pixels]

theorem mem_linkStep : p ∈ linkStep strong weak h w X ↔ (p.1 < h ∧ p.2 < w) ∧
    (strong p.1 p.2 = true ∨ weak p.1 p.2 = true ∧ ∃ q, ((q.1 < h ∧ q.2 < w) ∧ Adjacent q p) ∧ q ∈ X) := by
  simp only [linkStep, List.mem_filter, mem_pixels, Bool.or_eq_true, Bool.and_eq_true, List.any_eq_true,
    mem_neighbours8, List.contains_iff_mem]

theorem linkStep_length_le : (linkStep strong weak h w X).length ≤ h * w :=
  (List.length_filter_le _ _).trans (pixels_length h w).le

/-- A round is monotone, and keeps the row order. -/
theorem linkStep_sublist (hXY : X ⊆ Y) : (linkStep strong weak h w X).Sublist (linkStep strong weak h w Y) := by
  refine List.monotone_filter_right _ fun p hp => ?_
  simp only [Bool.or_eq_true, Bool.and_eq_true, List.any_eq_true, List.contains_iff_mem] at hp ⊢
  exact hp.imp_right fun ⟨hweak, q, hq, hqX⟩ => ⟨hweak, q, hq, hXY hqX⟩

theorem linkSeeds_subset_linkStep : linkSeeds strong h w ⊆ linkStep strong weak h w X := fun _ hp =>
  mem_linkStep.2 ((mem_linkSeeds.1 hp).imp_right .inl)

/-! ## The rounds (46_link.md R342) -/

/-- What holds at the start and is kept by a round holds after the rounds. -/
theorem linkRounds_induction {P : List (Nat × Nat) → Prop} (hstep : ∀ X, P X → P (linkStep strong weak h w X))
    (n : Nat) (hX : P X) : P (linkRounds strong weak h w n X) := by
  induction n generalizing X with
  | zero => exact hX
  | succ n ih =>
    rw [linkRounds]
    split_ifs
    · exact hX
    · exact ih (hstep X hX)

/-- Rounds that may each add a pixel to fill the grid end at a fixed point: a round that is not the last adds one. -/
theorem linkStep_linkRounds {n : Nat} (hgrow : X.Sublist (linkStep strong weak h w X)) (hn : h * w ≤ n + X.length) :
    linkStep strong weak h w (linkRounds strong weak h w n X) = linkRounds strong weak h w n X := by
  induction n generalizing X with
  | zero =>
    have hfull := (linkStep_length_le (strong := strong) (weak := weak) (X := X)).trans hn
    exact (hgrow.eq_of_length_le (hfull.trans_eq (Nat.zero_add _))).symm
  | succ n ih =>
    rw [linkRounds]
    split_ifs with hfix
    · exact hfix
    · have hadded : X.length < (linkStep strong weak h w X).length :=
        lt_of_not_ge fun hle => hfix (hgrow.eq_of_length_le hle).symm
      exact ih (linkStep_sublist hgrow.subset) (by omega)

/-- The rounds of LINK.FULL end at a fixed point. -/
theorem linkStep_linkSet_full :
    linkStep strong weak h w (linkSet true strong weak h w) = linkSet true strong weak h w :=
  linkStep_linkRounds (linkStep_sublist linkSeeds_subset_linkStep) (Nat.le_add_right _ _)

/-! ## The single hop (46_link.md R341) -/

/-- The pixel is strong, or weak with a strong pixel in its neighbourhood. -/
abbrev LinkedOnce (strong weak : Nat → Nat → Bool) (h w : Nat) (p : Nat × Nat) : Prop :=
  strong p.1 p.2 = true ∨ (weak p.1 p.2 = true ∧
    ∃ y x, y < h ∧ x < w ∧ Adjacent (y, x) p ∧ strong y x = true)

theorem mem_linkSet_once (hp : p.1 < h ∧ p.2 < w) :
    p ∈ linkSet false strong weak h w ↔ LinkedOnce strong weak h w p := by
  have hset : linkSet false strong weak h w = linkStep strong weak h w (linkSeeds strong h w) := rfl
  rw [hset, mem_linkStep, and_iff_right hp]
  simp only [mem_linkSeeds, LinkedOnce, Prod.exists]
  refine or_congr_right (and_congr_right fun _ => exists₂_congr fun y x => ?_)
  tauto

/-! ## The path form (46_link.md R343) -/

/-- A step of a chain: to a neighbour in the grid that is weak or strong. -/
abbrev LinkHop (strong weak : Nat → Nat → Bool) (h w : Nat) (p q : Nat × Nat) : Prop :=
  Adjacent p q ∧ q.1 < h ∧ q.2 < w ∧ (weak q.1 q.2 = true ∨ strong q.1 q.2 = true)

/-- The pixel is strong, or weak and the end of a chain from a strong pixel. -/
abbrev LinkedByPath (strong weak : Nat → Nat → Bool) (h w : Nat) (p : Nat × Nat) : Prop :=
  strong p.1 p.2 = true ∨ (weak p.1 p.2 = true ∧
    ∃ q : Nat × Nat, q.1 < h ∧ q.2 < w ∧ strong q.1 q.2 = true ∧
      Relation.TransGen (LinkHop strong weak h w) q p)

/-- A weak pixel next to the end of a path ends a path itself. -/
theorem LinkedByPath.of_adjacent (hq : LinkedByPath strong weak h w q) (hqin : q.1 < h ∧ q.2 < w)
    (hadj : Adjacent q p) (hpin : p.1 < h ∧ p.2 < w) (hweak : weak p.1 p.2 = true) :
    LinkedByPath strong weak h w p := by
  have hhop : LinkHop strong weak h w q p := ⟨hadj, hpin.1, hpin.2, .inl hweak⟩
  rcases hq with hstrong | ⟨-, r, hrh, hrw, hstrong, hchain⟩
  · exact .inr ⟨hweak, q, hqin.1, hqin.2, hstrong, .single hhop⟩
  · exact .inr ⟨hweak, r, hrh, hrw, hstrong, .tail hchain hhop⟩

/-- A round adds ends of paths only. -/
theorem linkedByPath_of_mem_linkStep (hX : ∀ q ∈ X, LinkedByPath strong weak h w q)
    (hp : p ∈ linkStep strong weak h w X) : LinkedByPath strong weak h w p := by
  obtain ⟨hpin, hstrong | ⟨hweak, q, ⟨hqin, hadj⟩, hqX⟩⟩ := mem_linkStep.1 hp
  · exact .inl hstrong
  · exact (hX q hqX).of_adjacent hqin hadj hpin hweak

/-- A step of a chain does not leave a fixed point. -/
theorem mem_of_linkHop (hfix : linkStep strong weak h w X = X) (hq : q ∈ X) (hhop : LinkHop strong weak h w q p) :
    p ∈ X := by
  obtain ⟨hadj, hph, hpw, hmarked⟩ := hhop
  have hround : q ∈ linkStep strong weak h w X := by rwa [hfix]
  obtain ⟨hqin, -⟩ := mem_linkStep.1 hround
  rw [← hfix]
  exact mem_linkStep.2 ⟨⟨hph, hpw⟩, hmarked.symm.imp_right fun hweak => ⟨hweak, q, ⟨hqin, hadj⟩, hq⟩⟩

/-- A fixed point holds the end of every chain that starts in it. -/
theorem mem_of_chain (hfix : linkStep strong weak h w X = X) (hq : q ∈ X)
    (hchain : Relation.TransGen (LinkHop strong weak h w) q p) : p ∈ X := by
  induction hchain with
  | single hlast => exact mem_of_linkHop hfix hq hlast
  | tail _ hlast ih => exact mem_of_linkHop hfix ih hlast

theorem mem_linkSet_full (hp : p.1 < h ∧ p.2 < w) :
    p ∈ linkSet true strong weak h w ↔ LinkedByPath strong weak h w p := by
  constructor
  · refine linkRounds_induction (P := fun X => ∀ q ∈ X, LinkedByPath strong weak h w q)
      (fun X hX q => linkedByPath_of_mem_linkStep hX) _ (fun q => linkedByPath_of_mem_linkStep fun q hq => ?_) p
    exact .inl (mem_linkSeeds.1 hq).2
  · have hstrong : ∀ q : Nat × Nat, q.1 < h ∧ q.2 < w → strong q.1 q.2 = true → q ∈ linkSet true strong weak h w :=
      fun q hq hs => linkStep_linkSet_full ▸ mem_linkStep.2 ⟨hq, .inl hs⟩
    rintro (hs | ⟨-, q, hqh, hqw, hs, hchain⟩)
    · exact hstrong p hp hs
    · exact mem_of_chain linkStep_linkSet_full (hstrong q ⟨hqh, hqw⟩ hs) hchain

/-! ## The two forms compared (46_link.md R347) -/

theorem LinkedOnce.linkedByPath (hp : p.1 < h ∧ p.2 < w) (hlinked : LinkedOnce strong weak h w p) :
    LinkedByPath strong weak h w p :=
  hlinked.imp_right fun ⟨hweak, y, x, hy, hx, hadj, hstrong⟩ =>
    ⟨hweak, (y, x), hy, hx, hstrong, .single ⟨hadj, hp.1, hp.2, .inl hweak⟩⟩

theorem LinkedByPath.marked (hlinked : LinkedByPath strong weak h w p) :
    strong p.1 p.2 = true ∨ weak p.1 p.2 = true :=
  hlinked.imp_right And.left

end

end Sys2Proof.Machine

namespace Sys2Proof

open Sys2Proof.Machine

/-- Settles O23: the linked set is one round from the strong pixels. -/
theorem linkSingleHop : Obligations.LinkSingleHop := by
  intro s strong weak out hwf hready
  obtain ⟨t, hexec, hcompletes, hout⟩ := exec_link hwf hready
  refine ⟨t, hexec, hcompletes, fun y x hy hx => ?_⟩
  rw [hout y x hy hx]
  exact ⟨ite_eq_or_eq .., maskByte_eq_one_iff.trans (List.contains_iff_mem.trans (mem_linkSet_once ⟨hy, hx⟩))⟩

/-- Settles O24: the rounds add ends of paths only, and end at a set that no path leaves. -/
theorem linkFullIsPathForm : Obligations.LinkFullIsPathForm := by
  intro s strong weak out hwf hready
  obtain ⟨t, hexec, hcompletes, hout⟩ := exec_link hwf hready
  refine ⟨t, hexec, hcompletes, fun y x hy hx => ?_⟩
  rw [hout y x hy hx]
  exact ⟨ite_eq_or_eq .., maskByte_eq_one_iff.trans (List.contains_iff_mem.trans (mem_linkSet_full ⟨hy, hx⟩))⟩

/-- Settles O37: a hop is a path, and where every weak pixel is a hop away, linking by paths adds nothing. -/
theorem linkBounds : Obligations.LinkBounds := by
  intro s strong weak out hwf hready
  obtain ⟨t, hexec, -, hout⟩ := exec_link hwf hready
  obtain ⟨u, hexecu, -, houtu⟩ := exec_link (full := true) hwf hready
  have honce : ∀ y x, y < out.h → x < out.w → (rdM t.mem out y x = true ↔
      LinkedOnce (rdM s.mem strong) (rdM s.mem weak) out.h out.w (y, x)) := fun y x hy hx => by
    rw [rdM_of_maskByte (hout y x hy hx), List.contains_iff_mem, mem_linkSet_once ⟨hy, hx⟩]
  have hpath : ∀ y x, y < out.h → x < out.w → (rdM u.mem out y x = true ↔
      LinkedByPath (rdM s.mem strong) (rdM s.mem weak) out.h out.w (y, x)) := fun y x hy hx => by
    rw [rdM_of_maskByte (houtu y x hy hx), List.contains_iff_mem, mem_linkSet_full ⟨hy, hx⟩]
  refine ⟨t, u, hexec, hexecu, fun y x hy hx => ?_, fun hnear y x hy hx => Bool.eq_iff_iff.2 ?_⟩
  · rw [honce y x hy hx, hpath y x hy hx]
    exact ⟨fun hstrong => ⟨.inl hstrong, .inl hstrong⟩, LinkedOnce.linkedByPath ⟨hy, hx⟩, LinkedByPath.marked⟩
  · rw [honce y x hy hx, hpath y x hy hx]
    refine ⟨LinkedOnce.linkedByPath ⟨hy, hx⟩, fun hlinked => ?_⟩
    rcases hlinked.marked with hstrong | hweak
    · exact .inl hstrong
    · exact (hnear y x hy hx hweak).imp_right fun hstrong => ⟨hweak, hstrong⟩

end Sys2Proof
end

section
/-! SUPPORT. ERROR ENTRY at the step (60_exceptions.md R510 to R512): what a failing check of a scalar, a dimension, a
shape, a layout, a span or two spans records, and that nothing else changes. -/

namespace Sys2Proof.Machine

variable {i : Instr} {o : Operand} {e : BlockError}

/-! ## Scalars (40_control.md R212) -/

section
variable {sizeWord sigmaWord highWord lowWord : Nat} {size : Int} {sigma high low : F64}

theorem checkGauss_error (h : checkGauss sizeWord sigmaWord size sigma = some e) :
    (e = badParameter sizeWord ∧ ¬ (1 ≤ size ∧ size ≤ 65535 ∧ size % 2 = 1)) ∨
      (e = badParameter sigmaWord ∧ ¬ fgt sigma posZero = true) := by
  simp only [checkGauss] at h
  split_ifs at h with hsize hsigma <;> cases h
  · exact .inl ⟨rfl, sizeOk_iff.not.1 (by simpa using hsize)⟩
  · exact .inr ⟨rfl, by simpa using hsigma⟩

theorem checkThresholds_error (h : checkThresholds highWord lowWord high low = some e) :
    (e = badParameter highWord ∧ ¬ fgt high low = true) ∨ (e = badParameter lowWord ∧ ¬ flt low posZero = false) := by
  simp only [checkThresholds] at h
  split_ifs at h with hhigh hlow <;> cases h
  · exact .inl ⟨rfl, by simpa using hhigh⟩
  · exact .inr ⟨rfl, by simpa using hlow⟩

end

/-- An error of step B names the word of a scalar that fails its check. -/
theorem checkScalars_error (h : checkScalars i = some e) : ∃ k, e = badParameter k ∧ ¬ ScalarHolds i k := by
  cases i with
  | gauss out size sigma => rcases checkGauss_error h with ⟨rfl, hbad⟩ | ⟨rfl, hbad⟩ <;> exact ⟨_, rfl, hbad⟩
  | dthr img strong weak high low =>
    rcases checkThresholds_error h with ⟨rfl, hbad⟩ | ⟨rfl, hbad⟩ <;> exact ⟨_, rfl, hbad⟩
  | canny full img out scratch params =>
    cases params with
    | defaults => cases h
    | given size sigma high low =>
      rcases Option.or_eq_some_iff.1 h with h | ⟨-, h⟩
      · rcases checkGauss_error h with ⟨rfl, hbad⟩ | ⟨rfl, hbad⟩ <;> exact ⟨_, rfl, hbad⟩
      · rcases checkThresholds_error h with ⟨rfl, hbad⟩ | ⟨rfl, hbad⟩ <;> exact ⟨_, rfl, hbad⟩
  | _ => cases h

/-! ## One operand -/

/-- An error of step C on a grid of a command: CONV's kernel has an even dimension, or another grid a zero one. -/
theorem checkDim_error (ho : o ∈ operandsOf i) (h : checkDim i o = some e) :
    (e = ⟨.invalidKernel, 3, 0⟩ ∧
        ∃ bnd corr img ker out, i = .conv bnd corr img ker out ∧ (ker.h % 2 = 0 ∨ ker.w % 2 = 0)) ∨
      (e = badParameter o.word ∧ isKernel i o.word = false ∧ (o.grid.h = 0 ∨ o.grid.w = 0)) := by
  simp only [checkDim] at h
  split_ifs at h with hker heven hzero <;> cases h
  · obtain ⟨⟨bnd, corr, img, ker, out, rfl⟩, hword⟩ := isKernel_iff.1 hker
    have hgrid : o.grid = ker := by
      simp only [operandsOf, List.mem_cons, List.not_mem_nil, or_false] at ho
      rcases ho with rfl | rfl | rfl
      · cases hword
      · rfl
      · cases hword
    exact .inl ⟨by rw [hword], bnd, corr, img, ker, out, rfl, hgrid ▸ heven⟩
  · exact .inr ⟨rfl, by simpa using hker, hzero⟩

/-- An error of step E names the word and base of a grid with a bad layout, or a misaligned SCRATCH. -/
theorem checkLayout_error (h : checkLayout i = some e) :
    (∃ o ∈ operandsOf i, e = ⟨.layout, o.word, o.grid.base⟩ ∧
        (o.grid.base % o.es ≠ 0 ∨ o.grid.stride % o.es ≠ 0 ∨ o.grid.stride < o.grid.w * o.es)) ∨
      ∃ full img out scratch params,
        i = .canny full img out scratch params ∧ e = ⟨.layout, 5, scratch⟩ ∧ scratch % 8 ≠ 0 := by
  rcases Option.or_eq_some_iff.1 h with h | ⟨-, h⟩
  · obtain ⟨o, ho, h⟩ := List.exists_of_findSome?_eq_some h
    simp only [checkOperandLayout] at h
    split_ifs at h with hbad
    cases h
    exact .inl ⟨o, ho, rfl, hbad⟩
  · cases i with
    | canny full img out scratch params =>
      simp only [checkScratchLayout] at h
      split_ifs at h with hbad
      cases h
      exact .inr ⟨full, img, out, scratch, params, rfl, rfl, hbad⟩
    | _ => cases h

/-! ## Spans -/

theorem checkRange_error {memSize : Nat} (h : checkRange memSize i = some e) :
    ∃ sp ∈ spansOf i, e = ⟨.range, sp.word, sp.lo⟩ ∧ memSize < sp.hi := by
  obtain ⟨sp, hsp, h⟩ := List.exists_of_findSome?_eq_some h
  simp only [checkSpanRange] at h
  split_ifs at h with hbad
  cases h
  exact ⟨sp, hsp, rfl, hbad⟩

/-- An error of step G names a span that meets one before it. -/
theorem checkOverlapFrom_error {earlier l : List Span} (h : checkOverlapFrom earlier l = some e) :
    ∃ before b after, l = before ++ b :: after ∧ e = ⟨.overlap, b.word, b.lo⟩ ∧
      ∃ a ∈ earlier ++ before, SpansMeet a b := by
  induction l generalizing earlier with
  | nil => cases h
  | cons sp rest ih =>
    simp only [checkOverlapFrom] at h
    split_ifs at h with hclash
    · cases h
      obtain ⟨a, ha, hmeet⟩ := List.any_eq_true.1 hclash
      exact ⟨[], sp, rest, rfl, rfl, a, by rwa [List.append_nil], spansClash_true.1 hmeet⟩
    · obtain ⟨before, b, after, rfl, he, a, ha, hmeet⟩ := ih h
      exact ⟨sp :: before, b, after, rfl, he, a, by rwa [List.append_cons], hmeet⟩

/-- The step that an error of the validation comes from; those before it passed (40_control.md R210). -/
theorem validate_error {memSize : Nat} (h : validate i memSize = some e) :
    checkScalars i = some e ∨ (checkScalars i = none ∧ checkDims i = some e) ∨ checkShapes i = some e ∨
      checkLayout i = some e ∨ checkRange memSize i = some e ∨ checkOverlap i = some e := by
  simp only [validate, Option.or_eq_some_iff] at h
  tauto

end Sys2Proof.Machine

namespace Sys2Proof

open Sys2Proof.Machine

/-- Settles O10: a failing fetch or step A, and a failing command, both end in the one error entry. -/
theorem errorEntry : Obligations.ErrorEntry := by
  refine ⟨⟨rfl, rfl, rfl, rfl, rfl, rfl, rfl, rfl⟩, fun s e hnext herror => ?_⟩
  rcases herror with hfetch | ⟨i, hfetch, hi, hinvalid⟩
  · exact step_error hnext hfetch
  · exact (step_ok hnext hfetch).trans (exec_of_error hi hinvalid)

/-- Settles O17, by the step that raises the error. -/
theorem operandErrorRecords : Obligations.OperandErrorRecords := by
  intro i memSize e h
  rcases validate_error h with h | ⟨hscalars, h⟩ | h | h | h | h
  · obtain ⟨k, rfl, hbad⟩ := checkScalars_error h
    exact ⟨rfl, .inl hbad⟩
  · obtain ⟨o, ho, h⟩ := List.exists_of_findSome?_eq_some h
    rcases checkDim_error ho h with ⟨rfl, hconv⟩ | ⟨rfl, hker, hzero⟩
    · exact ⟨rfl, rfl, hconv⟩
    · refine ⟨rfl, .inr ⟨checkScalars_none.1 hscalars, fun bnd corr img ker out hi hword => ?_, o, ho, rfl, hzero⟩⟩
      exact Bool.false_ne_true (hker.symm.trans (isKernel_iff.2 ⟨⟨bnd, corr, img, ker, out, hi⟩, hword⟩))
  · obtain ⟨o, ho, h⟩ := List.exists_of_findSome?_eq_some h
    have hbad : ¬ ShapeHolds o.grid i o.word := fun hgood => by
      cases h.symm.trans (checkShape_none_iff.2 hgood)
    cases (checkShape_error hbad).symm.trans h
    exact ⟨rfl, o, ho, rfl, hbad⟩
  · rcases checkLayout_error h with ⟨o, ho, rfl, hbad⟩ | ⟨full, img, out, scratch, params, hi, rfl, hbad⟩
    · exact .inl ⟨o, ho, rfl, rfl, hbad⟩
    · exact .inr ⟨full, img, out, scratch, params, hi, rfl, rfl, hbad⟩
  · obtain ⟨sp, hsp, rfl, hbad⟩ := checkRange_error h
    exact ⟨sp, hsp, rfl, rfl, hbad⟩
  · obtain ⟨earlier, b, after, hspans, rfl, a, ha, hmeet⟩ := checkOverlapFrom_error h
    obtain ⟨before, between, rfl⟩ := List.append_of_mem ha
    exact ⟨before, between, after, a, b, hspans, rfl, rfl, hmeet⟩

end Sys2Proof
end

section
/-! SUPPORT. What a reset leaves of memory (70_reset_and_hazards.md R601, R602). -/

namespace Sys2Proof.Machine

variable {s : State}

theorem resetMove_mem_of_not_completing (h : completing s = none) : (resetMove s).mem = s.mem := by
  simp only [resetMove, h, State.resetRegisters_mem]

/-- Whatever command is found at CMD_PTR, only the bytes it writes may change. -/
theorem resetMove_read_of_unwritten {i : Instr} {a : Nat} (hi : fetchCommand s = .ok i) (ha : a ∉ writtenBytes i) :
    (resetMove s).mem.read a = s.mem.read a := by
  obtain ⟨m, n, heq, hw⟩ := resetMove_eq s
  rw [heq, State.resetRegisters_mem]
  refine hw.other a fun ⟨j, hj, haj⟩ => ha ?_
  obtain ⟨-, hfetch, -⟩ := completing_some.1 hj
  cases hi.symm.trans hfetch
  exact haj

end Sys2Proof.Machine

namespace Sys2Proof

open Sys2Proof.Machine

/-- Settles O57: memory may change only where a command is in flight, and there only in the bytes it writes. -/
theorem resetKeepsMemory : Obligations.ResetKeepsMemory := by
  intro s t rest hwf hmoves hstep
  cases (step_move hmoves).symm.trans hstep
  have hidle (h : ∀ i, completing s ≠ some i) : (resetMove { s with moves := rest }).mem = s.mem :=
    resetMove_mem_of_not_completing ((completing_moves s rest).trans (Option.eq_none_iff_forall_ne_some.2 h))
  refine ⟨?_, fun hb => hidle fun i hi => ?_, fun e he => hidle fun i hi => ?_,
    fun i hi hends => hidle fun j hj => ?_, fun i hi a ha => ?_⟩
  · obtain ⟨m, n, heq, hw⟩ := resetMove_eq { s with moves := rest }
    rw [heq]
    exact hw.wf hwf
  · cases hb.symm.trans (completing_some.1 hi).1
  · cases he.symm.trans (completing_some.1 hi).2.1
  · obtain ⟨-, hfetch, hne, hvalid⟩ := completing_some.1 hj
    cases hi.symm.trans hfetch
    exact hends.elim hne fun hfails => hfails hvalid
  · exact resetMove_read_of_unwritten ((fetchCommand_moves s rest).trans hi) ha

end Sys2Proof
end

section
/-! SUPPORT. HOUGH as a whole (47_hough.md R360 to R370): diag_len as the least root, the bin values, the counts as
numbers of pixels, and the votes of the origin. -/

namespace Sys2Proof.Machine

/-! ## diag_len (47_hough.md R361) -/

/-- diag_len is the integer root where that is exact and one more where it is not, so nothing below it will do. -/
theorem diagLen_le {h w d : Nat} (hd : w ^ 2 + h ^ 2 ≤ d ^ 2) : diagLen h w ≤ d := by
  rw [sq d] at hd
  rw [diagLen, isqrt_eq_sqrt]
  split_ifs with hexact
  · rw [← Nat.sqrt_eq d]
    exact Nat.sqrt_le_sqrt hd
  · refine Nat.sqrt_lt.2 (lt_of_le_of_ne hd fun heq => hexact ?_)
    rw [heq, Nat.sqrt_eq]

/-- Both sides of a mask are shorter than its diagonal. -/
theorem max_lt_diagLen {h w : Nat} (hh : 1 ≤ h) (hw : 1 ≤ w) : max h w + 1 ≤ diagLen h w := by
  have hsq := le_sq_diagLen h w
  have hh2 : 0 < h ^ 2 := Nat.pow_pos hh
  have hw2 : 0 < w ^ 2 := Nat.pow_pos hw
  exact max_lt (lt_of_pow_lt_pow_left₀ 2 (Nat.zero_le _) (by omega))
    (lt_of_pow_lt_pow_left₀ 2 (Nat.zero_le _) (by omega))

/-! ## The bin values (47_hough.md R362, R367) -/

/-- A product is written as it is: each branch of the multiplication ends in CANON_NAN, an infinity or a rounding. -/
theorem canonical_fmul (a b : F64) : canonical (fmul a b) = fmul a b := by
  rw [fmul]
  split_ifs
  · exact canonical_canonNaN
  · exact canonical_canonNaN
  · exact canonical_of_not_nan (isNaN_eq_false_of_inf (isInf_packF _))
  · exact canonical_of_not_nan (roundRat_not_nan ..)

theorem canonical_f64 (n : Int) : canonical (f64 n) = f64 n := canonical_of_not_nan (roundRat_not_nan ..)

section
variable {m : Memory} {memSize : Nat} {trunc : Bool} {trig : List (F64 × F64)} {edges acc rhos thetas : Grid} {k : Nat}

/-- RHOS after HOUGH holds the bin values: ACC, written with it, shares no byte with it. -/
theorem rdF_rhos_houghCells (hm : m.wf) (h : Ready memSize (.hough trunc edges acc rhos thetas)) (hk : k < rhos.w) :
    rdF (m.writeCells (houghCells trunc trig edges acc rhos thetas m)) rhos 0 k =
      f64 ((k : Int) - diagLen edges.h edges.w) := by
  obtain ⟨-, -, -, ⟨hrows, -, -, -, hrow, -⟩, -, -, -, -, hacc, -, -⟩ := h
  rw [houghCells, Memory.writeCells_append, Memory.writeCells_append]
  calc rdF _ rhos 0 k = _ := rdF_gridCells_other _ _ hrows hk hacc.symm
    _ = canonical (houghRhoValue edges.h edges.w k) :=
      rdF_cellsF (Memory.writeCells_wf hm _) (fun _ i => canonical (houghRhoValue edges.h edges.w i)) hrow hrows hk
    _ = f64 ((k : Int) - diagLen edges.h edges.w) := canonical_f64 _

/-- THETAS after HOUGH holds the angles: ACC and RHOS, written with it, share no byte with it. -/
theorem rdF_thetas_houghCells (hm : m.wf) (h : Ready memSize (.hough trunc edges acc rhos thetas))
    (hk : k < thetas.w) :
    rdF (m.writeCells (houghCells trunc trig edges acc rhos thetas m)) thetas 0 k =
      fmul (f64 ((k : Int) - 90)) d2r := by
  obtain ⟨-, -, -, -, ⟨hrows, -, -, -, hrow, -⟩, -, -, -, -, hacc, hrhos⟩ := h
  rw [houghCells, Memory.writeCells_append, Memory.writeCells_append]
  calc rdF _ thetas 0 k = _ := rdF_gridCells_other _ _ hrows hk hacc.symm
    _ = _ := rdF_gridCells_other _ _ hrows hk hrhos.symm
    _ = canonical (houghTheta k) := rdF_cellsF hm (fun _ t => canonical (houghTheta t)) hrow hrows hk
    _ = fmul (f64 ((k : Int) - 90)) d2r := canonical_fmul _ _

end

/-! ## The counts (47_hough.md R360, R365, R368) -/

theorem mem_writtenBytes_hough {trunc : Bool} {edges acc rhos thetas : Grid} {a : Nat} :
    a ∈ writtenBytes (.hough trunc edges acc rhos thetas) ↔
      a ∈ elemBytes acc 4 ∨ a ∈ elemBytes rhos 8 ∨ a ∈ elemBytes thetas 8 := by
  simp [mem_writtenBytes, operandsOf, scratchSpans]

/-- A count is the number of the edge pixels whose bin it is. -/
theorem houghCount_eq_card (trunc : Bool) (trig : List (F64 × F64)) (edges : Nat → Nat → Bool) (h w b t : Nat) :
    houghCount trunc trig edges h w b t =
      ((Finset.range h ×ˢ Finset.range w).filter fun p =>
        edges p.1 p.2 = true ∧ houghOffset trunc trig t p.1 p.2 + (diagLen h w : Int) = b).card := by
  rw [houghCount, List.countP_eq_length_filter, ← List.toFinset_card_of_nodup ((edgePixels_nodup edges h w).filter _)]
  congr 1
  ext p
  simp [mem_edgePixels, and_assoc]

/-! ## The origin (47_hough.md R370(b)) -/

theorem f64_zero : f64 0 = posZero := by decide +kernel

/-- A zero is the integer 0 under both roundings. -/
theorem toInteger_of_zero {v : F64} (h : isZero v = true) : truncInt v = 0 ∧ roundEven v = 0 := by
  rw [truncInt_eq_signOf, roundEven_eq_signOf, fixedMag_eq_zero.2 h]
  simp [divEven]

/-- The origin's rho is a zero at every theta of a legal table. -/
theorem isZero_houghRho_origin {trig : List (F64 × F64)} (htrig : trigAdmissible trig = true) (t : Nat) :
    isZero (houghRho trig t 0 0) = true := by
  obtain ⟨hc, hs, -⟩ := trigAt_bounds htrig t
  have hzero {v : F64} (hv : isFinite v = true) : isZero (fmul (f64 (0 : Nat)) v) = true := by
    obtain ⟨-, -, -, hmul⟩ := arithmetic_zero hv (b := posZero) (by decide)
    rwa [Nat.cast_zero, f64_zero]
  have hsum : fixed (fmul (f64 (0 : Nat)) (trigAt trig t).1) + fixed (fmul (f64 (0 : Nat)) (trigAt trig t).2) = 0 := by
    rw [fixed_eq_zero.2 (hzero hc), fixed_eq_zero.2 (hzero hs), add_zero]
  rw [houghRho, fadd_zero_sum (isFinite_of_zero (hzero hc)) (isFinite_of_zero (hzero hs)) hsum]
  split_ifs <;> decide

theorem houghOffset_origin {trig : List (F64 × F64)} (htrig : trigAdmissible trig = true) (trunc : Bool) (t : Nat) :
    houghOffset trunc trig t 0 0 = 0 := by
  obtain ⟨htrunc, heven⟩ := toInteger_of_zero (isZero_houghRho_origin htrig t)
  rw [houghOffset, htrunc, heven, ite_self]

/-- An origin that is the only edge pixel is the one vote of every theta, in the middle bin. -/
theorem houghCount_origin {trig : List (F64 × F64)} (htrig : trigAdmissible trig = true) {edges : Nat → Nat → Bool}
    {h w : Nat} (hh : 1 ≤ h) (hw : 1 ≤ w)
    (honly : ∀ y x, y < h → x < w → (edges y x = true ↔ y = 0 ∧ x = 0)) (trunc : Bool) (b t : Nat) :
    houghCount trunc trig edges h w b t = if b = diagLen h w then 1 else 0 := by
  have hedge : edgePixels edges h w = [(0, 0)] := by
    refine List.perm_singleton.1 ((List.perm_ext_iff_of_nodup (edgePixels_nodup ..) (List.nodup_singleton _)).2 ?_)
    rintro ⟨y, x⟩
    rw [mem_edgePixels, List.mem_singleton, Prod.mk.injEq]
    refine ⟨fun ⟨⟨hy, hx⟩, he⟩ => (honly y x hy hx).1 he, ?_⟩
    rintro ⟨rfl, rfl⟩
    exact ⟨⟨hh, hw⟩, (honly 0 0 hh hw).2 ⟨rfl, rfl⟩⟩
  simp [houghCount, hedge, houghOffset_origin htrig, eq_comm]

end Sys2Proof.Machine

namespace Sys2Proof

open Sys2Proof.Machine

/-- Settles O40: the diagonal is a root of the sum of squares, and the least one. -/
theorem diagLenIsLeast : Obligations.DiagLenIsLeast := by
  refine ⟨fun h w d => ⟨?_, fun ⟨hd, hleast⟩ => ?_⟩, fun h w hh hw => ?_⟩
  · rintro rfl
    exact ⟨le_sq_diagLen h w, fun e he => diagLen_le he⟩
  · exact (diagLen_le hd).antisymm (hleast _ (le_sq_diagLen h w))
  · have hmax := max_lt_diagLen hh hw
    exact ⟨hmax, by omega⟩

/-- Settles O25: the three outputs are apart, and a mask whose diagonal fits has too few pixels for a count to wrap. -/
theorem houghResult : Obligations.HoughResult := by
  intro s trunc edges acc rhos thetas r hwf hready hformed hr
  have ⟨⟨hacch, _⟩, _⟩ := hready
  have hd : diagLen edges.h edges.w ≤ 32767 := by
    simp only [Instr.wellFormed, Grid.wellFormed, Bool.and_eq_true, decide_eq_true_eq] at hformed
    omega
  have hoffset (y x t : Nat) : houghOffset trunc s.straps.trig t y x = r y x t := by
    rw [hr, houghOffset, houghRho, trigAt, posZero, ite_apply]
  refine ⟨_, exec_hough hready, ⟨rfl, fun a ha => Memory.read_writeCells_of_notMem _ ?_⟩, fun b k hb hk => ?_,
    fun k hk => rdF_rhos_houghCells hwf hready hk, fun k hk => rdF_thetas_houghCells hwf hready hk⟩
  · rwa [houghCells_keys, List.mem_append, List.mem_append, ← mem_writtenBytes_hough (trunc := trunc)]
  · rw [State.complete_mem, rdU32_houghCells hwf hready hb hk, Nat.mod_eq_of_lt (houghCount_lt _ _ _ _ _ hd),
      houghCount_eq_card]
    simp only [hoffset]

/-- Settles O38: the origin votes at rho 0 in every column, and no other pixel votes. -/
theorem houghOriginVotes : Obligations.HoughOriginVotes := by
  intro s trunc edges acc rhos thetas hwf hlegal hready honly
  have ⟨⟨_, _, _, hrhosw, _⟩, ⟨hh, hw, _⟩, _⟩ := hready
  refine ⟨_, exec_hough hready, fun b k hb hk => ?_, ?_⟩
  · rw [State.complete_mem, rdU32_houghCells hwf hready hb hk, houghCount_origin hlegal.trig_ok hh hw honly]
    split_ifs <;> rfl
  · rw [State.complete_mem, rdF_rhos_houghCells hwf hready (by omega), sub_self, f64_zero]

end Sys2Proof
end

section
/-! SUPPORT. CANNY (48_canny.md R390 to R397): the scratch region as dense grids one behind the other, the six commands
over them, each ready when CANNY is, and the defaults written out. -/

namespace Sys2Proof.Machine

/-! ## Dense grids -/

/-- A dense grid fills its span. -/
theorem mem_elemBytes_dense {b h w es a : Nat} (hes : 0 < es) :
    a ∈ elemBytes (denseGrid b h w es) es ↔ b ≤ a ∧ a < b + h * w * es := by
  refine ⟨elemBytes_dense, fun ⟨hlo, hhi⟩ => ?_⟩
  have hindex : (a - b) / es < h * w := (Nat.div_lt_iff_lt_mul hes).2 (by omega)
  have hw : 0 < w := Nat.pos_of_ne_zero (by rintro rfl; simp at hindex)
  have helem : elemAddr (denseGrid b h w es) es ((a - b) / es / w) ((a - b) / es % w) = b + (a - b) / es * es := by
    simp only [elemAddr, denseGrid]
    rw [← Nat.mul_assoc, Nat.add_assoc, ← Nat.add_mul, Nat.div_add_mod']
  refine mem_elemBytes.2 ⟨(a - b) / es / w, (a - b) / es % w, (Nat.div_lt_iff_lt_mul hw).2 hindex, Nat.mod_lt _ hw, ?_⟩
  have hdiv := Nat.div_add_mod' (a - b) es
  have hmod := Nat.mod_lt (a - b) hes
  rw [helem]
  omega

/-- A dense grid with rows and columns, aligned and inside memory, passes steps C, E and F. -/
theorem gridPlaced_dense {b h w es memSize : Nat} (hh : 1 ≤ h) (hw : 1 ≤ w) (hbase : b % es = 0)
    (hend : b + h * w * es ≤ memSize) : GridPlaced (denseGrid b h w es) es memSize :=
  ⟨hh, hw, hbase, Nat.mul_mod_left w es, le_rfl, (gridEnd_dense hh).trans_le hend⟩

/-! ## The scratch region (48_canny.md R392) -/

/-- Sets of addresses that fill a range without gaps, in the order of the addresses. -/
inductive Stacked : Nat → List (List Nat) → Nat → Prop where
  | nil (a : Nat) : Stacked a [] a
  | cons {lo mid hi : Nat} {l : List Nat} {L : List (List Nat)} (hle : lo ≤ mid)
      (hmem : ∀ a, a ∈ l ↔ lo ≤ a ∧ a < mid) (hrest : Stacked mid L hi) : Stacked lo (l :: L) hi

section
variable {lo hi : Nat} {L : List (List Nat)}

theorem Stacked.le (h : Stacked lo L hi) : lo ≤ hi := by
  induction h with
  | nil a => exact le_rfl
  | cons hle _ _ ih => exact hle.trans ih

theorem Stacked.mem_iff (h : Stacked lo L hi) (a : Nat) : (∃ l ∈ L, a ∈ l) ↔ lo ≤ a ∧ a < hi := by
  induction h with
  | nil b => simp
  | cons hle hmem hrest ih =>
    have := hrest.le
    simp only [List.mem_cons, exists_eq_or_imp, hmem, ih]
    omega

theorem Stacked.pairwise_disjoint (h : Stacked lo L hi) : L.Pairwise List.Disjoint := by
  induction h with
  | nil b => exact List.Pairwise.nil
  | cons hle hmem hrest ih =>
    refine List.pairwise_cons.2 ⟨fun k hk a ha hak => ?_, ih⟩
    have hfirst := (hmem a).1 ha
    have hlater := (hrest.mem_iff a).1 ⟨k, hk, hak⟩
    omega

/-- A dense grid stacks under what begins at its end. -/
theorem Stacked.dense {b h w es mid : Nat} (hes : 0 < es) (hmid : mid = b + h * w * es) (hrest : Stacked mid L hi) :
    Stacked b (elemBytes (denseGrid b h w es) es :: L) hi :=
  .cons (by omega) (fun _ => by rw [hmid, mem_elemBytes_dense hes]) hrest

end

/-- The seven grids stand one behind the other and fill the region. -/
theorem stacked_scratch (s n h w : Nat) :
    Stacked s [elemBytes (scratchKg s n) 8, elemBytes (scratchSm s n h w) 8, elemBytes (scratchMg s n h w) 8,
      elemBytes (scratchDr s n h w) 8, elemBytes (scratchNm s n h w) 8, elemBytes (scratchSt s n h w) 1,
      elemBytes (scratchWk s n h w) 1] (s + scratchBytes n h w) := by
  have hend : s + scratchBytes n h w = s + 8 * n ^ 2 + 33 * (h * w) + h * w * 1 := by
    rw [scratchBytes]
    ring
  exact .dense (by decide) (by ring) <| .dense (by decide) (by ring) <| .dense (by decide) (by ring) <|
    .dense (by decide) (by ring) <| .dense (by decide) (by ring) <| .dense (by decide) (by ring) <|
    .dense (by decide) hend <| .nil _

/-! ## The six commands over the scratch grids (48_canny.md R393, R394) -/

/-- The parameters in effect pass the checks of GAUSS and DTHR, the defaults as well as checked ones. -/
theorem CannyScalars.effective {p : CannyParams} (h : CannyScalars p) :
    GaussScalars (cannySize p) (cannySigma p) ∧ ThresholdScalars (cannyHigh p) (cannyLow p) := by
  cases p with
  | defaults => decide
  | given size sigma high low => exact h

/-- A grid lies from one address up to another. -/
abbrev Occupies (g : Grid) (es lo hi : Nat) : Prop := g.base = lo ∧ gridEnd g es = hi

section
variable {s n h w memSize : Nat} (hn : 1 ≤ n) (hh : 1 ≤ h) (hw : 1 ≤ w)
include hn hh

/-- The base and the end of each scratch grid. -/
theorem scratch_occupies : Occupies (scratchKg s n) 8 s (s + 8 * n ^ 2) ∧
    Occupies (scratchSm s n h w) 8 (s + 8 * n ^ 2) (s + 8 * n ^ 2 + 8 * (h * w)) ∧
    Occupies (scratchMg s n h w) 8 (s + 8 * n ^ 2 + 8 * (h * w)) (s + 8 * n ^ 2 + 16 * (h * w)) ∧
    Occupies (scratchDr s n h w) 8 (s + 8 * n ^ 2 + 16 * (h * w)) (s + 8 * n ^ 2 + 24 * (h * w)) ∧
    Occupies (scratchNm s n h w) 8 (s + 8 * n ^ 2 + 24 * (h * w)) (s + 8 * n ^ 2 + 32 * (h * w)) ∧
    Occupies (scratchSt s n h w) 1 (s + 8 * n ^ 2 + 32 * (h * w)) (s + 8 * n ^ 2 + 33 * (h * w)) ∧
    Occupies (scratchWk s n h w) 1 (s + 8 * n ^ 2 + 33 * (h * w)) (s + 8 * n ^ 2 + 34 * (h * w)) := by
  refine ⟨⟨rfl, ?_⟩, ⟨rfl, ?_⟩, ⟨rfl, ?_⟩, ⟨rfl, ?_⟩, ⟨rfl, ?_⟩, ⟨rfl, ?_⟩, ⟨rfl, ?_⟩⟩
  · exact (gridEnd_dense hn).trans (by ring)
  all_goals exact (gridEnd_dense hh).trans (by ring)

include hw

/-- The scratch grids of an aligned region inside memory pass steps C, E and F. -/
theorem scratch_placed (halign : s % 8 = 0) (hmem : s + scratchBytes n h w ≤ memSize) :
    GridPlaced (scratchKg s n) 8 memSize ∧ GridPlaced (scratchSm s n h w) 8 memSize ∧
      GridPlaced (scratchMg s n h w) 8 memSize ∧ GridPlaced (scratchDr s n h w) 8 memSize ∧
      GridPlaced (scratchNm s n h w) 8 memSize ∧ GridPlaced (scratchSt s n h w) 1 memSize ∧
      GridPlaced (scratchWk s n h w) 1 memSize := by
  have hsq : n * n = n ^ 2 := (sq n).symm
  rw [scratchBytes] at hmem
  refine ⟨gridPlaced_dense hn hn halign ?_, ?_⟩
  · omega
  refine ⟨gridPlaced_dense hh hw ?_ ?_, gridPlaced_dense hh hw ?_ ?_, gridPlaced_dense hh hw ?_ ?_,
    gridPlaced_dense hh hw ?_ ?_, gridPlaced_dense hh hw ?_ ?_, gridPlaced_dense hh hw ?_ ?_⟩
  all_goals omega

end

section
variable {memSize : Nat} {full : Bool} {img out : Grid} {scratch : Nat} {p : CannyParams}

/-- Where CANNY is ready, each of the six commands over its scratch grids is (48_canny.md R394). -/
theorem canny_stages_ready (hready : Ready memSize (.canny full img out scratch p)) {n h w : Nat}
    (hn : n = (cannySize p).toNat) (hh : h = img.h) (hw : w = img.w) :
    Ready memSize (.gauss (scratchKg scratch n) (cannySize p) (cannySigma p)) ∧
    Ready memSize (.conv .edgeReplicate false img (scratchKg scratch n) (scratchSm scratch n h w)) ∧
    Ready memSize (.grad (scratchSm scratch n h w) (scratchMg scratch n h w) (scratchDr scratch n h w)) ∧
    Ready memSize (.nms (scratchMg scratch n h w) (scratchDr scratch n h w) (scratchNm scratch n h w)) ∧
    Ready memSize (.dthr (scratchNm scratch n h w) (scratchSt scratch n h w) (scratchWk scratch n h w)
      (cannyHigh p) (cannyLow p)) ∧
    Ready memSize (.link full (scratchSt scratch n h w) (scratchWk scratch n h w) out) := by
  subst hn hh hw
  obtain ⟨hparams, hshape, himg, hout, ⟨halign, hmem⟩, -, himgapart, houtapart⟩ := hready
  have ⟨hh, hw, _⟩ := himg
  obtain ⟨hgauss, hthresholds⟩ := hparams.effective
  have ⟨hsize, _, hodd, _⟩ := hgauss
  have hn : 1 ≤ (cannySize p).toNat := by omega
  have hcast : ((cannySize p).toNat : Int) = cannySize p := by omega
  have hkerodd : (cannySize p).toNat % 2 = 1 := by omega
  obtain ⟨hkg, hsm, hmg, hdr, hnm, hst, hwk⟩ := scratch_placed hn hh hw halign hmem
  have hplaces := scratch_occupies (s := scratch) (w := img.w) hn hh
  simp only [ScratchApart, scratchBytes] at himgapart houtapart
  refine ⟨⟨hgauss, hcast, hcast, hkg⟩, ⟨hkerodd, hkerodd, ⟨rfl, rfl⟩, himg, hkg, hsm, ?_, ?_⟩,
    ⟨⟨rfl, rfl⟩, ⟨rfl, rfl⟩, hsm, hmg, hdr, ?_, ?_, ?_⟩, ⟨⟨rfl, rfl⟩, ⟨rfl, rfl⟩, hmg, hdr, hnm, ?_, ?_⟩,
    ⟨hthresholds, ⟨rfl, rfl⟩, ⟨rfl, rfl⟩, hnm, hst, hwk, ?_, ?_, ?_⟩,
    ⟨⟨rfl, rfl⟩, hshape, hst, hwk, hout, ?_, ?_⟩⟩
  all_goals omega

/-- A command that attempts a memory and is ready completes with it. -/
theorem exec_of_attempt {i : Instr} {s : State} {m : Memory} (hexec : exec i s = .next (s.attempt i m))
    (hready : Ready s.straps.memSize i) : exec i s = .next (s.complete i m) :=
  hexec.trans (congrArg Host.Outcome.next (State.attempt_of_none (validate_none_iff_ready.2 hready) m))

/-! ## The defaults (48_canny.md R395) -/

/-- The default parameters written out. -/
def writtenDefaults : CannyParams := .given 5 defaultSigma defaultHigh defaultLow

/-- The written defaults pass step B, which the defaults skip, and all other checks are of the same values. -/
theorem validate_writtenDefaults : validate (.canny full img out scratch writtenDefaults) memSize =
    validate (.canny full img out scratch .defaults) memSize := by
  have hscalars : checkScalars (.canny full img out scratch writtenDefaults) =
      checkScalars (.canny full img out scratch .defaults) :=
    checkScalars_canny_none.2 (CannyScalars.effective (p := .defaults) trivial)
  rw [validate, validate, hscalars]
  rfl

/-- The written defaults leave the same memory: every stage reads the same values of the parameters. -/
theorem exec_writtenDefaults (s : State) : exec (.canny full img out scratch writtenDefaults) s =
    .next (s.attempt (.canny full img out scratch writtenDefaults)
      (cannyMemory Config.exp Config.atan2 full img out scratch .defaults s.mem)) := rfl

/-- Both forms raise the same error or complete alike, but for the command that the record of the list gains. -/
theorem attempt_writtenDefaults (s : State) (m : Memory) : s.attempt (.canny full img out scratch writtenDefaults) m =
    { s.attempt (.canny full img out scratch .defaults) m with
      ran := (s.attempt (.canny full img out scratch writtenDefaults) m).ran } := by
  rcases s.attempt_cases (.canny full img out scratch .defaults) m with ⟨e, he, hraise⟩ | ⟨hvalid, hcomplete⟩
  · rw [hraise, State.attempt_of_error (validate_writtenDefaults.trans he)]
  · rw [hcomplete, State.attempt_of_none (validate_writtenDefaults.trans hvalid)]
    rfl

end

end Sys2Proof.Machine

namespace Sys2Proof

open Sys2Proof.Machine

/-- Settles O28: the grids stand one behind the other and fill the region. -/
theorem scratchGridsCoverTheRegion : Obligations.ScratchGridsCoverTheRegion := by
  rintro scratch n h w L rfl
  have hstacked := stacked_scratch scratch n h w
  exact ⟨hstacked.pairwise_disjoint, hstacked.mem_iff⟩

/-- Settles O26: each of the six commands is ready, and CANNY's stages are their execution parts. -/
theorem cannyIsTheComposition : Obligations.CannyIsTheComposition := by
  rintro s full img out scratch p n h w rfl rfl rfl hready
  obtain ⟨hgauss, hconv, hgrad, hnms, hdthr, hlink⟩ := canny_stages_ready hready rfl rfl rfl
  refine ⟨_, _, _, _, _, _, _, exec_of_attempt rfl hready,
    ⟨rfl, (cannyMemory_within Config.exp Config.atan2 full img out scratch p s.mem).other⟩,
    exec_of_attempt (m := cannyKernel Config.exp scratch p _) rfl hgauss,
    exec_of_attempt (m := cannySmooth img scratch p _) rfl hconv,
    exec_of_attempt (m := cannyGradient Config.atan2 img scratch p _) rfl hgrad,
    exec_of_attempt (m := cannySuppress img scratch p _) rfl hnms,
    exec_of_attempt (m := cannyThreshold img scratch p _) rfl hdthr,
    exec_of_attempt (m := cannyLink full img out scratch p _) rfl hlink, ?_, ?_, ?_, ?_⟩
  · simp only [State.complete_mem, cannyMemory]
  · simp only [State.complete_cmdCount, BitVec.add_assoc]
    rfl
  · simp only [State.complete_err]
  · simp only [State.complete_busy]

/-- Settles O29: both forms fail alike or complete with the same memory; only the record of the list differs. -/
theorem cannyDefaults : Obligations.CannyDefaults := by
  intro s full img out scratch
  exact ⟨_, _, rfl, exec_writtenDefaults s, attempt_writtenDefaults s _⟩

end Sys2Proof
end
